-- ==== Sys2Proof/Word.lean ====
section
/-! DEFINITION. The words of the machine: the number type of the hardware and the words of its two ports. -/

namespace Sys2Proof

/-- A `Num` of the hardware: the 64 bits of an IEEE 754 binary64 value (R100). Bit 63 is the sign, bits 62:52 the
exponent, bits 51:0 the fraction (R63). -/
abbrev Num64 := BitVec 64

/-- A binary32 pattern, as it stands in bits 31:0 of a sample word (R120). -/
abbrev Single := BitVec 32

/-- An operand or result word of a port, 64 bits (R80). -/
abbrev DataWord := BitVec 64

/-- The command word `CMD`, 32 bits (R80). -/
abbrev CmdWord := BitVec 32

/-- The selector field `a` of a command word, an unsigned 8-bit integer (R82, R84). -/
abbrev Selector := BitVec 8

end Sys2Proof
end

