-- ==== Sys2Proof/Config.lean ====
section
/-! DEFINITION. The configuration record `CFG` of R8, and the open constants of the design and the free values as opaque
constants without a body. `Machine/Design.lean` brings the open constants inside the constraint column of R8. -/

namespace Sys2Proof

/-- The seven control parameters, in the index order of R22 and R89. -/
inductive Param where
  | sine
  | freq
  | duty
  | len
  | depth
  | fb
  | mix
  deriving DecidableEq, Repr

/-- One value per parameter: the registers `P[0..6]` (R22), or the defaults `P_DEF[0..6]` (R8). -/
structure Params (N : Type) where
  sine : N
  freq : N
  duty : N
  len : N
  depth : N
  fb : N
  mix : N
  deriving DecidableEq, Repr

/-- The operations whose result can be a NaN made by the machine (R110); they index the free draw of its sign and payload. -/
inductive ArithOp where
  | add
  | sub
  | mul
  | div
  | fmod
  deriving DecidableEq, Repr

/-- The configuration record of R8 over a number type. `NCH` is the constant 2 and has no field (R3). -/
structure Cfg (N : Type) where
  /-- `DL_CAP`, capacity of each delay line in cells. -/
  dlCap : Nat
  /-- `T_MAX`, `fixed_max_delay_seconds`. -/
  tMax : N
  /-- `K_SMOOTH`, the smoothing constant of the Cache. -/
  kSmooth : N
  /-- `LIMIT`, the saturation scale. -/
  limit : N
  /-- `TAU_IN`, time constant of the input high-pass. -/
  tauIn : N
  /-- `TAU_CHP`, time constant of FilterChorus stage 1. -/
  tauChp : N
  /-- `TAU_CLP`, time constant of FilterChorus stage 2. -/
  tauClp : N
  /-- `W0`, natural angular frequency of FilterChorus stage 3. -/
  w0 : N
  /-- `Q`, quality factor of FilterChorus stage 3. -/
  q : N
  /-- `TAU_FB`, time constant of the feedback high-pass. -/
  tauFb : N
  /-- `TAU_LFO`, time constant of the oscillator's low-pass. -/
  tauLfo : N
  /-- `TAU_FD`, time constant of the `filter_delay` low-pass. -/
  tauFd : N
  /-- `P_DEF[0..6]`, the default engineering values. -/
  pDef : Params N
  /-- `SHAPE_FN`, the function used for the sine of the shaper (R112). -/
  shapeFn : N → N
  /-- What a shape answers outside `0 <= phase < TWO_PI`, `0 <= duty <= 1`, by selector number: the spec gives it no value
  (R130). -/
  waveOutside : Nat → N → N → N

namespace Config

/-! The open constants of R8, unconstrained. -/

opaque rawDlCap : Nat
opaque rawTMax : Num64
opaque rawKSmooth : Num64
opaque rawLimit : Num64
opaque rawTauIn : Num64
opaque rawTauChp : Num64
opaque rawTauClp : Num64
opaque rawW0 : Num64
opaque rawQ : Num64
opaque rawTauFb : Num64
opaque rawTauLfo : Num64
opaque rawTauFd : Num64
opaque rawPDef : Param → Num64
opaque rawShapeFn : Num64 → Num64

/-! The free values. -/

/-- Sign (bit 51) and payload (bits 50:0) of a quiet NaN an operation makes (R110, U3): a free draw. DESIGN CHOICE: one draw
per operation and operands (entry 3). -/
opaque freeNaN : ArithOp → Num64 → Num64 → BitVec 52

/-- Sign (bit 22) and payload (bits 21:0) of the binary32 NaN a NaN sample is rounded to (R110, entry 15). -/
opaque freeNaN32 : Num64 → BitVec 23

/-- `fmod` outside the domain of R105 (entry 5). -/
opaque freeFmod : Num64 → Num64 → Num64

/-- A waveform outside the domain of R130, by selector (entry 6). -/
opaque freeWave : Nat → Num64 → Num64 → Num64

/-! The host's own functions and constants (R8, R114): the core evaluates none of them. -/

opaque rawFMin : Num64
opaque rawFMax : Num64
opaque hostExp2 : Num64 → Num64
opaque hostLog2 : Num64 → Num64
opaque hostPow4 : Num64 → Num64
opaque hostRoot4 : Num64 → Num64

end Config

end Sys2Proof
end

