-- ==== Sys2Proof/Machine/F64.lean ====
section
/-! DEFINITION. `Arith_f64`: IEEE 754 binary64 with round to nearest, ties to even, one rounding per operation (R100 to R110),
and the binary32 port conversions (R120, R121).

Every finite binary64 value is a whole number of quanta of `2^-1074`. An operation takes the exact result as a quotient of two
natural numbers of quanta and rounds it once at the end. -/

namespace Sys2Proof.F64

/-! ## Fields and classes of a pattern (R63, R100) -/

/-- Bit 63, the sign. -/
def signBit (x : Num64) : Bool := x.msb

/-- Bits 62:0, the pattern of the magnitude. -/
def magBits (x : Num64) : Nat := x.toNat % 0x8000000000000000

/-- The magnitude pattern of an infinity. -/
def infMag : Nat := 0x7FF0000000000000

def isNaN (x : Num64) : Bool := decide (infMag < magBits x)

def isInf (x : Num64) : Bool := decide (magBits x = infMag)

def isFinite (x : Num64) : Bool := decide (magBits x < infMag)

def isZero (x : Num64) : Bool := decide (magBits x = 0)

/-- The pattern with the given sign and magnitude pattern. -/
def pack (neg : Bool) (mag : Nat) : Num64 := BitVec.ofNat 64 (if neg then mag + 0x8000000000000000 else mag)

/-- An infinity of the given sign. -/
def inf (neg : Bool) : Num64 := pack neg infMag

/-- A quiet NaN whose sign (bit 51 of `r`) and payload (bits 50:0) are those drawn. -/
def quietNaN (r : BitVec 52) : Num64 := r.extractLsb' 51 1 ++ 0xFFF#12 ++ r.extractLsb' 0 51

/-- The NaN that operation `op` makes of operands `a` and `b`: sign and payload are a free draw (R110, entry 3). -/
def nan (op : ArithOp) (a b : Num64) : Num64 := quietNaN (Config.freeNaN op a b)

/-! ## Exact values and the one rounding -/

/-- Quanta in the value whose magnitude pattern is `mag`, in a format of `frac` fraction bits: a subnormal is its fraction, a
normal number `(2^frac + fraction) * 2^(exponent - 1)`. -/
def quantaOf (frac mag : Nat) : Nat :=
  if mag / 2 ^ frac = 0 then mag else (2 ^ frac + mag % 2 ^ frac) * 2 ^ (mag / 2 ^ frac - 1)

/-- The magnitude pattern nearest `p / q` quanta, ties to even, in a format of `frac` fraction bits without an upper limit to
the exponent (R101). -/
def roundMag (frac p q : Nat) : Nat :=
  let e := (p / q).log2 - frac
  let d := q * 2 ^ e
  let m := p / d
  let r := p % d
  e * 2 ^ frac + (if d < 2 * r ∨ (2 * r = d ∧ m % 2 = 1) then m + 1 else m)

/-- Quanta in the value 1: `2^1074`. -/
def one1074 : Nat := 2 ^ 1074

/-- Quanta of a finite value, without its sign. -/
def quanta (x : Num64) : Nat := quantaOf 52 (magBits x)

/-- Quanta of a finite value, with its sign; both zeros are 0. -/
def toInt (x : Num64) : Int := if signBit x then -(quanta x : Int) else (quanta x : Int)

/-- The binary64 value nearest `p / q` quanta with the given sign; a magnitude that rounds past the largest finite value is an
infinity (R110). -/
def ofRatio (neg : Bool) (p q : Nat) : Num64 := pack neg (min (roundMag 52 p q) infMag)

/-! ## The operators (R101, R102) -/

/-- `-a`: flips the sign bit. -/
def neg (a : Num64) : Num64 := a ^^^ 0x8000000000000000#64

/-- `abs(a)`: clears the sign bit. -/
def abs (a : Num64) : Num64 := a &&& 0x7FFFFFFFFFFFFFFF#64

/-- The sum of two finite values, rounded once. An exact zero is `-0` only when both operands are negative (R109). -/
def addFinite (a b : Num64) : Num64 :=
  let i := toInt a + toInt b
  if i = 0 then pack (signBit a && signBit b) 0 else ofRatio (decide (i < 0)) i.natAbs 1

/-- The sum as the operation `op` makes it (`a - b` is a sum with `-b`). -/
def addAs (op : ArithOp) (a b : Num64) : Num64 :=
  if isNaN a || isNaN b then nan op a b
  else if isInf a then (if isInf b && (signBit a != signBit b) then nan op a b else a)
  else if isInf b then b
  else addFinite a b

def add (a b : Num64) : Num64 := addAs .add a b

def sub (a b : Num64) : Num64 := addAs .sub a (neg b)

def mul (a b : Num64) : Num64 :=
  let s := signBit a != signBit b
  if isNaN a || isNaN b then nan .mul a b
  else if isInf a then (if isZero b then nan .mul a b else inf s)
  else if isInf b then (if isZero a then nan .mul a b else inf s)
  else ofRatio s (quanta a * quanta b) one1074

def div (a b : Num64) : Num64 :=
  let s := signBit a != signBit b
  if isNaN a || isNaN b then nan .div a b
  else if isInf a then (if isInf b then nan .div a b else inf s)
  else if isInf b then pack s 0
  else if isZero b then (if isZero a then nan .div a b else inf s)
  else ofRatio s (quanta a * one1074) (quanta b)

/-- The place of a non-NaN value in the order of values: the pattern of the magnitude, with the sign. Both zeros are 0. -/
def key (x : Num64) : Int := if signBit x then -(magBits x : Int) else (magBits x : Int)

/-- `a < b`: false with a NaN operand (R102). -/
def lt (a b : Num64) : Bool := !isNaN a && !isNaN b && decide (key a < key b)

/-- `a <= b`: false with a NaN operand (R102). -/
def le (a b : Num64) : Bool := !isNaN a && !isNaN b && decide (key a ≤ key b)

/-! ## Integers and the exact remainder (R105, R116, R117) -/

/-- `ifloor(a)`: the largest integer not above a finite `a`; no value for an infinity or a NaN (R117). -/
def ifloor (a : Num64) : Option Int := if isFinite a then some (toInt a / (one1074 : Int)) else none

/-- `num(i)`: exact for every integer of magnitude at most `2^53` (R117). -/
def num (i : Int) : Num64 := ofRatio (decide (i < 0)) (i.natAbs * one1074) 1

/-- `fmod(a, b)` for finite `a >= 0` and finite `b > 0`: the exact remainder; when `b` does not go into `a` it is `a` itself
(R105). A NaN operand gives a NaN (R110); any other operand outside the domain gives a free value (entry 5). -/
def fmod (a b : Num64) : Num64 :=
  if isNaN a || isNaN b then nan .fmod a b
  else if isFinite a && isFinite b && le 0#64 a && lt 0#64 b then
    (if lt a b then a else ofRatio false (quanta a % quanta b) 1)
  else Config.freeFmod a b

/-! ## Constants (R104) -/

def zero : Num64 := 0#64
def half : Num64 := 0x3FE0000000000000#64
def one : Num64 := 0x3FF0000000000000#64
def two : Num64 := 0x4000000000000000#64
def negOne : Num64 := 0xBFF0000000000000#64
def pi : Num64 := 0x400921FB54442D18#64
def twoPi : Num64 := 0x401921FB54442D18#64
def halfPi : Num64 := 0x3FF921FB54442D18#64

/-! ## The port formats (R120, R121) -/

/-- The magnitude pattern of a binary32 infinity. -/
def infMag32 : Nat := 0x7F800000

/-- Bits 30:0 of a binary32 pattern. -/
def magBits32 (w : Single) : Nat := w.toNat % 0x80000000

/-- Binary64 quanta in one binary32 quantum of `2^-149`. -/
def quantum32 : Nat := 2 ^ 925

/-- The `Num` equal to a finite binary32 pattern; none for an infinity or a NaN (R120). -/
def ofSingle (w : Single) : Option Num64 :=
  if magBits32 w < infMag32 then some (ofRatio w.msb (quantaOf 23 (magBits32 w) * quantum32) 1) else none

/-- A `Num` rounded to binary32, ties to even; past the largest finite value it is an infinity of the same sign (R121). A NaN
stays a NaN whose sign and payload are free (R110, entry 15). -/
def toSingle (x : Num64) : Single :=
  if isNaN x then
    (Config.freeNaN32 x).extractLsb' 22 1 ++ 0x1FF#9 ++ (Config.freeNaN32 x).extractLsb' 0 22
  else
    let m := if isInf x then infMag32 else min (roundMag 23 (quanta x) quantum32) infMag32
    BitVec.ofNat 32 (if signBit x then m + 0x80000000 else m)

end Sys2Proof.F64
end

