-- ==== Sys2Proof/Machine/Arith.lean ====
section
/-! DEFINITION. The arithmetic instance `ARITH` of R8 and R100: the operations every rule's expression tree is written over, and
the hardware's instance `Arith_f64`. The reference instance `Arith_real` (R106) is in `Machine/ArithReal.lean`. -/

namespace Sys2Proof

/-- An arithmetic instance: the operators, comparisons, constants and functions of R12 and R101 to R118 on a number type. -/
structure Arith (N : Type) where
  add : N → N → N
  sub : N → N → N
  mul : N → N → N
  div : N → N → N
  neg : N → N
  abs : N → N
  lt : N → N → Bool
  le : N → N → Bool
  isFinite : N → Bool
  fmod : N → N → N
  /-- `ifloor`; none where it has no value (R117). -/
  ifloor : N → Option Int
  num : Int → N
  zero : N
  half : N
  one : N
  two : N
  negOne : N
  pi : N
  twoPi : N
  halfPi : N

/-- `Arith_f64` (R100): the hardware's instance. -/
def arithF64 : Arith Num64 where
  add := F64.add
  sub := F64.sub
  mul := F64.mul
  div := F64.div
  neg := F64.neg
  abs := F64.abs
  lt := F64.lt
  le := F64.le
  isFinite := F64.isFinite
  fmod := F64.fmod
  ifloor := F64.ifloor
  num := F64.num
  zero := F64.zero
  half := F64.half
  one := F64.one
  two := F64.two
  negOne := F64.negOne
  pi := F64.pi
  twoPi := F64.twoPi
  halfPi := F64.halfPi

/-- `clamp(t, lo, hi)` (R118). -/
def Arith.clamp {N : Type} (A : Arith N) (t lo hi : N) : N :=
  if A.lt t lo then lo else if A.lt hi t then hi else t

/-- Finite and above 0: what R8 asks of a time constant and R256 of a rate. -/
def Arith.isPositive {N : Type} (A : Arith N) (v : N) : Bool := A.isFinite v && A.lt A.zero v

/-- Finite and inside `[lo, hi]` (R258). -/
def Arith.isBetween {N : Type} (A : Arith N) (lo hi v : N) : Bool := A.isFinite v && A.le lo v && A.le v hi

/-- Legal engineering values of a parameter (R258). -/
def Arith.isLegal {N : Type} (A : Arith N) (p : Param) (v : N) : Bool :=
  match p with
  | .freq => A.isPositive v
  | .fb => A.isBetween A.negOne A.one v
  | .sine | .duty | .len | .depth | .mix => A.isBetween A.zero A.one v

end Sys2Proof
end

