-- ==== Sys2Proof/Machine/Design.lean ====
section
/-! DEFINITION. The configuration of the hardware: the open constants of `Config`, brought inside the constraint column of R8.

A raw constant is unconstrained; here an illegal raw value is replaced by a legal one and a legal raw value is kept. So the
constant ranges over exactly the legal values: a theorem about it holds for every legal value and for no other (entry 1). -/

namespace Sys2Proof

/-- The constraint column of R8 on the numbers of a configuration. -/
structure Cfg.Legal {N : Type} (A : Arith N) (c : Cfg N) : Prop where
  dlCap_pos : 1 ≤ c.dlCap
  dlCap_le : c.dlCap ≤ 9007199254740992
  tMax : A.isPositive c.tMax = true
  kSmooth_pos : A.lt A.zero c.kSmooth = true
  kSmooth_le : A.le c.kSmooth A.one = true
  limit : A.isPositive c.limit = true
  tauIn : A.isPositive c.tauIn = true
  tauChp : A.isPositive c.tauChp = true
  tauClp : A.isPositive c.tauClp = true
  w0 : A.isPositive c.w0 = true
  q : A.isPositive c.q = true
  tauFb : A.isPositive c.tauFb = true
  tauLfo : A.isPositive c.tauLfo = true
  tauFd : A.isPositive c.tauFd = true
  pSine : A.isLegal .sine c.pDef.sine = true
  pFreq : A.isLegal .freq c.pDef.freq = true
  pDuty : A.isLegal .duty c.pDef.duty = true
  pLen : A.isLegal .len c.pDef.len = true
  pDepth : A.isLegal .depth c.pDef.depth = true
  pFb : A.isLegal .fb c.pDef.fb = true
  pMix : A.isLegal .mix c.pDef.mix = true

/-- The properties S1 to S5 of `SHAPE_FN` (R112). -/
structure ShapeLaws {N : Type} (A : Arith N) (f : N → N) : Prop where
  /-- S1. -/
  zero : f A.zero = A.zero
  /-- S2. -/
  odd : ∀ a, f (A.neg a) = A.neg (f a)
  /-- S3. -/
  halfPi : f A.halfPi = A.one
  /-- S4. -/
  bounded : ∀ a, A.isFinite a = true → A.le A.negOne (f a) = true ∧ A.le (f a) A.one = true
  /-- S5. -/
  monotone : ∀ a b, A.le (A.neg A.halfPi) a = true → A.le a b = true → A.le b A.halfPi = true →
    A.le (f a) (f b) = true

namespace Design

/-- A legal value kept, an illegal one replaced by 1, which satisfies every constraint of R8 on a number. -/
def orOne (legal : Num64 → Bool) (v : Num64) : Num64 := if legal v then v else F64.one

/-- Capacity inside `1 <= DL_CAP <= 2^53`. -/
def cap (n : Nat) : Nat := max 1 (min n 9007199254740992)

/-- A default inside the legal range of its parameter. -/
def paramDefault (p : Param) : Num64 := orOne (arithF64.isLegal p) (Config.rawPDef p)

/-- `0 < K_SMOOTH <= 1`. -/
def isSmoothing (v : Num64) : Bool := arithF64.lt arithF64.zero v && arithF64.le v arithF64.one

/-- A value inside `[-1, 1]` kept (S4). -/
def unitBall (v : Num64) : Num64 := orOne (fun v => arithF64.le arithF64.negOne v && arithF64.le v arithF64.one) v

/-- The later of two values of a non-decreasing sequence: `c` unless it lies below `r`. -/
def atLeast (r c : Num64) : Num64 := if F64.isNaN c then r else if F64.le r c then c else r

/-- Values at the magnitude patterns `0, 1, 2, ...`, made non-decreasing from `+0` (S1, S5). -/
def shapeUpTo (raw : Num64 → Num64) : Nat → Num64
  | 0 => F64.zero
  | n + 1 => atLeast (shapeUpTo raw n) (unitBall (raw (BitVec.ofNat 64 (n + 1))))

/-- The value at a magnitude pattern: non-decreasing below `HALF_PI` (S5), 1 at `HALF_PI` (S3), inside `[-1, 1]` above it (S4),
free at an infinity or a NaN. -/
def shapeMag (raw : Num64 → Num64) (m : Nat) : Num64 :=
  if m = F64.magBits F64.halfPi then F64.one
  else if m < F64.magBits F64.halfPi then shapeUpTo raw m
  else if m < F64.infMag then unitBall (raw (BitVec.ofNat 64 m))
  else raw (BitVec.ofNat 64 m)

/-- A function with the properties S1 to S5, odd by construction (S2); a raw function that has them is kept as it is. -/
def shape (raw : Num64 → Num64) (x : Num64) : Num64 :=
  if F64.signBit x then F64.neg (shapeMag raw (F64.magBits x)) else shapeMag raw (F64.magBits x)

end Design

/-- The configuration `CFG` of the hardware (R8). -/
def design : Cfg Num64 where
  dlCap := Design.cap Config.rawDlCap
  tMax := Design.orOne arithF64.isPositive Config.rawTMax
  kSmooth := Design.orOne Design.isSmoothing Config.rawKSmooth
  limit := Design.orOne arithF64.isPositive Config.rawLimit
  tauIn := Design.orOne arithF64.isPositive Config.rawTauIn
  tauChp := Design.orOne arithF64.isPositive Config.rawTauChp
  tauClp := Design.orOne arithF64.isPositive Config.rawTauClp
  w0 := Design.orOne arithF64.isPositive Config.rawW0
  q := Design.orOne arithF64.isPositive Config.rawQ
  tauFb := Design.orOne arithF64.isPositive Config.rawTauFb
  tauLfo := Design.orOne arithF64.isPositive Config.rawTauLfo
  tauFd := Design.orOne arithF64.isPositive Config.rawTauFd
  pDef :=
    { sine := Design.paramDefault .sine, freq := Design.paramDefault .freq, duty := Design.paramDefault .duty,
      len := Design.paramDefault .len, depth := Design.paramDefault .depth, fb := Design.paramDefault .fb,
      mix := Design.paramDefault .mix }
  shapeFn := Design.shape Config.rawShapeFn
  waveOutside := Config.freeWave

/-- The test configuration `CFG_T` (R9), for a given `SHAPE_FN`: no claim about the design. -/
def cfgT (shapeFn : Num64 → Num64) : Cfg Num64 where
  dlCap := 8
  tMax := F64.half
  kSmooth := F64.half
  limit := F64.one
  tauIn := 0x3FB0000000000000#64
  tauChp := 0x3FB0000000000000#64
  tauClp := 0x3FB0000000000000#64
  w0 := 0x4030000000000000#64
  q := F64.half
  tauFb := 0x3FB0000000000000#64
  tauLfo := 0x3FB0000000000000#64
  tauFd := 0x3FB0000000000000#64
  pDef :=
    { sine := F64.zero, freq := F64.one, duty := F64.half, len := F64.zero, depth := F64.zero, fb := F64.zero,
      mix := F64.one }
  shapeFn := shapeFn
  waveOutside := Config.freeWave

end Sys2Proof
end

