-- ==== Sys2Proof/Syntax.lean ====
section
/-! DEFINITION. The fourteen commands of `BCC-1` (R88), each with its selector and the operand words it uses. -/

namespace Sys2Proof

/-- The sample format flag `f` of `CHPROC` and `FRAME` (R82): 0 is binary64, 1 is binary32. -/
inductive Fmt where
  | binary64
  | binary32
  deriving DecidableEq, Repr

/-- The two ports that accept commands (R81). -/
inductive Port where
  | audio
  | control
  deriving DecidableEq, Repr

/-- One constructor per row of the opcode table. A selector stands as the 8-bit field it is (R84), an operand word as the
64 bits the port carries; an operand word a command does not use is ignored (R84) and so has no place here. -/
inductive Instr where
  /-- `INIT`, opcode 0x01 (R255). -/
  | init
  /-- `SETRATE`, opcode 0x02: `D0` is the new rate (R256). -/
  | setrate (rate : DataWord)
  /-- `WRPAR p`, opcode 0x03: `D0` is the engineering value (R257). -/
  | wrpar (p : Selector) (value : DataWord)
  /-- `RDPAR p`, opcode 0x04 (R259). -/
  | rdpar (p : Selector)
  /-- `BLOCK`, opcode 0x05 (R230). -/
  | block
  /-- `MOD`, opcode 0x06 (R239). -/
  | mod
  /-- `CHPROC c`, opcode 0x07: `D0` is the input sample in format `f` (R215). -/
  | chproc (c : Selector) (f : Fmt) (sample : DataWord)
  /-- `FRAME`, opcode 0x08: `D0` and `D1` are the input samples of channels 0 and 1 in format `f` (R244). -/
  | frame (f : Fmt) (sample0 sample1 : DataWord)
  /-- `OSTEP`, opcode 0x09 (R153). -/
  | ostep
  /-- `ONEXT`, opcode 0x0A (R154). -/
  | onext
  /-- `SNAP`, opcode 0x0B (R155). -/
  | snap
  /-- `RESTORE`, opcode 0x0C (R156). -/
  | restore
  /-- `RDST r`, opcode 0x0D (R261). -/
  | rdst (r : Selector)
  /-- `RDDL c`, opcode 0x0E: `D0` is the cell index (R172). -/
  | rddl (c : Selector) (index : DataWord)
  deriving DecidableEq, Repr

end Sys2Proof
end

