-- ==== Sys2Proof/Machine/State.lean ====
section
/-! DEFINITION. The state of the machine: the registers of 10_state.md, generic in the number type so that both arithmetic
instances share every rule, and around them the two ports. -/

namespace Sys2Proof.Machine

/-- The two agents (R14). -/
inductive Agent where
  | core
  | hostctl
  deriving DecidableEq, Repr

/-- The channel index (R3): 0 and 1. -/
inductive Chan where
  | zero
  | one
  deriving DecidableEq, Repr

/-- The four state cells of one FilterChorus instance (R34). -/
structure ChorusState (N : Type) where
  hpS : N
  lpS : N
  z1 : N
  z2 : N
  deriving DecidableEq, Repr

/-- The state of one channel (R34, R35). -/
structure ChannelState (N : Type) where
  /-- `IN_S[c]`. -/
  inS : N
  /-- `F1_HP_S[c]`, `F1_LP_S[c]`, `F1_Z1[c]`, `F1_Z2[c]`. -/
  f1 : ChorusState N
  /-- `F2_HP_S[c]`, `F2_LP_S[c]`, `F2_Z1[c]`, `F2_Z2[c]`. -/
  f2 : ChorusState N
  /-- `FB_S[c]`. -/
  fbS : N
  /-- `DL_TAP[c]`. -/
  dlTap : N
  /-- `DL[c]`, newest cell first. `DL_N[c]` is its length (R35, entry 12). -/
  dl : List N
  deriving DecidableEq, Repr

/-- The registers of the machine (R20 to R37). `WSEL` is hardwired (R33) and the nine coefficients are derived (R36): neither
is stored. -/
structure Regs (N : Type) where
  /-- `P[0..6]` (R22). -/
  p : Params N
  /-- `RATE` (R23). -/
  rate : N
  /-- `STAGES` (R24). -/
  stages : Nat
  /-- `C_DEPTH` (R25). -/
  cDepth : N
  /-- `C_LEN` (R25). -/
  cLen : N
  /-- `C_TAP` (R26). -/
  cTap : N
  /-- `B_SINE` (R27). -/
  bSine : N
  /-- `B_FB` (R27). -/
  bFb : N
  /-- `B_MIX` (R27). -/
  bMix : N
  /-- `OSC_W` (R29). -/
  oscW : N
  /-- `OSC_DUTY` (R29). -/
  oscDuty : N
  /-- `OSC_PHASE` (R30). -/
  oscPhase : N
  /-- `OSC_SNAP` (R31). -/
  oscSnap : N
  /-- `LFO_S` (R32). -/
  lfoS : N
  /-- `FD_S` (R32). -/
  fdS : N
  /-- `STATUS`, 16 flags; `RATE_VALID` and `BLK_VALID` are its bits 0 and 1 (R37). -/
  status : BitVec 16
  /-- Channel 0. -/
  ch0 : ChannelState N
  /-- Channel 1. -/
  ch1 : ChannelState N
  deriving DecidableEq, Repr

/-- What a `BLOCK` in progress has loaded so far, in index order (R70, R230): after its first load, …, after its seventh. -/
inductive BlockLoads where
  | one (p0 : Num64)
  | two (p0 p1 : Num64)
  | three (p0 p1 p2 : Num64)
  | four (p0 p1 p2 p3 : Num64)
  | five (p0 p1 p2 p3 p4 : Num64)
  | six (p0 p1 p2 p3 p4 p5 : Num64)
  | seven (p0 p1 p2 p3 p4 p5 p6 : Num64)
  deriving DecidableEq, Repr

/-- A command as the host presents it at a port (R80). -/
structure PortCommand where
  cmd : CmdWord
  d0 : DataWord
  d1 : DataWord
  deriving DecidableEq, Repr

/-- A response (R80, R85). -/
structure Response where
  st : BitVec 8
  q0 : DataWord
  q1 : DataWord
  deriving DecidableEq, Repr

/-- One port: the commands presented and not yet taken, next first, and the responses given, newest first (entries 7, 10). -/
structure PortState where
  waiting : List PortCommand
  answered : List Response
  deriving DecidableEq, Repr

/-- The machine: its registers, the `BLOCK` in progress if there is one, the response of the command just carried out before
its port takes it, the two ports, and which agent takes each of the next steps (R69 M3, entry 7). -/
structure State where
  regs : Regs Num64
  blk : Option BlockLoads
  resp : Option Response
  audio : PortState
  control : PortState
  sched : List Agent
  deriving DecidableEq, Repr

/-- Why the machine stops. -/
inductive Fault where
  /-- `ifloor` was applied to an infinity or a NaN (R110, R117). Raised by `BLOCK` when `RATE * T_MAX` overflows and by `CHPROC`
  and `FRAME` when the tap is not finite. Safe: the model stops where the spec gives no integer (entry 4). -/
  | floorOfNonFinite
  deriving DecidableEq, Repr

/-- Why the model gives an instruction no meaning. -/
inductive Refusal where
  /-- The instruction has no meaning in the model yet: raised by `exec`'s own arm, by name. Safe. -/
  | notModelled (mnemonic : String)
  deriving DecidableEq, Repr

/-- A filter cascade with no stored energy (R40). -/
def ChorusState.reset {N : Type} (zero : N) : ChorusState N := ⟨zero, zero, zero, zero⟩

/-- A channel after reset: every state `+0`, the delay line empty, the tap `+0` (R40). -/
def ChannelState.reset {N : Type} (zero : N) : ChannelState N :=
  { inS := zero, f1 := ChorusState.reset zero, f2 := ChorusState.reset zero, fbS := zero, dlTap := zero, dl := [] }

/-- The registers after reset: the table of R40. -/
def Regs.reset {N : Type} (A : Arith N) (cfg : Cfg N) : Regs N where
  p := cfg.pDef
  rate := A.zero
  stages := 1
  cDepth := cfg.pDef.depth
  cLen := cfg.pDef.len
  cTap := A.zero
  bSine := cfg.pDef.sine
  bFb := cfg.pDef.fb
  bMix := cfg.pDef.mix
  oscW := A.mul A.twoPi cfg.pDef.freq
  oscDuty := cfg.pDef.duty
  oscPhase := A.zero
  oscSnap := A.zero
  lfoS := A.zero
  fdS := A.zero
  status := 0#16
  ch0 := ChannelState.reset A.zero
  ch1 := ChannelState.reset A.zero

/-- The machine right after reset (R40, R311), under a given configuration: no command has been presented on either port. -/
def State.resetWith (cfg : Cfg Num64) : State where
  regs := Regs.reset arithF64 cfg
  blk := none
  resp := none
  audio := ⟨[], []⟩
  control := ⟨[], []⟩
  sched := []

/-- The machine right after reset (R40, R311). -/
def State.reset : State := State.resetWith design

end Sys2Proof.Machine
end

