-- ==== Sys2Proof/Machine/Flags.lean ====
section
/-! DEFINITION. The flags of `STATUS` (R37) and the status codes (R285). No operation of the signal path reads or writes a flag. -/

namespace Sys2Proof.Machine

/-- The named bits of `STATUS`. -/
inductive Flag where
  | rateValid
  | blkValid
  | errIllegal
  | errBadRate
  | errRange
  | errNotReady
  | errNonFinite
  deriving DecidableEq, Repr

/-- The bit of a flag (R37). -/
def flagBit : Flag → Nat
  | .rateValid => 0
  | .blkValid => 1
  | .errIllegal => 8
  | .errBadRate => 9
  | .errRange => 10
  | .errNotReady => 11
  | .errNonFinite => 12

/-- The mask of a flag. -/
def flagMask (f : Flag) : BitVec 16 := 1#16 <<< flagBit f

/-- Is the flag set? -/
def getFlag (st : BitVec 16) (f : Flag) : Bool := st.getLsbD (flagBit f)

/-- `STATUS` with the flag set. -/
def setFlag (st : BitVec 16) (f : Flag) : BitVec 16 := st ||| flagMask f

/-- `STATUS` with the flag cleared. -/
def clearFlag (st : BitVec 16) (f : Flag) : BitVec 16 := st &&& ~~~flagMask f

/-- The bits of `STATUS` that have a name; the others read as 0 (R37). -/
def namedStatusBits : BitVec 16 := 0x1F03#16

/-- The five faults of R285. -/
inductive FaultCode where
  | illegal
  | badRate
  | range
  | notReady
  | nonFinite
  deriving DecidableEq, Repr

/-- The status code `ST` of a fault (R285). -/
def faultSt : FaultCode → BitVec 8
  | .illegal => 1#8
  | .badRate => 2#8
  | .range => 3#8
  | .notReady => 4#8
  | .nonFinite => 5#8

/-- The sticky flag of a fault (R285). -/
def faultFlag : FaultCode → Flag
  | .illegal => .errIllegal
  | .badRate => .errBadRate
  | .range => .errRange
  | .notReady => .errNotReady
  | .nonFinite => .errNonFinite

/-- The status code of success (R285). -/
def stOk : BitVec 8 := 0#8

/-- `RATE_VALID` (R23). -/
def rateValid {N : Type} (r : Regs N) : Bool := getFlag r.status .rateValid

/-- `BLK_VALID` (R28). -/
def blkValid {N : Type} (r : Regs N) : Bool := getFlag r.status .blkValid

end Sys2Proof.Machine
end

