-- ==== Sys2Proof/Machine/Operands.lean ====
section
/-! DEFINITION. Operand and result forms: the selectors (R89, R38), the sample formats (R84, R86), integer results (R86). -/

namespace Sys2Proof.Machine

/-- The parameter a selector names (R89). -/
def paramOfSel (p : Selector) : Option Param :=
  match p.toNat with
  | 0 => some .sine
  | 1 => some .freq
  | 2 => some .duty
  | 3 => some .len
  | 4 => some .depth
  | 5 => some .fb
  | 6 => some .mix
  | _ => none

/-- The channel a selector names (R89). -/
def chanOfSel (c : Selector) : Option Chan :=
  match c.toNat with
  | 0 => some .zero
  | 1 => some .one
  | _ => none

/-- The nine derived coefficients (R36). -/
inductive Coef where
  | gIn
  | gChp
  | gClp
  | b0
  | a1
  | a2
  | gFb
  | gLfo
  | gFd
  deriving DecidableEq, Repr

/-- The per-channel registers (R38). -/
inductive ChanReg where
  | inS
  | f1HpS
  | f1LpS
  | f1Z1
  | f1Z2
  | f2HpS
  | f2LpS
  | f2Z1
  | f2Z2
  | fbS
  | dlTap
  | dlN
  deriving DecidableEq, Repr

/-- A register of the map of R38. -/
inductive RegName where
  | par (p : Param)
  | rate
  | stages
  | cDepth
  | cLen
  | cTap
  | bSine
  | bFb
  | bMix
  | oscW
  | oscDuty
  | oscPhase
  | oscSnap
  | wsel
  | lfoS
  | fdS
  | status
  | coef (k : Coef)
  | chan (c : Chan) (r : ChanReg)
  deriving DecidableEq, Repr

/-- The per-channel register at an offset from the channel's base (R38). -/
def chanRegOfOffset : Nat → Option ChanReg
  | 0x0 => some .inS
  | 0x1 => some .f1HpS
  | 0x2 => some .f1LpS
  | 0x3 => some .f1Z1
  | 0x4 => some .f1Z2
  | 0x5 => some .f2HpS
  | 0x6 => some .f2LpS
  | 0x7 => some .f2Z1
  | 0x8 => some .f2Z2
  | 0x9 => some .fbS
  | 0xA => some .dlTap
  | 0xB => some .dlN
  | _ => none

/-- The global registers by number (R38). -/
def globalRegOfNum : Nat → Option RegName
  | 0x00 => some (.par .sine)
  | 0x01 => some (.par .freq)
  | 0x02 => some (.par .duty)
  | 0x03 => some (.par .len)
  | 0x04 => some (.par .depth)
  | 0x05 => some (.par .fb)
  | 0x06 => some (.par .mix)
  | 0x08 => some .rate
  | 0x09 => some .stages
  | 0x0A => some .cDepth
  | 0x0B => some .cLen
  | 0x0C => some .cTap
  | 0x0D => some .bSine
  | 0x0E => some .bFb
  | 0x0F => some .bMix
  | 0x10 => some .oscW
  | 0x11 => some .oscDuty
  | 0x12 => some .oscPhase
  | 0x13 => some .oscSnap
  | 0x14 => some .wsel
  | 0x15 => some .lfoS
  | 0x16 => some .fdS
  | 0x18 => some .status
  | 0x20 => some (.coef .gIn)
  | 0x21 => some (.coef .gChp)
  | 0x22 => some (.coef .gClp)
  | 0x23 => some (.coef .b0)
  | 0x24 => some (.coef .a1)
  | 0x25 => some (.coef .a2)
  | 0x26 => some (.coef .gFb)
  | 0x27 => some (.coef .gLfo)
  | 0x28 => some (.coef .gFd)
  | _ => none

/-- The register a number names: the map of R38; the base of channel `c` is `0x40 + 0x10 * c`. -/
def regOfSel (r : Selector) : Option RegName :=
  let n := r.toNat
  if n < 0x40 then globalRegOfNum n
  else if n < 0x50 then (chanRegOfOffset (n - 0x40)).map (RegName.chan .zero)
  else (chanRegOfOffset (n - 0x50)).map (RegName.chan .one)

/-- An input sample: the binary64 pattern of the word, or the binary32 pattern in bits 31:0 widened exactly, bits 63:32 ignored
(R84, R120). None when the sample is an infinity or a NaN. -/
def decodeSample (f : Fmt) (w : DataWord) : Option Num64 :=
  match f with
  | .binary64 => if F64.isFinite w then some w else none
  | .binary32 => F64.ofSingle (w.extractLsb' 0 32)

/-- An output sample: the binary64 pattern, or the value rounded once to binary32 in bits 31:0 with bits 63:32 zero (R86, R121). -/
def encodeSample (f : Fmt) (x : Num64) : DataWord :=
  match f with
  | .binary64 => x
  | .binary32 => (F64.toSingle x).zeroExtend 64

/-- An integer result, zero-extended to 64 bits (R86). -/
def intResult (n : Nat) : DataWord := BitVec.ofNat 64 n

/-- A flag-register result, zero-extended to 64 bits (R86). -/
def statusResult (st : BitVec 16) : DataWord := st.zeroExtend 64

end Sys2Proof.Machine
end

