-- ==== Sys2Proof/Machine/Ops.lean ====
section
/-! DEFINITION. The named operations over registers, delay lines and responses that every command is built from, among them the
fault response (R290), which is all that taking an exception is on this machine. There is no return from one: no handler runs,
nothing is saved, and the port is ready for the next command (R290 (4)). -/

namespace Sys2Proof.Machine

/-! ## Parameter registers (R66) -/

/-- The value of one parameter. -/
def getParam {N : Type} (ps : Params N) : Param → N
  | .sine => ps.sine
  | .freq => ps.freq
  | .duty => ps.duty
  | .len => ps.len
  | .depth => ps.depth
  | .fb => ps.fb
  | .mix => ps.mix

/-- The parameters with one of them replaced. -/
def setParam {N : Type} (ps : Params N) (p : Param) (v : N) : Params N :=
  match p with
  | .sine => { ps with sine := v }
  | .freq => { ps with freq := v }
  | .duty => { ps with duty := v }
  | .len => { ps with len := v }
  | .depth => { ps with depth := v }
  | .fb => { ps with fb := v }
  | .mix => { ps with mix := v }

/-- `ParLoad(p)`: one atomic load (R66). -/
def parLoad {N : Type} (r : Regs N) (p : Param) : N := getParam r.p p

/-- `ParStore(p, v)`: one atomic store (R66). -/
def parStore {N : Type} (r : Regs N) (p : Param) (v : N) : Regs N := { r with p := setParam r.p p v }

/-! ## Channels (R34, R75) -/

/-- The state of channel `c`. -/
def getChan {N : Type} (r : Regs N) : Chan → ChannelState N
  | .zero => r.ch0
  | .one => r.ch1

/-- The registers with channel `c` replaced. -/
def setChan {N : Type} (r : Regs N) (c : Chan) (ch : ChannelState N) : Regs N :=
  match c with
  | .zero => { r with ch0 := ch }
  | .one => { r with ch1 := ch }

/-! ## Delay-line primitives (R61, R62, R68), on the sequence `DL[c]`, newest cell first -/

/-- `DLRead(c, i)`: cell `i`, or `+0` when `i` is outside `0 .. DL_N[c] - 1`, on either side (R61). -/
def dlRead {N : Type} (A : Arith N) (dl : List N) (i : Int) : N :=
  match i with
  | .ofNat k => dl.getD k A.zero
  | .negSucc _ => A.zero

/-- `DLPush(c, v, n)`: the first `min(DL_N[c] + 1, n)` elements of `v :: DL[c]` (R62). -/
def dlPush {N : Type} (dl : List N) (v : N) (n : Nat) : List N := (v :: dl).take n

/-- `DLWrite(c, i, v)`: cell `i` replaced, `0 <= i < DL_N[c]` (R68). -/
def dlWrite {N : Type} (dl : List N) (i : Nat) (v : N) : List N := dl.set i v

/-! ## Responses and the fault response (R85, R290) -/

/-- `respond(q0, q1)`: status `OK` and the two result words (R85). -/
def respond (q0 q1 : DataWord) (s : State) : State := { s with resp := some ⟨stOk, q0, q1⟩ }

/-- `raise E`: the sticky flag of `E` is set, nothing else changes, the response carries the code and two zero words (R290). -/
def raise (e : FaultCode) (s : State) : State :=
  { s with
    regs := { s.regs with status := setFlag s.regs.status (faultFlag e) }
    resp := some ⟨faultSt e, 0#64, 0#64⟩ }

/-- A command that needs `RATE_VALID = 1` (R293). -/
def needRate (s : State) (k : State → Host.Outcome State Fault Refusal) : Host.Outcome State Fault Refusal :=
  if rateValid s.regs then k s else .next (raise .notReady s)

/-- A command that needs `BLK_VALID = 1` (R293). -/
def needBlock (s : State) (k : State → Host.Outcome State Fault Refusal) : Host.Outcome State Fault Refusal :=
  if blkValid s.regs then k s else .next (raise .notReady s)

/-! ## Hardwired and port state -/

/-- `WSEL`, hardwired to 0, triangle (R33). -/
def wsel : Nat := 0

/-- The port an agent's commands come from (R81). -/
def portOfAgent : Agent → Port
  | .core => .audio
  | .hostctl => .control

/-- One port of the machine. -/
def getPort (s : State) : Port → PortState
  | .audio => s.audio
  | .control => s.control

/-- The machine with one port replaced. -/
def setPort (s : State) (p : Port) (q : PortState) : State :=
  match p with
  | .audio => { s with audio := q }
  | .control => { s with control := q }

/-- The port takes the response of the command just carried out, if it has one (R81: a port answers a command before taking the
next). A `BLOCK` between its loads has none yet. -/
def deliver (p : Port) (s : State) : State :=
  match s.resp with
  | none => s
  | some a =>
    setPort { s with resp := none } p { waiting := (getPort s p).waiting, answered := a :: (getPort s p).answered }

end Sys2Proof.Machine
end

