-- ==== Sys2Proof/Machine/Lifecycle.lean ====
section
/-! DEFINITION. The lifecycle and parameter commands (47_host_commands.md): `INIT`, `SETRATE`, `WRPAR`, `RDPAR`. -/

namespace Sys2Proof.Machine

/-- `INIT` under a configuration: every state element takes its reset value (R255, R40). The ports are the host's. -/
def initWith (cfg : Cfg Num64) (s : State) : Host.Outcome State Fault Refusal :=
  .next (respond 0#64 0#64 { s with regs := Regs.reset arithF64 cfg, blk := none })

/-- `INIT` (R255). -/
def execInit (s : State) : Host.Outcome State Fault Refusal := initWith design s

/-- An accepted `SETRATE` on the registers: the rate, `RATE_VALID <- 1`, `BLK_VALID <- 0` (R256). -/
def acceptRate {N : Type} (v : N) (r : Regs N) : Regs N :=
  { r with rate := v, status := clearFlag (setFlag r.status .rateValid) .blkValid }

/-- `SETRATE` (R256): a rate that is not finite and above 0 is refused. -/
def execSetrate (rate : DataWord) (s : State) : Host.Outcome State Fault Refusal :=
  if arithF64.isPositive rate then .next (respond 0#64 0#64 { s with regs := acceptRate rate s.regs })
  else .next (raise .badRate s)

/-- `WRPAR` (R257): one atomic store of a legal value (R258); a selector above 6 is an illegal command (R286). -/
def execWrpar (p : Selector) (value : DataWord) (s : State) : Host.Outcome State Fault Refusal :=
  match paramOfSel p with
  | none => .next (raise .illegal s)
  | some p =>
    if arithF64.isLegal p value then .next (respond 0#64 0#64 { s with regs := parStore s.regs p value })
    else .next (raise .range s)

/-- `RDPAR` (R259): one atomic load. -/
def execRdpar (p : Selector) (s : State) : Host.Outcome State Fault Refusal :=
  match paramOfSel p with
  | none => .next (raise .illegal s)
  | some p => .next (respond (parLoad s.regs p) 0#64 s)

end Sys2Proof.Machine
end

