-- ==== Sys2Proof/Machine/DelayLine.lean ====
section
/-! DEFINITION. The TappedDelayLine (43_delay_line.md): push, interpolated read, feedback injection. None where `ifloor` has no
value (R110, entry 4). -/

namespace Sys2Proof.Machine

/-- `DL.READ(c)`: linear interpolation at a fractional tap (R167). -/
def delayRead {N : Type} (A : Arith N) (dl : List N) (t : N) : Option N :=
  match A.ifloor t with
  | none => none
  | some i0 =>
    let frac := A.sub t (A.num i0)
    some (A.add (A.mul (dlRead A dl i0) (A.sub A.one frac)) (A.mul (dlRead A dl (i0 + 1)) frac))

/-- `DL.DELAY(c, x, n)`: the push, then the read on the line as the push left it; the new line and the value read (R166). -/
def delayLine {N : Type} (A : Arith N) (dl : List N) (t x : N) (n : Nat) : Option (List N × N) :=
  (delayRead A (dlPush dl x n) t).map fun y => (dlPush dl x n, y)

/-- `SAT(v)` (R211). -/
def saturate {N : Type} (A : Arith N) (limit v : N) : N :=
  let u := A.div v limit
  A.mul limit (A.div u (A.add A.one (A.abs u)))

/-- `DL.INJECT(c, v)`: cell 0 becomes `SAT(cell 0 + v)` (R170). -/
def delayInject {N : Type} (A : Arith N) (limit : N) (dl : List N) (v : N) : List N :=
  dlWrite dl 0 (saturate A limit (A.add (dlRead A dl 0) v))

end Sys2Proof.Machine
end

