-- ==== Sys2Proof/Machine/Filter.lean ====
section
/-! DEFINITION. The filter stages (44_filters.md): one-pole low-pass and high-pass, two-pole low-pass, the FilterChorus cascade, and
the nine coefficients, which are a function of the configuration and the rate (R36, R194). A stage answers its output and its new
state. -/

namespace Sys2Proof.Machine

/-- `F.LP1(S, G, x)`: output and new state (R186). -/
def filterLp1 {N : Type} (A : Arith N) (S G x : N) : N × N :=
  let v := A.mul (A.sub x S) G
  let y := A.add v S
  (y, A.add y v)

/-- `F.HP1(S, G, x)`: output and new state (R187). -/
def filterHp1 {N : Type} (A : Arith N) (S G x : N) : N × N :=
  let v := A.mul (A.sub x S) G
  let y := A.add v S
  (A.sub x y, A.add y v)

/-- `F.COEF1(tau)` (R190). -/
def filterCoef1 {N : Type} (A : Arith N) (tau rate : N) : N :=
  let g := A.div A.one (A.mul (A.mul A.two tau) rate)
  A.div g (A.add A.one g)

/-- The coefficients of the two-pole stage. -/
structure Coef2 (N : Type) where
  b0 : N
  a1 : N
  a2 : N
  deriving DecidableEq, Repr

/-- `F.COEF2` (R195). -/
def filterCoef2 {N : Type} (A : Arith N) (w0 q rate : N) : Coef2 N :=
  let K := A.div w0 (A.mul A.two rate)
  let KK := A.mul K K
  let KQ := A.div K q
  let norm := A.add (A.add A.one KQ) KK
  { b0 := A.div KK norm
    a1 := A.div (A.mul A.two (A.sub KK A.one)) norm
    a2 := A.div (A.add (A.sub A.one KQ) KK) norm }

/-- `F.LP2(Z1, Z2, x)`: output and the two new states (R188). -/
def filterLp2 {N : Type} (A : Arith N) (k : Coef2 N) (z1 z2 x : N) : N × N × N :=
  let y := A.add (A.mul k.b0 x) z1
  (y, A.add (A.sub (A.mul (A.mul A.two k.b0) x) (A.mul k.a1 y)) z2, A.sub (A.mul k.b0 x) (A.mul k.a2 y))

/-- The coefficients of a FilterChorus: one set serves every instance (R36). -/
structure ChorusCoefs (N : Type) where
  gChp : N
  gClp : N
  lp2 : Coef2 N
  deriving DecidableEq, Repr

/-- The coefficients of a FilterChorus at a rate (R190, R195). -/
def chorusCoefs {N : Type} (A : Arith N) (cfg : Cfg N) (rate : N) : ChorusCoefs N :=
  { gChp := filterCoef1 A cfg.tauChp rate
    gClp := filterCoef1 A cfg.tauClp rate
    lp2 := filterCoef2 A cfg.w0 cfg.q rate }

/-- `F.CHORUS(k, c, x)`: output and new state (R189). -/
def filterChorus {N : Type} (A : Arith N) (k : ChorusCoefs N) (f : ChorusState N) (x : N) : N × ChorusState N :=
  let y0 := filterHp1 A f.hpS k.gChp x
  let y1 := filterLp1 A f.lpS k.gClp y0.1
  let y := filterLp2 A k.lp2 f.z1 f.z2 y1.1
  (y.1, { hpS := y0.2, lpS := y1.2, z1 := y.2.1, z2 := y.2.2 })

/-- The value of a derived coefficient at the current rate (R36, R190, R195). -/
def coefValue {N : Type} (A : Arith N) (cfg : Cfg N) (rate : N) : Coef → N
  | .gIn => filterCoef1 A cfg.tauIn rate
  | .gChp => filterCoef1 A cfg.tauChp rate
  | .gClp => filterCoef1 A cfg.tauClp rate
  | .b0 => (filterCoef2 A cfg.w0 cfg.q rate).b0
  | .a1 => (filterCoef2 A cfg.w0 cfg.q rate).a1
  | .a2 => (filterCoef2 A cfg.w0 cfg.q rate).a2
  | .gFb => filterCoef1 A cfg.tauFb rate
  | .gLfo => filterCoef1 A cfg.tauLfo rate
  | .gFd => filterCoef1 A cfg.tauFd rate

end Sys2Proof.Machine
end

