-- ==== Sys2Proof/Machine/Channel.lean ====
section
/-! DEFINITION. The Channel (45_channel.md): the per-sample transform `CH.PROCESS` and the command `CHPROC`. -/

namespace Sys2Proof.Machine

/-- What one channel's transform reads of the global state: the tap, the latched feedback and mix, the stage count and the
rate (R210). -/
structure ChannelInputs (N : Type) where
  cTap : N
  bFb : N
  bMix : N
  stages : Nat
  rate : N
  deriving DecidableEq, Repr

/-- The global registers that `CH.PROCESS` reads (R210). -/
def channelInputs {N : Type} (r : Regs N) : ChannelInputs N := ⟨r.cTap, r.bFb, r.bMix, r.stages, r.rate⟩

/-- `CH.PROCESS` on the state of one channel: the new state and the output sample, steps 1 to 7 of R214. -/
def channelTransform {N : Type} (A : Arith N) (cfg : Cfg N) (g : ChannelInputs N) (ch : ChannelState N) (x : N) :
    Option (ChannelState N × N) :=
  let k := chorusCoefs A cfg g.rate
  let xp := filterHp1 A ch.inS (filterCoef1 A cfg.tauIn g.rate) x
  let a := filterChorus A k ch.f1 xp.1
  match delayLine A ch.dl g.cTap a.1 g.stages with
  | none => none
  | some (dl, yd) =>
    let y := filterChorus A k ch.f2 yd
    let xfb := filterHp1 A ch.fbS (filterCoef1 A cfg.tauFb g.rate) (A.mul y.1 g.bFb)
    some
      ({ inS := xp.2, f1 := a.2, f2 := y.2, fbS := xfb.2, dlTap := g.cTap, dl := delayInject A cfg.limit dl xfb.1 },
        A.add (A.mul xp.1 (A.sub A.one g.bMix)) (A.mul y.1 g.bMix))

/-- `CH.PROCESS(c, x)` on the registers (R214). -/
def chProcess {N : Type} (A : Arith N) (cfg : Cfg N) (c : Chan) (x : N) (r : Regs N) : Option (Regs N × N) :=
  (channelTransform A cfg (channelInputs r) (getChan r c) x).map fun o => (setChan r c o.1, o.2)

/-- `CHPROC` under a configuration, its channel known (R215): readiness, then the operand, then the transform. -/
def chprocOn (cfg : Cfg Num64) (c : Chan) (f : Fmt) (sample : DataWord) (s : State) : Host.Outcome State Fault Refusal :=
  needBlock s fun s =>
    match decodeSample f sample with
    | none => .next (raise .nonFinite s)
    | some x =>
      match chProcess arithF64 cfg c x s.regs with
      | none => .fault .floorOfNonFinite
      | some (r, out) => .next (respond (encodeSample f out) 0#64 { s with regs := r })

/-- `CHPROC` under a configuration (R215); a selector above 1 is an illegal command (R286). -/
def chprocWith (cfg : Cfg Num64) (c : Selector) (f : Fmt) (sample : DataWord) (s : State) :
    Host.Outcome State Fault Refusal :=
  match chanOfSel c with
  | none => .next (raise .illegal s)
  | some c => chprocOn cfg c f sample s

/-- `CHPROC` (R215). -/
def execChproc (c : Selector) (f : Fmt) (sample : DataWord) (s : State) : Host.Outcome State Fault Refusal :=
  chprocWith design c f sample s

end Sys2Proof.Machine
end

