-- ==== Sys2Proof/Machine/Waveform.lean ====
section
/-! DEFINITION. The Waveform unit (41_waveform.md): six shapes, the shaper and the sine morph. Stateless; expression trees exactly
as the rules parenthesise them (R101). -/

namespace Sys2Proof.Machine

/-- The breakpoint `b = TWO_PI * duty` (R141). -/
def breakpoint {N : Type} (A : Arith N) (duty : N) : N := A.mul A.twoPi duty

/-- `W.TRI` (R132). -/
def waveTri {N : Type} (A : Arith N) (phase duty : N) : N :=
  let b := breakpoint A duty
  if A.lt phase b then A.add A.negOne (A.div (A.mul A.two phase) b)
  else A.sub A.one (A.div (A.mul A.two (A.sub phase b)) (A.sub A.twoPi b))

/-- `W.MSAW` (R135). -/
def waveMsaw {N : Type} (A : Arith N) (phase duty : N) : N :=
  let b := breakpoint A duty
  let bm := A.sub A.twoPi b
  if A.lt phase bm then A.sub A.one (A.div phase bm)
  else A.neg (A.div (A.sub phase bm) b)

/-- `W.CTRI` (R133). -/
def waveCtri {N : Type} (A : Arith N) (phase duty : N) : N :=
  A.sub A.one (A.mul A.two (A.abs (waveMsaw A phase duty)))

/-- `W.SAW` (R134). -/
def waveSaw {N : Type} (A : Arith N) (phase duty : N) : N :=
  let b := breakpoint A duty
  if A.lt phase b then A.add A.negOne (A.div phase b)
  else A.div (A.sub phase b) (A.sub A.twoPi b)

/-- `W.SQR` (R136). -/
def waveSqr {N : Type} (A : Arith N) (phase duty : N) : N :=
  if A.lt phase (breakpoint A duty) then A.negOne else A.one

/-- `W.MSQR` (R137). -/
def waveMsqr {N : Type} (A : Arith N) (phase duty : N) : N :=
  if A.lt (waveMsaw A phase duty) A.zero then A.negOne else A.one

/-- The domain of the shapes: `0 <= phase < TWO_PI`, `0 <= duty <= 1` (R130). -/
def waveDomain {N : Type} (A : Arith N) (phase duty : N) : Bool :=
  A.le A.zero phase && A.lt phase A.twoPi && A.le A.zero duty && A.le duty A.one

/-- The shape a selector names, 0 to 5; 6 and above select nothing (R131). -/
def waveShape {N : Type} (A : Arith N) (sel : Nat) : Option (N → N → N) :=
  match sel with
  | 0 => some (waveTri A)
  | 1 => some (waveCtri A)
  | 2 => some (waveSaw A)
  | 3 => some (waveMsaw A)
  | 4 => some (waveSqr A)
  | 5 => some (waveMsqr A)
  | _ => none

/-- `W.VALUE(sel, phase, duty)` (R138). Outside the domain of R130, and for a selector that selects nothing, the spec gives no
value: a free value (entry 6). -/
def waveValue {N : Type} (A : Arith N) (cfg : Cfg N) (sel : Nat) (phase duty : N) : N :=
  match waveShape A sel with
  | some w => if waveDomain A phase duty then w phase duty else cfg.waveOutside sel phase duty
  | none => cfg.waveOutside sel phase duty

/-- `W.SHAPE(x)` (R139). -/
def waveShaper {N : Type} (A : Arith N) (cfg : Cfg N) (x : N) : N := cfg.shapeFn (A.mul A.halfPi x)

/-- `LFO.MORPH(tri, s)` (R140). -/
def lfoMorph {N : Type} (A : Arith N) (cfg : Cfg N) (tri s : N) : N :=
  A.add (A.mul (waveShaper A cfg tri) s) (A.mul tri (A.sub A.one s))

end Sys2Proof.Machine
end

