-- ==== Sys2Proof/Machine/Oscillator.lean ====
section
/-! DEFINITION. The Oscillator (42_oscillator.md): the phase accumulator and the commands `OSTEP`, `ONEXT`, `SNAP`, `RESTORE`. -/

namespace Sys2Proof.Machine

/-- The next phase of `OSC.STEP`: `fmod(OSC_PHASE + OSC_W / RATE, TWO_PI)` (R151). -/
def nextPhase {N : Type} (A : Arith N) (phase w rate : N) : N := A.fmod (A.add phase (A.div w rate)) A.twoPi

/-- `OSC.STEP` (R151). -/
def oscStep {N : Type} (A : Arith N) (r : Regs N) : Regs N := { r with oscPhase := nextPhase A r.oscPhase r.oscW r.rate }

/-- `OSC.NEXT`: the value at the phase before the step, then the step (R152). -/
def oscNext {N : Type} (A : Arith N) (cfg : Cfg N) (r : Regs N) : Regs N × N :=
  (oscStep A r, waveValue A cfg wsel r.oscPhase r.oscDuty)

/-- `SNAP` on the registers (R155). -/
def oscSnapshot {N : Type} (r : Regs N) : Regs N := { r with oscSnap := r.oscPhase }

/-- `RESTORE` on the registers (R156). -/
def oscRestore {N : Type} (r : Regs N) : Regs N := { r with oscPhase := r.oscSnap }

/-- `OSTEP` (R153). -/
def execOstep (s : State) : Host.Outcome State Fault Refusal :=
  needRate s fun s => .next (respond 0#64 0#64 { s with regs := oscStep arithF64 s.regs })

/-- `ONEXT` under a configuration (R154). -/
def onextWith (cfg : Cfg Num64) (s : State) : Host.Outcome State Fault Refusal :=
  needRate s fun s =>
    .next (respond (oscNext arithF64 cfg s.regs).2 0#64 { s with regs := (oscNext arithF64 cfg s.regs).1 })

/-- `ONEXT` (R154). -/
def execOnext (s : State) : Host.Outcome State Fault Refusal := onextWith design s

/-- `SNAP` (R155): no readiness condition. -/
def execSnap (s : State) : Host.Outcome State Fault Refusal :=
  .next (respond s.regs.oscPhase 0#64 { s with regs := oscSnapshot s.regs })

/-- `RESTORE` (R156): no readiness condition. -/
def execRestore (s : State) : Host.Outcome State Fault Refusal :=
  .next (respond 0#64 0#64 { s with regs := oscRestore s.regs })

end Sys2Proof.Machine
end

