-- ==== Sys2Proof/Machine/Modulation.lean ====
section
/-! DEFINITION. The Cache, the modulation path and the frame (46_cache_modulation.md): `BLOCK`, `MOD`, `FRAME`. -/

namespace Sys2Proof.Machine

/-! ## Block rate -/

/-- One smoothing step of the Cache (R232). -/
def smooth {N : Type} (A : Arith N) (k current target : N) : N := A.add current (A.mul (A.sub target current) k)

/-- The stage count from the rate: `max(1, min(ifloor(RATE * T_MAX), DL_CAP))`, on unbounded integers (R234, R116). -/
def stageCount {N : Type} (A : Arith N) (cfg : Cfg N) (rate : N) : Option Nat :=
  (A.ifloor (A.mul rate cfg.tMax)).map fun i => (max 1 (min i (cfg.dlCap : Int))).toNat

/-- `CACHE.BLOCK(p0, ..., p6)` (R231): the smoothing (R232), the oscillator refresh (R233), the latched parameters (R235), the
stage count (R234), then `BLK_VALID <- 1`. -/
def cacheBlock {N : Type} (A : Arith N) (cfg : Cfg N) (ps : Params N) (r : Regs N) : Option (Regs N) :=
  (stageCount A cfg r.rate).map fun n =>
    { r with
      cDepth := smooth A cfg.kSmooth r.cDepth ps.depth
      cLen := smooth A cfg.kSmooth r.cLen ps.len
      oscW := A.mul A.twoPi ps.freq
      oscDuty := ps.duty
      bSine := ps.sine
      bFb := ps.fb
      bMix := ps.mix
      stages := n
      status := setFlag r.status .blkValid }

/-- `BLOCK`, first atomic step (R70, R230): readiness, then `ParLoad(0)`. The seven loads and the computation after them are
eight steps of CORE (entry 8); the response comes with the last. -/
def execBlock (s : State) : Host.Outcome State Fault Refusal :=
  needRate s fun s => .next { s with blk := some (.one (parLoad s.regs .sine)), resp := none }

/-- A `BLOCK` in progress after one more load. -/
def blockLoaded (b : BlockLoads) (s : State) : Host.Outcome State Fault Refusal :=
  .next { s with blk := some b, resp := none }

/-- The next atomic step of a `BLOCK` in progress, under a configuration: the next load in index order (D28), or the computation
on the seven loaded values and the response (R230). -/
def blockResumeWith (cfg : Cfg Num64) (b : BlockLoads) (s : State) : Host.Outcome State Fault Refusal :=
  match b with
  | .one p0 => blockLoaded (.two p0 (parLoad s.regs .freq)) s
  | .two p0 p1 => blockLoaded (.three p0 p1 (parLoad s.regs .duty)) s
  | .three p0 p1 p2 => blockLoaded (.four p0 p1 p2 (parLoad s.regs .len)) s
  | .four p0 p1 p2 p3 => blockLoaded (.five p0 p1 p2 p3 (parLoad s.regs .depth)) s
  | .five p0 p1 p2 p3 p4 => blockLoaded (.six p0 p1 p2 p3 p4 (parLoad s.regs .fb)) s
  | .six p0 p1 p2 p3 p4 p5 => blockLoaded (.seven p0 p1 p2 p3 p4 p5 (parLoad s.regs .mix)) s
  | .seven p0 p1 p2 p3 p4 p5 p6 =>
    match cacheBlock arithF64 cfg ⟨p0, p1, p2, p3, p4, p5, p6⟩ s.regs with
    | none => .fault .floorOfNonFinite
    | some r => .next (respond (intResult r.stages) 0#64 { s with regs := r, blk := none })

/-- The next atomic step of a `BLOCK` in progress (R70, R230). -/
def blockResume (b : BlockLoads) (s : State) : Host.Outcome State Fault Refusal := blockResumeWith design b s

/-! ## Sample rate -/

/-- `MOD.TAP` (R238): the new registers, with `C_TAP` among them, and `lfo`. -/
def modTap {N : Type} (A : Arith N) (cfg : Cfg N) (r : Regs N) : Regs N × N :=
  let tri := oscNext A cfg r
  let lfo := lfoMorph A cfg tri.2 r.bSine
  let m := filterLp1 A r.lfoS (filterCoef1 A cfg.tauLfo r.rate) (A.mul lfo r.cDepth)
  let n := A.add (A.mul A.half m.1) A.half
  let hi := A.num ((r.stages : Int) - 1)
  let tgt := A.mul (A.mul r.cLen hi) n
  let t := filterLp1 A r.fdS (filterCoef1 A cfg.tauFd r.rate) tgt
  ({ tri.1 with lfoS := m.2, fdS := t.2, cTap := A.clamp t.1 A.zero hi }, lfo)

/-- `MOD` under a configuration (R239). -/
def modWith (cfg : Cfg Num64) (s : State) : Host.Outcome State Fault Refusal :=
  needBlock s fun s =>
    let o := modTap arithF64 cfg s.regs
    .next (respond o.1.cTap o.2 { s with regs := o.1 })

/-- `MOD` (R239). -/
def execMod (s : State) : Host.Outcome State Fault Refusal := modWith design s

/-! ## One sample index across the channels -/

/-- Steps 1 to 3 of `FRAME` (R244): the shared tap, then channel 0, then channel 1; the new registers and the two samples. -/
def frameRegs {N : Type} (A : Arith N) (cfg : Cfg N) (x0 x1 : N) (r : Regs N) : Option (Regs N × N × N) :=
  match chProcess A cfg .zero x0 (modTap A cfg r).1 with
  | none => none
  | some (r0, out0) =>
    match chProcess A cfg .one x1 r0 with
    | none => none
    | some (r1, out1) => some (r1, out0, out1)

/-- `FRAME` under a configuration (R244): readiness, then both operands, then the three steps. -/
def frameWith (cfg : Cfg Num64) (f : Fmt) (sample0 sample1 : DataWord) (s : State) : Host.Outcome State Fault Refusal :=
  needBlock s fun s =>
    match decodeSample f sample0, decodeSample f sample1 with
    | some x0, some x1 =>
      match frameRegs arithF64 cfg x0 x1 s.regs with
      | none => .fault .floorOfNonFinite
      | some (r, out0, out1) => .next (respond (encodeSample f out0) (encodeSample f out1) { s with regs := r })
    | _, _ => .next (raise .nonFinite s)

/-- `FRAME` (R244). -/
def execFrame (f : Fmt) (sample0 sample1 : DataWord) (s : State) : Host.Outcome State Fault Refusal :=
  frameWith design f sample0 sample1 s

end Sys2Proof.Machine
end

