-- ==== Sys2Proof/Machine/Observe.lean ====
section
/-! DEFINITION. The observation commands `RDST` (R261) and `RDDL` (R172). -/

namespace Sys2Proof.Machine

/-- The value of a per-channel register as a result word (R38, R86). -/
def chanRegValue (ch : ChannelState Num64) : ChanReg → DataWord
  | .inS => ch.inS
  | .f1HpS => ch.f1.hpS
  | .f1LpS => ch.f1.lpS
  | .f1Z1 => ch.f1.z1
  | .f1Z2 => ch.f1.z2
  | .f2HpS => ch.f2.hpS
  | .f2LpS => ch.f2.lpS
  | .f2Z1 => ch.f2.z1
  | .f2Z2 => ch.f2.z2
  | .fbS => ch.fbS
  | .dlTap => ch.dlTap
  | .dlN => intResult ch.dl.length

/-- The value of a register as a result word, under a configuration (R38, R86, R261). `RATE` reads `+0` while `RATE_VALID = 0`
(R23), the reserved bits of `STATUS` read 0 (R37), `WSEL` reads 0 (R33). -/
def regValue (cfg : Cfg Num64) (r : Regs Num64) : RegName → DataWord
  | .par p => parLoad r p
  | .rate => if rateValid r then r.rate else F64.zero
  | .stages => intResult r.stages
  | .cDepth => r.cDepth
  | .cLen => r.cLen
  | .cTap => r.cTap
  | .bSine => r.bSine
  | .bFb => r.bFb
  | .bMix => r.bMix
  | .oscW => r.oscW
  | .oscDuty => r.oscDuty
  | .oscPhase => r.oscPhase
  | .oscSnap => r.oscSnap
  | .wsel => intResult wsel
  | .lfoS => r.lfoS
  | .fdS => r.fdS
  | .status => statusResult (r.status &&& namedStatusBits)
  | .coef k => coefValue arithF64 cfg r.rate k
  | .chan c k => chanRegValue (getChan r c) k

/-- Registers that have a value only while `RATE_VALID = 1` (R36, R261). -/
def needsRate : RegName → Bool
  | .coef _ => true
  | _ => false

/-- `RDST` under a configuration (R261): a number outside the map is an illegal command (R286), a coefficient needs a rate. -/
def rdstWith (cfg : Cfg Num64) (r : Selector) (s : State) : Host.Outcome State Fault Refusal :=
  match regOfSel r with
  | none => .next (raise .illegal s)
  | some n =>
    if needsRate n then needRate s fun s => .next (respond (regValue cfg s.regs n) 0#64 s)
    else .next (respond (regValue cfg s.regs n) 0#64 s)

/-- `RDST` (R261). -/
def execRdst (r : Selector) (s : State) : Host.Outcome State Fault Refusal := rdstWith design r s

/-- `RDDL` (R172): cell `index` of the line, `+0` beyond it, and the line's size. -/
def execRddl (c : Selector) (index : DataWord) (s : State) : Host.Outcome State Fault Refusal :=
  match chanOfSel c with
  | none => .next (raise .illegal s)
  | some c =>
    .next (respond (dlRead arithF64 (getChan s.regs c).dl (index.toNat : Int))
      (intResult (getChan s.regs c).dl.length) s)

end Sys2Proof.Machine
end

