-- ==== Sys2Proof/Machine/Dispatch.lean ====
section
/-! DEFINITION. One arm per command, each one direct call of its meaning. -/

namespace Sys2Proof.Machine

def exec (i : Instr) (s : State) : Host.Outcome State Fault Refusal :=
  match i with
  | .init => Sys2Proof.Machine.execInit s
  | .setrate rate => Sys2Proof.Machine.execSetrate rate s
  | .wrpar p value => Sys2Proof.Machine.execWrpar p value s
  | .rdpar p => Sys2Proof.Machine.execRdpar p s
  | .block => Sys2Proof.Machine.execBlock s
  | .mod => Sys2Proof.Machine.execMod s
  | .chproc c f sample => Sys2Proof.Machine.execChproc c f sample s
  | .frame f sample0 sample1 => Sys2Proof.Machine.execFrame f sample0 sample1 s
  | .ostep => Sys2Proof.Machine.execOstep s
  | .onext => Sys2Proof.Machine.execOnext s
  | .snap => Sys2Proof.Machine.execSnap s
  | .restore => Sys2Proof.Machine.execRestore s
  | .rdst r => Sys2Proof.Machine.execRdst r s
  | .rddl c index => Sys2Proof.Machine.execRddl c index s

end Sys2Proof.Machine
end

