-- ==== Sys2Proof/WellFormed.lean ====
section
/-! DEFINITION. Which terms of `Instr` are well-formed commands: the selector ranges of R88 and R90. -/

namespace Sys2Proof

/-- A parameter index is 0 to 6 (R89, R90). -/
def isParamSel (p : Selector) : Bool := decide (p.toNat ≤ 6)

/-- A channel number is 0 or 1 (R89, R90). -/
def isChanSel (c : Selector) : Bool := decide (c.toNat ≤ 1)

/-- The numbers of the register map: the table of R38. R286 lists the complement. -/
def isRegSel (r : Selector) : Bool :=
  let n := r.toNat
  decide (n ≤ 0x06) || (decide (0x08 ≤ n) && decide (n ≤ 0x16)) || decide (n = 0x18) ||
    (decide (0x20 ≤ n) && decide (n ≤ 0x28)) || (decide (0x40 ≤ n) && decide (n ≤ 0x4B)) ||
    (decide (0x50 ≤ n) && decide (n ≤ 0x5B))

/-- A well-formed command of R88: its selector is inside the range its row gives. -/
def Instr.wellFormed : Instr → Bool
  | .init => true
  | .setrate _ => true
  | .wrpar p _ => isParamSel p
  | .rdpar p => isParamSel p
  | .block => true
  | .mod => true
  | .chproc c _ _ => isChanSel c
  | .frame _ _ _ => true
  | .ostep => true
  | .onext => true
  | .snap => true
  | .restore => true
  | .rdst r => isRegSel r
  | .rddl c _ => isChanSel c

end Sys2Proof
end

