-- ==== Sys2Proof/Decode.lean ====
section
/-! DEFINITION. The decoder of R91, total on every word of either port, and after it the encoder of R82, R83, R88. -/

namespace Sys2Proof

/-- Why a word is illegal, by the step of R91 that finds it. Every one of them has the same response, `E_ILLEGAL` (R90). -/
inductive Illegal where
  /-- Step (1): a reserved bit of `z`, bits 15:1, is not 0. -/
  | reservedBits
  /-- Step (2): the opcode is unassigned. -/
  | opcode
  /-- Step (2): the port does not accept the opcode (R81). -/
  | port
  /-- Step (3): `f = 1` on a command whose format is not F. -/
  | formatFlag
  /-- Step (4): the selector is outside the command's range. -/
  | selector
  deriving DecidableEq, Repr

/-- Field `op`, bits 31:24 (R82). -/
def opField (cmd : CmdWord) : BitVec 8 := cmd.extractLsb' 24 8

/-- Field `a`, bits 23:16 (R82). -/
def aField (cmd : CmdWord) : Selector := cmd.extractLsb' 16 8

/-- Field `z`, bits 15:1 (R82). -/
def zField (cmd : CmdWord) : BitVec 15 := cmd.extractLsb' 1 15

/-- Field `f`, bit 0 (R82). -/
def fField (cmd : CmdWord) : BitVec 1 := cmd.extractLsb' 0 1

/-- The control port accepts only `WRPAR` and `RDPAR`; the audio port accepts every command (R81). -/
def portAccepts (p : Port) (op : BitVec 8) : Bool :=
  match p with
  | .audio => true
  | .control => op == 0x03#8 || op == 0x04#8

/-- The format that flag `f` selects (R82). -/
def fmtOf (f : BitVec 1) : Fmt := if f = 1#1 then .binary32 else .binary64

/-- A command of format N: `f` must be 0 (R91 step 3), `a` must be 0 (step 4). -/
def formatN (cmd : CmdWord) (i : Instr) : Except Illegal Instr :=
  if fField cmd ≠ 0#1 then .error .formatFlag
  else if aField cmd ≠ 0#8 then .error .selector
  else .ok i

/-- A command of format S: `f` must be 0 (R91 step 3), the selector inside its range (step 4). -/
def formatS (cmd : CmdWord) (range : Selector → Bool) (i : Instr) : Except Illegal Instr :=
  if fField cmd ≠ 0#1 then .error .formatFlag
  else if range (aField cmd) then .ok i
  else .error .selector

/-- A command of format F: the selector inside its range (R91 step 4); `f` is free (R83). -/
def formatF (cmd : CmdWord) (range : Selector → Bool) (i : Instr) : Except Illegal Instr :=
  if range (aField cmd) then .ok i else .error .selector

/-- Decoding of one command on one port (R91). The operand words are only carried along: no check reads them. -/
def decode (p : Port) (cmd : CmdWord) (d0 d1 : DataWord) : Except Illegal Instr :=
  if zField cmd ≠ 0#15 then .error .reservedBits
  else
    let op := opField cmd
    let a := aField cmd
    if !portAccepts p op then .error .port
    else if op = 0x01#8 then formatN cmd .init
    else if op = 0x02#8 then formatN cmd (.setrate d0)
    else if op = 0x03#8 then formatS cmd isParamSel (.wrpar a d0)
    else if op = 0x04#8 then formatS cmd isParamSel (.rdpar a)
    else if op = 0x05#8 then formatN cmd .block
    else if op = 0x06#8 then formatN cmd .mod
    else if op = 0x07#8 then formatF cmd isChanSel (.chproc a (fmtOf (fField cmd)) d0)
    else if op = 0x08#8 then formatF cmd (fun a => a == 0#8) (.frame (fmtOf (fField cmd)) d0 d1)
    else if op = 0x09#8 then formatN cmd .ostep
    else if op = 0x0A#8 then formatN cmd .onext
    else if op = 0x0B#8 then formatN cmd .snap
    else if op = 0x0C#8 then formatN cmd .restore
    else if op = 0x0D#8 then formatS cmd isRegSel (.rdst a)
    else if op = 0x0E#8 then formatS cmd isChanSel (.rddl a d0)
    else .error .opcode

/-- The command word with fields `op`, `a`, `z = 0` and `f` (R82). -/
def cmdWord (op : BitVec 8) (a : Selector) (f : BitVec 1) : CmdWord := op ++ a ++ 0#15 ++ f

/-- The flag that selects a sample format (R82). -/
def fBit : Fmt → BitVec 1
  | .binary64 => 0#1
  | .binary32 => 1#1

/-- The words of one command: `CMD`, `D0`, `D1` (R80). -/
structure Words where
  cmd : CmdWord
  d0 : DataWord
  d1 : DataWord
  deriving DecidableEq, Repr

/-- The words of a command (R83, R88). An operand word the command does not use may hold anything (R84); the encoder
sends 0 there. -/
def encode : Instr → Words
  | .init => ⟨cmdWord 0x01#8 0#8 0#1, 0#64, 0#64⟩
  | .setrate r => ⟨cmdWord 0x02#8 0#8 0#1, r, 0#64⟩
  | .wrpar p v => ⟨cmdWord 0x03#8 p 0#1, v, 0#64⟩
  | .rdpar p => ⟨cmdWord 0x04#8 p 0#1, 0#64, 0#64⟩
  | .block => ⟨cmdWord 0x05#8 0#8 0#1, 0#64, 0#64⟩
  | .mod => ⟨cmdWord 0x06#8 0#8 0#1, 0#64, 0#64⟩
  | .chproc c f x => ⟨cmdWord 0x07#8 c (fBit f), x, 0#64⟩
  | .frame f x0 x1 => ⟨cmdWord 0x08#8 0#8 (fBit f), x0, x1⟩
  | .ostep => ⟨cmdWord 0x09#8 0#8 0#1, 0#64, 0#64⟩
  | .onext => ⟨cmdWord 0x0A#8 0#8 0#1, 0#64, 0#64⟩
  | .snap => ⟨cmdWord 0x0B#8 0#8 0#1, 0#64, 0#64⟩
  | .restore => ⟨cmdWord 0x0C#8 0#8 0#1, 0#64, 0#64⟩
  | .rdst r => ⟨cmdWord 0x0D#8 r 0#1, 0#64, 0#64⟩
  | .rddl c i => ⟨cmdWord 0x0E#8 c 0#1, i, 0#64⟩

/-- The port on which the spec's own host issues a command: any command may come on the audio port (R81). -/
def decodeAudio (w : Words) : Except Illegal Instr := decode .audio w.cmd w.d0 w.d1

/-- The words whose bits are `w`, of which only the low `nbits` count: bits 31:0 are `CMD`, bits 95:32 `D0`, bits 159:96
`D1`. A port carries whole words, so no byte order enters (R63). -/
def wordsOfBits (nbits w : Nat) : Words :=
  let v := w % 2 ^ nbits
  ⟨BitVec.ofNat 32 v, BitVec.ofNat 64 (v / 2 ^ 32), BitVec.ofNat 64 (v / 2 ^ 96)⟩

/-- The instruction the decoder reads, on the audio port, from an instruction whose bits are `w`. -/
def decodeTableWord (nbits w : Nat) : Option Instr :=
  match decodeAudio (wordsOfBits nbits w) with
  | .ok i => some i
  | .error _ => none

end Sys2Proof
end

