-- ==== Sys2Proof/Machine/Fetch.lean ====
section
/-! DEFINITION. How a command comes from a port to its meaning and its response back (R80, R81), with the meanings of the decoded
commands as an argument: `Machine/Step.lean` supplies `exec`. -/

namespace Sys2Proof.Machine

/-- The meanings of decoded commands. -/
abbrev Meaning := Instr → State → Host.Outcome State Fault Refusal

/-- One command word of a port: decoded and run, or answered with `E_ILLEGAL` (R90, R91, R292). -/
def runCommand (run : Meaning) (p : Port) (w : PortCommand) (s : State) : Host.Outcome State Fault Refusal :=
  match decode p w.cmd w.d0 w.d1 with
  | .error _ => .next (raise .illegal s)
  | .ok i => run i s

/-- A next state whose response goes to the port the command came from. -/
def answerOn (p : Port) (o : Host.Outcome State Fault Refusal) : Host.Outcome State Fault Refusal :=
  match o with
  | .next t => .next (deliver p t)
  | .fault e => .fault e
  | .refused r => .refused r

/-- A port takes its next command; with none presented it is idle and all state is kept (R81, R302, entry 9). -/
def takeCommand (run : Meaning) (p : Port) (s : State) : Host.Outcome State Fault Refusal :=
  match (getPort s p).waiting with
  | [] => .next s
  | w :: ws => answerOn p (runCommand run p w (setPort s p ⟨ws, (getPort s p).answered⟩))

/-- One step of an agent. CORE goes on with a `BLOCK` in progress before it takes another command (R69 M1, R70). -/
def agentStep (run : Meaning) (a : Agent) (s : State) : Host.Outcome State Fault Refusal :=
  match a, s.blk with
  | .core, some b => answerOn .audio (blockResume b s)
  | .core, none => takeCommand run .audio s
  | .hostctl, _ => takeCommand run .control s

/-- One step of the machine: the agent the host's interleaving names next; with none named nothing moves (R69 M3, entry 9). -/
def stepWith (run : Meaning) (s : State) : Host.Outcome State Fault Refusal :=
  match s.sched with
  | [] => .next s
  | a :: rest => agentStep run a { s with sched := rest }

/-- The command whose bits are `w`, as the host presents it. -/
def commandOfBits (nbits w : Nat) : PortCommand :=
  ⟨(wordsOfBits nbits w).cmd, (wordsOfBits nbits w).d0, (wordsOfBits nbits w).d1⟩

/-- The host presents a command on the audio port, ahead of those waiting, and gives CORE the next step; no `BLOCK` is in
progress, so that step takes the command. -/
def present (w : PortCommand) (s : State) : State :=
  { s with blk := none, audio := ⟨w :: s.audio.waiting, s.audio.answered⟩, sched := .core :: s.sched }

end Sys2Proof.Machine
end

