-- ==== Sys2Proof/Machine/Step.lean ====
section
/-! DEFINITION. One step of the machine, and the placing of a command where the next step takes it. -/

namespace Sys2Proof.Machine

/-- One step of the machine (R7, R69). -/
def step (s : State) : Host.Outcome State Fault Refusal := stepWith exec s

/-- The machine with the command whose bits are `w` presented on the audio port, to be taken by the next step (entry 7). -/
def State.withFetchWord (s : State) (nbits w : Nat) : State := present (commandOfBits nbits w) s

end Sys2Proof.Machine
end

