-- ==== Sys2Proof/Machine/ArithReal.lean ====
section
/-! DEFINITION. `Arith_real`, the reference instance of R106: the real numbers, every operator exact. The machine never runs on
it; it is the instance in which the source's testable properties are stated, over the same expression trees. -/

namespace Sys2Proof

/-- `fmod` on the reals outside the domain of R105: a free value, as in `Arith_f64` (entry 5). -/
noncomputable opaque Config.freeFmodReal : ℝ → ℝ → ℝ

/-- The quotient of a real number by zero. DESIGN CHOICE: R106 makes every operator exact and gives this one no value; it is free
(entry 29). -/
noncomputable opaque Config.freeDivReal : ℝ → ℝ

/-- `a / b` on the reals: exact, and a free value for `b = 0` (R106, entry 29). -/
noncomputable def divReal (a b : ℝ) : ℝ := if b = 0 then Config.freeDivReal a else a / b

/-- `fmod(a, b) = a - b * k`, `k` the largest integer with `b * k <= a`, for `a >= 0` and `b > 0` (R105). -/
noncomputable def fmodReal (a b : ℝ) : ℝ :=
  if 0 ≤ a ∧ 0 < b then a - b * (⌊a / b⌋ : ℝ) else Config.freeFmodReal a b

/-- `Arith_real` (R106): every value is finite, `PI`, `TWO_PI`, `HALF_PI` are exactly π, 2π, π/2. -/
noncomputable def arithReal : Arith ℝ where
  add a b := a + b
  sub a b := a - b
  mul a b := a * b
  div := divReal
  neg a := -a
  abs a := |a|
  lt a b := decide (a < b)
  le a b := decide (a ≤ b)
  isFinite _ := true
  fmod := fmodReal
  ifloor a := some ⌊a⌋
  num i := (i : ℝ)
  zero := 0
  half := 1 / 2
  one := 1
  two := 2
  negOne := -1
  pi := Real.pi
  twoPi := 2 * Real.pi
  halfPi := Real.pi / 2

end Sys2Proof
end

