-- ==== Sys2Proof/Machine/HostMap.lean ====
section
/-! DEFINITION. The host's side of the interface: the mapping between normalized and engineering values (R270 to R275), the effect
of a preset load on the core (R276, R297), and the pseudo-instructions (R94). The core evaluates none of it (R114). -/

namespace Sys2Proof.Machine

/-- The host's own functions and constants (R8, R114): ideal values 2^x, log2 x, x^4, x^(1/4). -/
structure HostFns (N : Type) where
  exp2 : N → N
  log2 : N → N
  pow4 : N → N
  root4 : N → N
  fMin : N
  fMax : N

/-- `F_MIN` and `F_MAX` inside their constraint `0 < F_MIN < F_MAX` (R8). -/
def freqEnds : Num64 × Num64 :=
  if F64.lt F64.zero Config.rawFMin && F64.lt Config.rawFMin Config.rawFMax then (Config.rawFMin, Config.rawFMax)
  else (F64.one, F64.two)

/-- The functions of a binary64 host: open (R114). -/
def hostF64 : HostFns Num64 where
  exp2 := Config.hostExp2
  log2 := Config.hostLog2
  pow4 := Config.hostPow4
  root4 := Config.hostRoot4
  fMin := freqEnds.1
  fMax := freqEnds.2

/-- The base-2 logarithm of a real number that is not above 0. DESIGN CHOICE: R114 gives it no ideal value; it is free (entry 31). -/
noncomputable opaque freeLog2Real : ℝ → ℝ

/-- The fourth root of a negative real number. DESIGN CHOICE: R114 gives it no ideal value; it is free (entry 31). -/
noncomputable opaque freeRoot4Real : ℝ → ℝ

/-- `log2 x` on the reals (R114), free for `x <= 0` (entry 31). -/
noncomputable def log2Real (x : ℝ) : ℝ := if 0 < x then Real.logb 2 x else freeLog2Real x

/-- `x^(1/4)` on the reals (R114), free for `x < 0` (entry 31). -/
noncomputable def root4Real (x : ℝ) : ℝ := if 0 ≤ x then x ^ (1 / 4 : ℝ) else freeRoot4Real x

/-- The ideal functions on the reals (R114), for given ends of the frequency mapping; free where an ideal function has no value
(entry 31). -/
noncomputable def hostReal (fMin fMax : ℝ) : HostFns ℝ where
  exp2 x := (2 : ℝ) ^ x
  log2 := log2Real
  pow4 x := x ^ 4
  root4 := root4Real
  fMin := fMin
  fMax := fMax

/-- `fwd_p`: a normalized value to the engineering value (R271 to R274). -/
def forwardMap {N : Type} (A : Arith N) (h : HostFns N) (p : Param) (v : N) : N :=
  match p with
  | .sine | .duty | .depth | .mix => v
  | .freq => h.exp2 (A.add (A.mul v (A.sub (h.log2 h.fMax) (h.log2 h.fMin))) (h.log2 h.fMin))
  | .len => h.pow4 v
  | .fb => A.sub (A.mul v A.two) A.one

/-- `inv_p`: an engineering value back to the normalized value (R271 to R274). -/
def inverseMap {N : Type} (A : Arith N) (h : HostFns N) (p : Param) (e : N) : N :=
  match p with
  | .sine | .duty | .depth | .mix => e
  | .freq => A.div (A.sub (h.log2 e) (h.log2 h.fMin)) (A.sub (h.log2 h.fMax) (h.log2 h.fMin))
  | .len => h.root4 e
  | .fb => A.div (A.add e A.one) A.two

/-- The selector of a parameter (R89). -/
def selOfParam : Param → Selector
  | .sine => 0#8
  | .freq => 1#8
  | .duty => 2#8
  | .len => 3#8
  | .depth => 4#8
  | .fb => 5#8
  | .mix => 6#8

/-- The parameters in index order (R22). -/
def allParams : List Param := [.sine, .freq, .duty, .len, .depth, .fb, .mix]

/-- `PBLOCK (l0, r0), ..., (lk, rk)`: `BLOCK`, then one `FRAME` per pair (R94, R246). -/
def pseudoPblock (samples : List (Num64 × Num64)) : List Instr :=
  .block :: samples.map fun x => .frame .binary64 x.1 x.2

/-- `WRNORM <pname>, <v>`: `WRPAR` of the forward mapping (R94, R270). -/
def pseudoWrnorm (h : HostFns Num64) (p : Param) (v : Num64) : List Instr :=
  [.wrpar (selOfParam p) (forwardMap arithF64 h p v)]

/-- `SETFREQ <hz>`: `WRPAR FREQ, <hz>` (R94). -/
def pseudoSetfreq (hz : Num64) : List Instr := [.wrpar (selOfParam .freq) hz]

/-- `BOOT <rate>`: `INIT` then `SETRATE <rate>` (R94). -/
def pseudoBoot (rate : Num64) : List Instr := [.init, .setrate rate]

/-- What reaches the core of a preset load: seven `WRPAR`, a missing field written with its default, or, when the load failed
(none), no command at all (R276, R297). -/
def presetLoad (cfg : Cfg Num64) (preset : Option (Param → Option Num64)) : List Instr :=
  match preset with
  | none => []
  | some fields => allParams.map fun p => .wrpar (selOfParam p) ((fields p).getD (getParam cfg.pDef p))

end Sys2Proof.Machine
end

