-- ==== Sys2Proof/Safety.lean ====
section
/-! DEFINITION. What a good state is (R41), and what a safe step is. -/

namespace Sys2Proof.Machine

/-- The delay lines hold no more than the capacity (R35, R74): a line is a sequence, so this is all its canonical form asks
(entry 12). -/
def Memory.wf {N : Type} (cap : Nat) (r : Regs N) : Bool :=
  decide (r.ch0.dl.length ≤ cap) && decide (r.ch1.dl.length ≤ cap)

/-- The values a `BLOCK` in progress has loaded, with their parameters. -/
def loadedValues : BlockLoads → List (Param × Num64)
  | .one a => [(.sine, a)]
  | .two a b => [(.sine, a), (.freq, b)]
  | .three a b c => [(.sine, a), (.freq, b), (.duty, c)]
  | .four a b c d => [(.sine, a), (.freq, b), (.duty, c), (.len, d)]
  | .five a b c d e => [(.sine, a), (.freq, b), (.duty, c), (.len, d), (.depth, e)]
  | .six a b c d e f => [(.sine, a), (.freq, b), (.duty, c), (.len, d), (.depth, e), (.fb, f)]
  | .seven a b c d e f g => [(.sine, a), (.freq, b), (.duty, c), (.len, d), (.depth, e), (.fb, f), (.mix, g)]

/-- The invariants of R41 that hold of every state the machine reaches, whatever the arithmetic does: those about the phase and
the tap hold only while no value is infinite or a NaN (R110) and are stated of the operations that write them. -/
structure Inv (cfg : Cfg Num64) (s : State) : Prop where
  /-- The reserved bits of `STATUS` are 0 (R37). -/
  reserved : s.regs.status &&& ~~~namedStatusBits = 0#16
  /-- I2. -/
  stages_pos : 1 ≤ s.regs.stages
  stages_le : s.regs.stages ≤ cfg.dlCap
  /-- I3, first half. -/
  memory : Memory.wf cfg.dlCap s.regs = true
  /-- I5. -/
  params : ∀ p, arithF64.isLegal p (parLoad s.regs p) = true
  /-- I6. -/
  rate : rateValid s.regs = true → arithF64.isPositive s.regs.rate = true
  /-- R23: without a valid rate the register holds `+0`. -/
  noRate : rateValid s.regs = false → s.regs.rate = 0#64
  /-- I7. -/
  blkRate : blkValid s.regs = true → rateValid s.regs = true
  /-- The latched copies are legal values of their parameters (R27, R29, R235, R233). -/
  latchedSine : arithF64.isLegal .sine s.regs.bSine = true
  latchedFb : arithF64.isLegal .fb s.regs.bFb = true
  latchedMix : arithF64.isLegal .mix s.regs.bMix = true
  latchedDuty : arithF64.isLegal .duty s.regs.oscDuty = true
  /-- A `BLOCK` in progress has a rate, and what it loaded is legal (R70, R230). -/
  blkReady : s.blk.isSome = true → rateValid s.regs = true
  loaded : ∀ b, s.blk = some b → ∀ pv ∈ loadedValues b, arithF64.isLegal pv.1 pv.2 = true

/-- I1: the phase is reduced (R30, R41). -/
def phaseReduced {N : Type} (A : Arith N) (r : Regs N) : Bool := A.le A.zero r.oscPhase && A.lt r.oscPhase A.twoPi

/-- I4: the tap is inside the line (R26, R41). -/
def tapInside {N : Type} (A : Arith N) (r : Regs N) : Bool :=
  A.le A.zero r.cTap && A.le r.cTap (A.num ((r.stages : Int) - 1))

/-- A step that neither faults nor refuses. -/
def stepsOn (s : State) : Bool :=
  match step s with
  | .next _ => true
  | .fault _ => false
  | .refused _ => false

end Sys2Proof.Machine
end

