-- ==== Sys2Proof/Certificates/Slice0/Obligations.lean ====
section
/-! DEFINITION. The statements about the machine. Each docstring names the rule of spec/ it formalises, or says that the statement
is the model's own and names the log entry. -/

open Sys2Proof Sys2Proof.Machine

/-! ## Encoding (30_encoding.md) -/

/-- Words written out from the encodings of R82 and R88 decode to the commands they stand for. -/
def Obligations.WrittenWordsDecode : Prop :=
  ∀ d0 d1 : DataWord,
    decode .audio 0x01000000#32 d0 d1 = .ok .init ∧
    decode .audio 0x02000000#32 d0 d1 = .ok (.setrate d0) ∧
    decode .control 0x03050000#32 d0 d1 = .ok (.wrpar 5#8 d0) ∧
    decode .control 0x04020000#32 d0 d1 = .ok (.rdpar 2#8) ∧
    decode .audio 0x05000000#32 d0 d1 = .ok .block ∧
    decode .audio 0x07010001#32 d0 d1 = .ok (.chproc 1#8 .binary32 d0) ∧
    decode .audio 0x08000000#32 d0 d1 = .ok (.frame .binary64 d0 d1) ∧
    decode .audio 0x0D5B0000#32 d0 d1 = .ok (.rdst 0x5B#8) ∧
    decode .audio 0x0E010000#32 d0 d1 = .ok (.rddl 1#8 d0)

/-- Decode and encode agree: the words of every well-formed command decode to it, with every operand at every value. -/
def Obligations.DecodeInvertsEncode : Prop :=
  ∀ i : Instr, i.wellFormed = true → decodeAudio (encode i) = .ok i

/-- No bit of a command word is dropped: a word that decodes, on either port, is the word of the command it decodes to, and that
command is well-formed. -/
def Obligations.EncodeInvertsDecode : Prop :=
  ∀ (p : Port) (cmd : CmdWord) (d0 d1 : DataWord) (i : Instr), decode p cmd d0 d1 = .ok i →
    i.wellFormed = true ∧ (encode i).cmd = cmd ∧ decode .audio (encode i).cmd d0 d1 = .ok i

/-- R90: the illegal words are exactly those listed, and one raises `E_ILLEGAL`: it changes no state but the sticky flag and returns
two zero words. The register numbers outside the map are those R286 lists. -/
def Obligations.IllegalWords : Prop :=
  (∀ (p : Port) (cmd : CmdWord) (d0 d1 : DataWord),
    (∃ e, decode p cmd d0 d1 = .error e) ↔
      (let op := (cmd.extractLsb' 24 8).toNat
       let a := (cmd.extractLsb' 16 8).toNat
       let f := cmd.extractLsb' 0 1
       (op = 0 ∨ 0x0F ≤ op) ∨
       cmd.extractLsb' 1 15 ≠ 0#15 ∨
       (f = 1#1 ∧ op ≠ 0x07 ∧ op ≠ 0x08) ∨
       (a ≠ 0 ∧ op ∈ [0x01, 0x02, 0x05, 0x06, 0x08, 0x09, 0x0A, 0x0B, 0x0C]) ∨
       (6 < a ∧ op ∈ [0x03, 0x04]) ∨
       (1 < a ∧ op ∈ [0x07, 0x0E]) ∨
       (op = 0x0D ∧ (a = 0x07 ∨ a = 0x17 ∨ (0x19 ≤ a ∧ a ≤ 0x1F) ∨ (0x29 ≤ a ∧ a ≤ 0x3F) ∨ (0x4C ≤ a ∧ a ≤ 0x4F) ∨
         0x5C ≤ a)) ∨
       (p = .control ∧ op ≠ 0x03 ∧ op ≠ 0x04))) ∧
  (∀ (p : Port) (w : PortCommand) (e : Illegal) (s : State), decode p w.cmd w.d0 w.d1 = .error e →
    runCommand exec p w s =
      .next { s with
        regs := { s.regs with status := s.regs.status ||| 0x0100#16 }
        resp := some ⟨1#8, 0#64, 0#64⟩ })

/-- Decoding never looks at the operand words (R91), and an operand word a command does not use does not reach it (R84). -/
def Obligations.OperandWordsDoNotDecode : Prop :=
  (∀ (p : Port) (cmd : CmdWord) (d0 d1 e0 e1 : DataWord) (e : Illegal),
    decode p cmd d0 d1 = .error e ↔ decode p cmd e0 e1 = .error e) ∧
  (∀ (p : Port) (cmd : CmdWord) (d0 d1 e0 e1 : DataWord) (i j : Instr),
    decode p cmd d0 d1 = .ok i → decode p cmd e0 e1 = .ok j →
    match i with
    | .init | .block | .mod | .ostep | .onext | .snap | .restore => j = i
    | .setrate r => r = d0 ∧ j = .setrate e0
    | .wrpar q v => v = d0 ∧ j = .wrpar q e0
    | .rdpar q => j = .rdpar q
    | .chproc c f x => x = d0 ∧ j = .chproc c f e0
    | .frame f x0 x1 => x0 = d0 ∧ x1 = d1 ∧ j = .frame f e0 e1
    | .rdst r => j = .rdst r
    | .rddl c k => k = d0 ∧ j = .rddl c e0)

/-- R81 on decoding: the control port accepts `WRPAR` and `RDPAR`, as the audio port decodes them, and nothing else. -/
def Obligations.ControlPortAcceptsParameterAccess : Prop :=
  ∀ (cmd : CmdWord) (d0 d1 : DataWord) (i : Instr),
    decode .control cmd d0 d1 = .ok i ↔
      decode .audio cmd d0 d1 = .ok i ∧ ((∃ p v, i = .wrpar p v) ∨ ∃ p, i = .rdpar p)

/-! ## Steps and ports -/

/-- A step of CORE with no `BLOCK` in progress, or of HOSTCTL at any time, takes the next command of its port, runs the instruction it
decodes to, and the port takes the response. The order of the agents and the waiting lists are the model's (log entry 7). -/
def Obligations.StepRunsDecodedInstruction : Prop :=
  ∀ (s : State) (rest : List Agent) (w : PortCommand) (ws : List PortCommand) (i : Instr),
    (s.sched = .core :: rest → s.blk = none → s.audio.waiting = w :: ws → decode .audio w.cmd w.d0 w.d1 = .ok i →
      step s = answerOn .audio (exec i { s with sched := rest, audio := ⟨ws, s.audio.answered⟩ })) ∧
    (s.sched = .hostctl :: rest → s.control.waiting = w :: ws → decode .control w.cmd w.d0 w.d1 = .ok i →
      step s = answerOn .control (exec i { s with sched := rest, control := ⟨ws, s.control.answered⟩ }))

/-- Every command gets exactly one response, in the order of its port: a step takes a command only from the front of a port's
waiting list, adds a response only in front of its answers, never drops either, and the number of commands of a port waiting, in
progress or answered does not change (R69 M1 and M2, R81; the lists are the model's, log entries 7 and 10). -/
def Obligations.EveryCommandAnsweredOnce : Prop :=
  ∀ s t : State, step s = .next t →
    t.audio.waiting <:+ s.audio.waiting ∧ s.audio.answered <:+ t.audio.answered ∧
    t.control.waiting <:+ s.control.waiting ∧ s.control.answered <:+ t.control.answered ∧
    t.audio.waiting.length + t.audio.answered.length + (if t.blk.isSome then 1 else 0) =
      s.audio.waiting.length + s.audio.answered.length + (if s.blk.isSome then 1 else 0) ∧
    t.control.waiting.length + t.control.answered.length = s.control.waiting.length + s.control.answered.length ∧
    (s.resp = none → t.resp = none)

/-! ## Faults (60_exceptions.md) -/

/-- What a fault does (R290): a command that answers a status other than `OK` has set the one sticky flag of that status and changed
nothing else, the delay lines, the readiness flags and a `BLOCK`'s loads included, and returns two zero words (codes and flags: R285). -/
def Obligations.FaultSetsOnlyItsFlag : Prop :=
  ∀ (i : Instr) (s t : State) (a : Response), exec i s = .next t → t.resp = some a → a.st ≠ 0#8 →
    ∃ code mask, (code, mask) ∈ [(1#8, 0x0100#16), (2#8, 0x0200#16), (3#8, 0x0400#16), (4#8, 0x0800#16), (5#8, 0x1000#16)] ∧
      t = { s with
        regs := { s.regs with status := s.regs.status ||| mask }
        resp := some ⟨code, 0#64, 0#64⟩ }

/-- R293: which flag each command needs. Without it the command answers `E_NOTREADY` whatever its operands; the commands that need
nothing never answer `E_NOTREADY`. -/
def Obligations.ReadinessGating : Prop :=
  (∀ s : State, s.regs.status.getLsbD 0 = false → ∀ i : Instr,
    (i = .block ∨ i = .ostep ∨ i = .onext ∨ ∃ r : Selector, 0x20 ≤ r.toNat ∧ r.toNat ≤ 0x28 ∧ i = .rdst r) →
    exec i s = .next { s with
      regs := { s.regs with status := s.regs.status ||| 0x0800#16 }
      resp := some ⟨4#8, 0#64, 0#64⟩ }) ∧
  (∀ s : State, s.regs.status.getLsbD 1 = false → ∀ i : Instr,
    (i = .mod ∨ (∃ c f x, c.toNat ≤ 1 ∧ i = .chproc c f x) ∨ ∃ f x0 x1, i = .frame f x0 x1) →
    exec i s = .next { s with
      regs := { s.regs with status := s.regs.status ||| 0x0800#16 }
      resp := some ⟨4#8, 0#64, 0#64⟩ }) ∧
  (∀ (s : State) (i : Instr),
    (match i with
     | .init | .setrate _ | .wrpar _ _ | .rdpar _ | .snap | .restore | .rddl _ _ => True
     | .rdst r => ¬(0x20 ≤ r.toNat ∧ r.toNat ≤ 0x28)
     | .block | .mod | .chproc _ _ _ | .frame _ _ _ | .ostep | .onext => False) →
    ∃ t a, exec i s = .next t ∧ t.resp = some a ∧ a.st ≠ 4#8)

/-- The sticky flags (R37): no command but `INIT` clears one, and one becomes set only with the response that carries its code; the
computing step of a `BLOCK` touches none of them. -/
def Obligations.StickyFlagsOnlyInitClears : Prop :=
  (∀ (i : Instr) (s t : State) (e : FaultCode), exec i s = .next t → i ≠ .init →
    getFlag t.regs.status (faultFlag e) =
      (getFlag s.regs.status (faultFlag e) || decide (t.resp = some ⟨faultSt e, 0#64, 0#64⟩))) ∧
  (∀ (b : BlockLoads) (s t : State) (e : FaultCode), blockResume b s = .next t →
    getFlag t.regs.status (faultFlag e) = getFlag s.regs.status (faultFlag e))

/-! ## Reset and lifecycle -/

/-- The reset values of R40 on the registers of the machine, `STATUS` with both readiness flags and all sticky flags 0 among them. -/
def Obligations.ResetValues : Prop :=
  State.reset.regs =
    { p := design.pDef
      rate := 0#64
      stages := 1
      cDepth := design.pDef.depth
      cLen := design.pDef.len
      cTap := 0#64
      bSine := design.pDef.sine
      bFb := design.pDef.fb
      bMix := design.pDef.mix
      oscW := F64.mul 0x401921FB54442D18#64 design.pDef.freq
      oscDuty := design.pDef.duty
      oscPhase := 0#64
      oscSnap := 0#64
      lfoS := 0#64
      fdS := 0#64
      status := 0#16
      ch0 := ⟨0#64, ⟨0#64, 0#64, 0#64, 0#64⟩, ⟨0#64, 0#64, 0#64, 0#64⟩, 0#64, 0#64, []⟩
      ch1 := ⟨0#64, ⟨0#64, 0#64, 0#64, 0#64⟩, ⟨0#64, 0#64, 0#64, 0#64⟩, 0#64, 0#64, []⟩ }

/-- `INIT` (R255): its word on the audio port and on no other; from any state every register takes its reset value and the command
answers two zero words. That a `BLOCK` in progress ends, and that the ports and the interleaving stay the host's, is the model's choice
(log entry 11). -/
def Obligations.InitRestoresReset : Prop :=
  (∀ (d0 d1 : DataWord) (i : Instr),
    decode .audio 0x01000000#32 d0 d1 = .ok .init ∧ decode .control 0x01000000#32 d0 d1 ≠ .ok i) ∧
  ∀ s : State, exec .init s =
    .next { s with regs := State.reset.regs, blk := none, resp := some ⟨0#8, 0#64, 0#64⟩ }

/-- `SETRATE` (R256): its word; a finite rate above 0 is stored, `RATE_VALID` set, `BLK_VALID` cleared and nothing else changed; any other is
refused with `E_BADRATE` and changes only the sticky flag. -/
def Obligations.SetrateStoresOrRefuses : Prop :=
  (∀ r d1 : DataWord, decode .audio 0x02000000#32 r d1 = .ok (.setrate r)) ∧
  ∀ (r : DataWord) (s : State),
    (F64.isFinite r = true ∧ F64.lt 0#64 r = true →
      exec (.setrate r) s =
        .next { s with
          regs := { s.regs with rate := r, status := (s.regs.status ||| 0x0001#16) &&& 0xFFFD#16 }
          resp := some ⟨0#8, 0#64, 0#64⟩ }) ∧
    (¬(F64.isFinite r = true ∧ F64.lt 0#64 r = true) →
      exec (.setrate r) s =
        .next { s with
          regs := { s.regs with status := s.regs.status ||| 0x0200#16 }
          resp := some ⟨2#8, 0#64, 0#64⟩ })

/-- The three-state lifecycle of R262 on the two readiness flags: `INIT` goes to (0, 0), an accepted `SETRATE` to (1, 0), and `exec` of
no other command moves them; the last step of a `BLOCK` (R231) goes to (1, 1) from a state with a rate. That `exec` of `BLOCK` is only
the first of its eight steps (R70), and that the last of them sets `BLK_VALID`, is log entry 8. -/
def Obligations.LifecycleFlags : Prop :=
  (∀ (i : Instr) (s t : State), exec i s = .next t →
    (rateValid t.regs, blkValid t.regs) =
      match i with
      | .init => (false, false)
      | .setrate r =>
        if F64.isFinite r = true ∧ F64.lt 0#64 r = true then (true, false) else (rateValid s.regs, blkValid s.regs)
      | .wrpar _ _ | .rdpar _ | .block | .mod | .chproc _ _ _ | .frame _ _ _ | .ostep | .onext | .snap | .restore
      | .rdst _ | .rddl _ _ => (rateValid s.regs, blkValid s.regs)) ∧
  (∀ (b : BlockLoads) (s t : State), blockResume b s = .next t →
    rateValid t.regs = rateValid s.regs ∧ (blkValid t.regs = (blkValid s.regs || t.blk.isNone)))

/-! ## Parameters -/

/-- `WRPAR` (R257) with the legal values of R258: its word on either port; a legal value replaces the parameter and nothing else; any other is refused with
`E_RANGE` and changes only the sticky flag. -/
def Obligations.WrparStoresOrRefuses : Prop :=
  ∀ (k : Nat) (q : Param) (v : DataWord) (s : State),
    [Param.sine, .freq, .duty, .len, .depth, .fb, .mix][k]? = some q →
    let legal : Prop :=
      match q with
      | .freq => F64.isFinite v = true ∧ F64.lt 0#64 v = true
      | .fb => F64.isFinite v = true ∧ F64.le 0xBFF0000000000000#64 v = true ∧ F64.le v 0x3FF0000000000000#64 = true
      | .sine | .duty | .len | .depth | .mix =>
        F64.isFinite v = true ∧ F64.le 0#64 v = true ∧ F64.le v 0x3FF0000000000000#64 = true
    (∀ (port : Port) (d1 : DataWord),
      decode port (0x03000000#32 ||| BitVec.ofNat 32 (k * 65536)) v d1 = .ok (.wrpar (BitVec.ofNat 8 k) v)) ∧
    (legal → ∃ p : Params Num64,
      exec (.wrpar (BitVec.ofNat 8 k) v) s =
        .next { s with regs := { s.regs with p := p }, resp := some ⟨0#8, 0#64, 0#64⟩ } ∧
      ∀ q', getParam p q' = if q' = q then v else getParam s.regs.p q') ∧
    (¬legal →
      exec (.wrpar (BitVec.ofNat 8 k) v) s =
        .next { s with
          regs := { s.regs with status := s.regs.status ||| 0x0400#16 }
          resp := some ⟨3#8, 0#64, 0#64⟩ })

/-- `RDPAR` (R259): its word on either port; one load of the raw register, in any state, and nothing changes. -/
def Obligations.RdparReadsParameter : Prop :=
  ∀ (k : Nat) (q : Param) (s : State), [Param.sine, .freq, .duty, .len, .depth, .fb, .mix][k]? = some q →
    (∀ (port : Port) (d0 d1 : DataWord),
      decode port (0x04000000#32 ||| BitVec.ofNat 32 (k * 65536)) d0 d1 = .ok (.rdpar (BitVec.ofNat 8 k))) ∧
    exec (.rdpar (BitVec.ofNat 8 k)) s = .next { s with resp := some ⟨0#8, getParam s.regs.p q, 0#64⟩ }

/-- Parameter round trip (R259): in a state whose parameters are legal, `WRPAR p` with the value `RDPAR p` returned answers `OK` and
leaves every register as it was. -/
def Obligations.ParameterRoundTrip : Prop :=
  ∀ (p : Selector) (s t : State) (a : Response),
    isParamSel p = true → (∀ q, arithF64.isLegal q (parLoad s.regs q) = true) →
    exec (.rdpar p) s = .next t → t.resp = some a →
    exec (.wrpar p a.q0) t = .next { s with resp := some ⟨0#8, 0#64, 0#64⟩ }

/-! ## Block rate -/

/-- `BLOCK` (R230 to R235): with a rate, and as long as `RATE * T_MAX` is finite, it starts, its remaining seven steps complete
whatever else waits at the audio port, and together they are `CACHE.BLOCK` on the seven parameters; its response carries the new
`STAGES`. Where the product is not finite the computing step faults, since `ifloor` of it has no value (R110, log entry 4). The eight
steps are log entry 8. -/
def Obligations.BlockCompletes : Prop :=
  (∀ (s : State) (rest : List Agent),
    s.sched = List.replicate 7 .core ++ rest → s.regs.status.getLsbD 0 = true →
    F64.isFinite (F64.mul s.regs.rate design.tMax) = true →
    let floor : Int := F64.toInt (F64.mul s.regs.rate design.tMax) / 2 ^ 1074
    let stages : Nat := (max 1 (min floor design.dlCap)).toNat
    ∃ t0, exec .block s = .next t0 ∧
      t0 = { s with blk := some (.one s.regs.p.sine), resp := none } ∧
      Sys2Proof.core.run 7 t0 =
        .next { s with
          regs := { s.regs with
            cDepth := F64.add s.regs.cDepth (F64.mul (F64.sub s.regs.p.depth s.regs.cDepth) design.kSmooth)
            cLen := F64.add s.regs.cLen (F64.mul (F64.sub s.regs.p.len s.regs.cLen) design.kSmooth)
            oscW := F64.mul 0x401921FB54442D18#64 s.regs.p.freq
            oscDuty := s.regs.p.duty
            bSine := s.regs.p.sine
            bFb := s.regs.p.fb
            bMix := s.regs.p.mix
            stages := stages
            status := s.regs.status ||| 0x0002#16 }
          blk := none
          resp := none
          audio := ⟨s.audio.waiting, ⟨0#8, BitVec.ofNat 64 stages, 0#64⟩ :: s.audio.answered⟩
          sched := rest }) ∧
  (∀ (s : State) (p0 p1 p2 p3 p4 p5 p6 : Num64), F64.isFinite (F64.mul s.regs.rate design.tMax) = false →
    blockResume (.seven p0 p1 p2 p3 p4 p5 p6) s = .fault .floorOfNonFinite)

/-- A control-port `WRPAR` during a `BLOCK` (R69 M3 to M5, R70): the store falls after `k` of the eight steps, and the block sees the
new value exactly when the load of that parameter comes after it. The eight steps are log entry 8; the waiting lists and the order of
the agents are log entry 7. -/
def Obligations.BlockSeesConcurrentStore : Prop :=
  ∀ (s : State) (k n : Nat) (q : Param) (v : DataWord) (w u : PortCommand) (ws us : List PortCommand) (rest : List Agent)
    (r : Regs Num64),
    k ≤ 8 → [Param.sine, .freq, .duty, .len, .depth, .fb, .mix][n]? = some q →
    s.sched = List.replicate k .core ++ .hostctl :: (List.replicate (8 - k) .core ++ rest) →
    s.blk = none → s.regs.status.getLsbD 0 = true →
    s.audio.waiting = w :: ws → decode .audio w.cmd w.d0 w.d1 = .ok .block →
    s.control.waiting = u :: us → decode .control u.cmd u.d0 u.d1 = .ok (.wrpar (BitVec.ofNat 8 n) v) →
    arithF64.isLegal q v = true →
    cacheBlock arithF64 design (if n < k then s.regs.p else setParam s.regs.p q v) s.regs = some r →
    ∃ t, Sys2Proof.core.run 9 s = .next t ∧ t.regs = { r with p := setParam s.regs.p q v } ∧ t.blk = none ∧ t.sched = rest ∧
      t.audio.waiting = ws ∧ t.control.waiting = us

/-- The constraint column of R8 holds of the hardware's configuration. -/
def Obligations.DesignIsLegal : Prop := Cfg.Legal arithF64 design

/-- The five properties S1 to S5 of `SHAPE_FN` (R112) hold of the hardware's shaper. -/
def Obligations.ShapeFunctionLaws : Prop := ShapeLaws arithF64 design.shapeFn

/-! ## Sample rate -/

/-- `MOD` (R238, R239): its word; with a prepared block, the steps of `MOD.TAP` in order on the registers, and the tap and the morphed value in
the response; without one it is refused. -/
def Obligations.ModAdvancesModulation : Prop :=
  (∀ d0 d1 : DataWord, decode .audio 0x06000000#32 d0 d1 = .ok .mod) ∧
  ∀ s : State,
    (s.regs.status.getLsbD 1 = true →
      let tri := waveValue arithF64 design 0 s.regs.oscPhase s.regs.oscDuty
      let lfo := F64.add (F64.mul (design.shapeFn (F64.mul 0x3FF921FB54442D18#64 tri)) s.regs.bSine)
        (F64.mul tri (F64.sub 0x3FF0000000000000#64 s.regs.bSine))
      let v := F64.mul (F64.sub (F64.mul lfo s.regs.cDepth) s.regs.lfoS) (filterCoef1 arithF64 design.tauLfo s.regs.rate)
      let m := F64.add v s.regs.lfoS
      let n := F64.add (F64.mul 0x3FE0000000000000#64 m) 0x3FE0000000000000#64
      let hi := F64.num ((s.regs.stages : Int) - 1)
      let tgt := F64.mul (F64.mul s.regs.cLen hi) n
      let u := F64.mul (F64.sub tgt s.regs.fdS) (filterCoef1 arithF64 design.tauFd s.regs.rate)
      let t := F64.add u s.regs.fdS
      let tap := if F64.lt t 0#64 = true then 0#64 else if F64.lt hi t = true then hi else t
      exec .mod s =
        .next { s with
          regs := { s.regs with
            oscPhase := F64.fmod (F64.add s.regs.oscPhase (F64.div s.regs.oscW s.regs.rate)) 0x401921FB54442D18#64
            lfoS := F64.add m v
            fdS := F64.add t u
            cTap := tap }
          resp := some ⟨0#8, tap, lfo⟩ }) ∧
    (s.regs.status.getLsbD 1 = false → exec .mod s = .next (raise .notReady s))

/-- The clamp of step 7 of R238: after every `MOD`, unless the tap is a NaN (R118), `0 <= C_TAP <= num(STAGES - 1)`. -/
def Obligations.TapIsClamped : Prop :=
  ∀ s t : State, 1 ≤ s.regs.stages → blkValid s.regs = true → exec .mod s = .next t → F64.isNaN t.regs.cTap = false →
    F64.le 0#64 t.regs.cTap = true ∧ F64.le t.regs.cTap (F64.num ((s.regs.stages : Int) - 1)) = true

/-- `CHPROC` (R214, R215): with a prepared block, a finite sample and a finite tap, the seven steps of `CH.PROCESS` on the named
channel, everything else unchanged, and the output sample in the response. -/
def Obligations.ChprocTransformsChannel : Prop :=
  ∀ (s : State) (c : Selector) (ch : Chan) (f : Fmt) (w x : Num64),
    (c, ch) ∈ [(0#8, Chan.zero), (1#8, Chan.one)] → s.regs.status.getLsbD 1 = true → decodeSample f w = some x →
    F64.isFinite s.regs.cTap = true →
    let C := getChan s.regs ch
    let gIn := filterCoef1 arithF64 design.tauIn s.regs.rate
    let gFb := filterCoef1 arithF64 design.tauFb s.regs.rate
    let k : ChorusCoefs Num64 :=
      { gChp := filterCoef1 arithF64 design.tauChp s.regs.rate
        gClp := filterCoef1 arithF64 design.tauClp s.regs.rate
        lp2 := filterCoef2 arithF64 design.w0 design.q s.regs.rate }
    let xp := filterHp1 arithF64 C.inS gIn x
    let a := filterChorus arithF64 k C.f1 xp.1
    let line := (a.1 :: C.dl).take s.regs.stages
    let i0 : Int := F64.toInt s.regs.cTap / 2 ^ 1074
    let frac := F64.sub s.regs.cTap (F64.num i0)
    let yd := F64.add (F64.mul (dlRead arithF64 line i0) (F64.sub 0x3FF0000000000000#64 frac))
      (F64.mul (dlRead arithF64 line (i0 + 1)) frac)
    let y := filterChorus arithF64 k C.f2 yd
    let xfb := filterHp1 arithF64 C.fbS gFb (F64.mul y.1 s.regs.bFb)
    let out := F64.add (F64.mul xp.1 (F64.sub 0x3FF0000000000000#64 s.regs.bMix)) (F64.mul y.1 s.regs.bMix)
    exec (.chproc c f w) s =
      .next { s with
        regs := setChan s.regs ch
          { inS := xp.2, f1 := a.2, f2 := y.2, fbS := xfb.2, dlTap := s.regs.cTap
            dl := line.set 0 (saturate arithF64 design.limit (F64.add (dlRead arithF64 line 0) xfb.1)) }
        resp := some ⟨0#8, encodeSample f out, 0#64⟩ }

/-- The other ways of `CHPROC` and `FRAME` (R215, R244, R292, R294): a sample that is an infinity or a NaN is refused with
`E_NONFINITE`, after readiness, and a tap that is not finite, the stored one for `CHPROC` and the new one for `FRAME`, is the fault of
R110 (log entry 4). -/
def Obligations.SampleCommandsRefuseNonFinite : Prop :=
  ∀ (s : State) (f : Fmt) (w w' : DataWord), s.regs.status.getLsbD 1 = true →
    (decodeSample f w = none ∨ decodeSample f w' = none →
      exec (.frame f w w') s =
        .next { s with
          regs := { s.regs with status := s.regs.status ||| 0x1000#16 }
          resp := some ⟨5#8, 0#64, 0#64⟩ }) ∧
    (decodeSample f w ≠ none → decodeSample f w' ≠ none → F64.isFinite (modTap arithF64 design s.regs).1.cTap = false →
      exec (.frame f w w') s = .fault .floorOfNonFinite) ∧
    (∀ c : Selector, c.toNat ≤ 1 →
      (decodeSample f w = none →
        exec (.chproc c f w) s =
          .next { s with
            regs := { s.regs with status := s.regs.status ||| 0x1000#16 }
            resp := some ⟨5#8, 0#64, 0#64⟩ }) ∧
      (decodeSample f w ≠ none → F64.isFinite s.regs.cTap = false →
        exec (.chproc c f w) s = .fault .floorOfNonFinite))

/-- `FRAME` (R244): with a prepared block, finite samples and a finite new tap it completes, and it equals `MOD`, `CHPROC 0`,
`CHPROC 1` in its effect on the state and in the samples it returns. -/
def Obligations.FrameIsModThenChannels : Prop :=
  ∀ (s : State) (f : Fmt) (w0 w1 x0 x1 : DataWord),
    s.regs.status.getLsbD 1 = true → decodeSample f w0 = some x0 → decodeSample f w1 = some x1 →
    F64.isFinite (modTap arithF64 design s.regs).1.cTap = true →
    ∃ t0 t1 t2 q0 q1,
      exec .mod s = .next t0 ∧ exec (.chproc 0#8 f w0) t0 = .next t1 ∧ exec (.chproc 1#8 f w1) t1 = .next t2 ∧
      t1.resp = some ⟨0#8, q0, 0#64⟩ ∧ t2.resp = some ⟨0#8, q1, 0#64⟩ ∧
      exec (.frame f w0 w1) s = .next { t2 with resp := some ⟨0#8, q0, q1⟩ }

/-- The two channels share nothing (R75): `CHPROC` on one leaves the other as it is, and neither its response nor its channel's new
state depends on the other's state. -/
def Obligations.ChannelsAreIndependent : Prop :=
  ∀ (s s' t t' : State) (c : Selector) (ch other : Chan) (f : Fmt) (w : DataWord),
    (c, ch, other) ∈ [(0#8, Chan.zero, Chan.one), (1#8, Chan.one, Chan.zero)] →
    s'.regs = setChan s.regs other (getChan s'.regs other) →
    exec (.chproc c f w) s = .next t → exec (.chproc c f w) s' = .next t' →
    getChan t.regs other = getChan s.regs other ∧ getChan t.regs ch = getChan t'.regs ch ∧ t.resp = t'.resp

/-- The two orders of `CHPROC 0` and `CHPROC 1` give the same registers and the same samples (R215). -/
def Obligations.ChannelOrderDoesNotMatter : Prop :=
  ∀ (s a b a' b' : State) (f : Fmt) (w0 w1 : DataWord),
    exec (.chproc 0#8 f w0) s = .next a → exec (.chproc 1#8 f w1) a = .next b →
    exec (.chproc 1#8 f w1) s = .next a' → exec (.chproc 0#8 f w0) a' = .next b' →
    b.regs = b'.regs ∧ a.resp = b'.resp ∧ b.resp = a'.resp

/-- The line after a processed sample (R62, R171; I3 of R41): it holds the newest `min(DL_N + 1, STAGES)` samples, every kept cell
one place older. -/
def Obligations.LineKeepsNewest : Prop :=
  ∀ (s t : State) (c : Selector) (ch : Chan) (f : Fmt) (w q : DataWord),
    (c, ch) ∈ [(0#8, Chan.zero), (1#8, Chan.one)] →
    exec (.chproc c f w) s = .next t → t.resp = some ⟨0#8, q, 0#64⟩ →
    (getChan t.regs ch).dl.length = min ((getChan s.regs ch).dl.length + 1) s.regs.stages ∧
    ∀ k : Nat, k + 1 < s.regs.stages →
      dlRead arithF64 (getChan t.regs ch).dl ((k + 1 : Nat) : Int) = dlRead arithF64 (getChan s.regs ch).dl (k : Int)

/-- Two runs that differ only in the format flag, with samples representable in binary32, go through identical states (R245). -/
def Obligations.FormatDoesNotTouchState : Prop :=
  ∀ (s t t' : State) (c : Selector) (w : DataWord) (x : Num64),
    decodeSample .binary32 w = some x →
    exec (.chproc c .binary32 w) s = .next t → exec (.chproc c .binary64 x) s = .next t' → t.regs = t'.regs

/-- The feedback loop has one sample of delay (R216): the output of a sample does not depend on the feedback gain, the feedback
filter's state or the saturation scale of that same sample. -/
def Obligations.FeedbackIsHeardLater : Prop :=
  ∀ (g : ChannelInputs Num64) (ch c1 c2 : ChannelState Num64) (x bFb fbS limit o1 o2 : Num64),
    channelTransform arithF64 design g ch x = some (c1, o1) →
    channelTransform arithF64 { design with limit := limit } { g with bFb := bFb } { ch with fbS := fbS } x = some (c2, o2) →
    o1 = o2 ∧ c1.dl.tail = c2.dl.tail

/-! ## Oscillator commands -/

/-- `OSTEP` (R151, R153): its word; with a rate the phase advances by `OSC_W / RATE` modulo `TWO_PI` and nothing else changes; without one the
command is refused. -/
def Obligations.OstepAdvancesPhase : Prop :=
  (∀ d0 d1 : DataWord, decode .audio 0x09000000#32 d0 d1 = .ok .ostep) ∧
  ∀ s : State,
    (s.regs.status.getLsbD 0 = true →
      exec .ostep s =
        .next { s with
          regs := { s.regs with
            oscPhase := F64.fmod (F64.add s.regs.oscPhase (F64.div s.regs.oscW s.regs.rate)) 0x401921FB54442D18#64 }
          resp := some ⟨0#8, 0#64, 0#64⟩ }) ∧
    (s.regs.status.getLsbD 0 = false → exec .ostep s = .next (raise .notReady s))

/-- `ONEXT` (R152, R154): its word; with a rate it returns the triangle at the phase before the step and then steps; the triangle is R132's
expression on the domain of R130; without a rate the command is refused. -/
def Obligations.OnextReturnsTriangle : Prop :=
  (∀ d0 d1 : DataWord, decode .audio 0x0A000000#32 d0 d1 = .ok .onext) ∧
  ∀ s : State,
    (s.regs.status.getLsbD 0 = true → ∃ v,
      exec .onext s =
        .next { s with
          regs := { s.regs with
            oscPhase := F64.fmod (F64.add s.regs.oscPhase (F64.div s.regs.oscW s.regs.rate)) 0x401921FB54442D18#64 }
          resp := some ⟨0#8, v, 0#64⟩ } ∧
      (F64.le 0#64 s.regs.oscPhase = true → F64.lt s.regs.oscPhase 0x401921FB54442D18#64 = true →
        F64.le 0#64 s.regs.oscDuty = true → F64.le s.regs.oscDuty 0x3FF0000000000000#64 = true →
        let b := F64.mul 0x401921FB54442D18#64 s.regs.oscDuty
        v = if F64.lt s.regs.oscPhase b = true
          then F64.add 0xBFF0000000000000#64 (F64.div (F64.mul 0x4000000000000000#64 s.regs.oscPhase) b)
          else F64.sub 0x3FF0000000000000#64
            (F64.div (F64.mul 0x4000000000000000#64 (F64.sub s.regs.oscPhase b)) (F64.sub 0x401921FB54442D18#64 b)))) ∧
    (s.regs.status.getLsbD 0 = false → exec .onext s = .next (raise .notReady s))

/-- `SNAP` (R155): its word; in any state the snapshot takes the phase, which is also returned, and nothing else changes. -/
def Obligations.SnapSavesPhase : Prop :=
  (∀ d0 d1 : DataWord, decode .audio 0x0B000000#32 d0 d1 = .ok .snap) ∧
  ∀ s : State, exec .snap s =
    .next { s with regs := { s.regs with oscSnap := s.regs.oscPhase }, resp := some ⟨0#8, s.regs.oscPhase, 0#64⟩ }

/-- `RESTORE` (R156): its word; in any state the phase takes the snapshot and nothing else changes. -/
def Obligations.RestoreSetsPhase : Prop :=
  (∀ d0 d1 : DataWord, decode .audio 0x0C000000#32 d0 d1 = .ok .restore) ∧
  ∀ s : State, exec .restore s =
    .next { s with regs := { s.regs with oscPhase := s.regs.oscSnap }, resp := some ⟨0#8, 0#64, 0#64⟩ }

/-- Invariant I1 of R41 through R151: a step of the oscillator keeps a reduced phase reduced, as long as the sum before the reduction
is finite (R110). -/
def Obligations.PhaseStaysReduced : Prop :=
  ∀ phase w rate : Num64,
    F64.le 0#64 phase = true → F64.lt phase F64.twoPi = true → F64.le 0#64 w = true → F64.lt 0#64 rate = true →
    F64.isFinite (F64.add phase (F64.div w rate)) = true →
    F64.le 0#64 (nextPhase arithF64 phase w rate) = true ∧ F64.lt (nextPhase arithF64 phase w rate) F64.twoPi = true

/-- R157 in the reference arithmetic: after `N` steps from phase 0 the phase is `N * w / rate` modulo 2π, exactly. -/
def Obligations.PhaseAfterSteps : Prop :=
  ∀ (r : Regs ℝ) (N : Nat), r.oscPhase = 0 → 0 ≤ r.oscW → 0 < r.rate →
    ((oscStep arithReal)^[N] r).oscPhase =
      N * (r.oscW / r.rate) - 2 * Real.pi * (⌊N * (r.oscW / r.rate) / (2 * Real.pi)⌋ : ℝ)

/-! ## Observation -/

/-- `RDST` (R261) on the map of R38: the value of every register by its number, in any state for the registers that need no rate and
with a rate for the derived coefficients; nothing changes. -/
def Obligations.RdstReadsMap : Prop :=
  ∀ s : State,
    let r := s.regs
    let ans := fun q : DataWord => (Host.Outcome.next { s with resp := some ⟨0#8, q, 0#64⟩ } : Host.Outcome State Fault Refusal)
    (∀ nv ∈ [(0x00, r.p.sine), (0x01, r.p.freq), (0x02, r.p.duty), (0x03, r.p.len), (0x04, r.p.depth), (0x05, r.p.fb),
        (0x06, r.p.mix), (0x09, BitVec.ofNat 64 r.stages), (0x0A, r.cDepth), (0x0B, r.cLen), (0x0C, r.cTap),
        (0x0D, r.bSine), (0x0E, r.bFb), (0x0F, r.bMix), (0x10, r.oscW), (0x11, r.oscDuty), (0x12, r.oscPhase),
        (0x13, r.oscSnap), (0x14, 0#64), (0x15, r.lfoS), (0x16, r.fdS)],
      exec (.rdst (BitVec.ofNat 8 nv.1)) s = ans nv.2) ∧
    exec (.rdst 0x08#8) s = ans (if r.status.getLsbD 0 = true then r.rate else 0#64) ∧
    exec (.rdst 0x18#8) s = ans ((r.status &&& 0x1F03#16).zeroExtend 64) ∧
    (∀ bc ∈ [(0x40, r.ch0), (0x50, r.ch1)],
      ∀ nv ∈ [(0x0, bc.2.inS), (0x1, bc.2.f1.hpS), (0x2, bc.2.f1.lpS), (0x3, bc.2.f1.z1), (0x4, bc.2.f1.z2),
          (0x5, bc.2.f2.hpS), (0x6, bc.2.f2.lpS), (0x7, bc.2.f2.z1), (0x8, bc.2.f2.z2), (0x9, bc.2.fbS), (0xA, bc.2.dlTap),
          (0xB, BitVec.ofNat 64 bc.2.dl.length)],
        exec (.rdst (BitVec.ofNat 8 (bc.1 + nv.1))) s = ans nv.2) ∧
    (r.status.getLsbD 0 = true →
      let one := fun tau => filterCoef1 arithF64 tau r.rate
      let two := filterCoef2 arithF64 design.w0 design.q r.rate
      ∀ nv ∈ [(0x20, one design.tauIn), (0x21, one design.tauChp), (0x22, one design.tauClp), (0x23, two.b0),
          (0x24, two.a1), (0x25, two.a2), (0x26, one design.tauFb), (0x27, one design.tauLfo), (0x28, one design.tauFd)],
        exec (.rdst (BitVec.ofNat 8 nv.1)) s = ans nv.2)

/-- `RDDL` (R172): its word for each channel; in any state the cell at the index, `+0` at or beyond the end of the line, and the size of the line; nothing
changes. -/
def Obligations.RddlReadsCell : Prop :=
  ∀ (s : State) (c : Selector) (ch : Chan) (i : DataWord), (c, ch) ∈ [(0#8, Chan.zero), (1#8, Chan.one)] →
    let dl := (getChan s.regs ch).dl
    (∀ d1 : DataWord, decode .audio (0x0E000000#32 ||| (c.zeroExtend 32 <<< 16)) i d1 = .ok (.rddl c i)) ∧
    exec (.rddl c i) s =
      .next { s with resp := some ⟨0#8, if h : i.toNat < dl.length then dl[i.toNat] else 0#64, BitVec.ofNat 64 dl.length⟩ }

/-- Reads have no side effect (R65): `RDPAR`, `RDST` and `RDDL` of anything the map holds leave every register as it was, and the same
command again answers the same. -/
def Obligations.ReadsChangeNothing : Prop :=
  ∀ (i : Instr) (s t : State) (a : Response),
    ((∃ p, i = .rdpar p) ∨ (∃ r, i = .rdst r) ∨ ∃ c k, i = .rddl c k) →
    exec i s = .next t → t.resp = some a → a.st = 0#8 →
    t = { s with resp := some a } ∧ exec i t = .next t

/-! ## Who writes what (R38, "written by") -/

/-- Only the commands the table of R38 names write each register. `STAGES`, `C_DEPTH`, `C_LEN`, `B_SINE`, `B_FB`, `B_MIX`, `OSC_W` and
`OSC_DUTY` are written by `BLOCK` (R24, R38), not by `exec` of it, which is only its first step (log entry 8); the later steps of a
`BLOCK` write neither the parameters nor the rate, the phase, the snapshot, the modulation states, the tap or a channel. -/
def Obligations.RegisterWriters : Prop :=
  (∀ (i : Instr) (s t : State), exec i s = .next t → i ≠ .init →
    (t.regs.p = s.regs.p ∨ ∃ p v, i = .wrpar p v) ∧
    (t.regs.rate = s.regs.rate ∨ ∃ r, i = .setrate r) ∧
    (t.regs.stages, t.regs.cDepth, t.regs.cLen, t.regs.bSine, t.regs.bFb, t.regs.bMix, t.regs.oscW, t.regs.oscDuty) =
      (s.regs.stages, s.regs.cDepth, s.regs.cLen, s.regs.bSine, s.regs.bFb, s.regs.bMix, s.regs.oscW, s.regs.oscDuty) ∧
    ((t.regs.cTap, t.regs.lfoS, t.regs.fdS) = (s.regs.cTap, s.regs.lfoS, s.regs.fdS) ∨
      i = .mod ∨ ∃ f x0 x1, i = .frame f x0 x1) ∧
    (t.regs.oscPhase = s.regs.oscPhase ∨
      i = .ostep ∨ i = .onext ∨ i = .mod ∨ i = .restore ∨ ∃ f x0 x1, i = .frame f x0 x1) ∧
    (t.regs.oscSnap = s.regs.oscSnap ∨ i = .snap) ∧
    (t.regs.ch0 = s.regs.ch0 ∨ (∃ f x, i = .chproc 0#8 f x) ∨ ∃ f x0 x1, i = .frame f x0 x1) ∧
    (t.regs.ch1 = s.regs.ch1 ∨ (∃ f x, i = .chproc 1#8 f x) ∨ ∃ f x0 x1, i = .frame f x0 x1)) ∧
  (∀ (b : BlockLoads) (s t : State), blockResume b s = .next t →
    (t.regs.p, t.regs.rate, t.regs.oscPhase, t.regs.oscSnap, t.regs.lfoS, t.regs.fdS, t.regs.cTap, t.regs.ch0, t.regs.ch1) =
      (s.regs.p, s.regs.rate, s.regs.oscPhase, s.regs.oscSnap, s.regs.lfoS, s.regs.fdS, s.regs.cTap, s.regs.ch0, s.regs.ch1))

/-! ## Invariants (R41) -/

/-- The invariants I2, I3, I5, I6, I7 of R41, the reserved bits of `STATUS`, the legality of the latched copies and of what a `BLOCK`
in progress has loaded hold after reset. -/
def Obligations.InvariantAtReset : Prop := Inv design State.reset

/-- Every step of the machine, from every state that satisfies them, keeps the same invariants. -/
def Obligations.InvariantKeptByEveryStep : Prop :=
  ∀ s t : State, Inv design s → step s = .next t → Inv design t

/-! ## The arithmetic of the hardware (40_arithmetic.md) -/

/-- One rounding per operation, to nearest, ties to even (R101): no finite value is nearer the exact result than a finite result, and
where another is equally near the last bit of the result is 0. Values are in quanta of `2^-1074`. -/
def Obligations.OperationsRoundToNearest : Prop :=
  ∀ a b : Num64, F64.isFinite a = true → F64.isFinite b = true →
    ∀ (r : Num64) (exact scale : Int),
      (r = F64.add a b ∧ exact = F64.toInt a + F64.toInt b ∧ scale = 1 ∨
       r = F64.sub a b ∧ exact = F64.toInt a - F64.toInt b ∧ scale = 1 ∨
       r = F64.mul a b ∧ exact = F64.toInt a * F64.toInt b ∧ scale = 2 ^ 1074 ∨
       r = F64.div a b ∧ F64.toInt b ≠ 0 ∧ exact = F64.toInt a * 2 ^ 1074 ∧ scale = F64.toInt b) →
      F64.isFinite r = true → ∀ z : Num64, F64.isFinite z = true →
        |F64.toInt r * scale - exact| ≤ |F64.toInt z * scale - exact| ∧
        (|F64.toInt r * scale - exact| = |F64.toInt z * scale - exact| → F64.toInt z ≠ F64.toInt r → r.getLsbD 0 = false)

/-- `fmod` (R105): for finite `a >= 0` and finite `b > 0` the result is the exact remainder, finite, and in `[0, b)`. -/
def Obligations.FmodIsExact : Prop :=
  ∀ a b : Num64, F64.isFinite a = true → F64.isFinite b = true → F64.le 0#64 a = true → F64.lt 0#64 b = true →
    F64.isFinite (F64.fmod a b) = true ∧ F64.toInt (F64.fmod a b) = F64.toInt a % F64.toInt b ∧
    F64.le 0#64 (F64.fmod a b) = true ∧ F64.lt (F64.fmod a b) b = true

/-- The two conversions of R117: `ifloor` is the largest integer not above a finite value, and `num` is exact up to `2^53`. -/
def Obligations.IntegerConversions : Prop :=
  (∀ (a : Num64) (i : Int), F64.isFinite a = true →
    (F64.ifloor a = some i ↔ i * 2 ^ 1074 ≤ F64.toInt a ∧ F64.toInt a < (i + 1) * 2 ^ 1074)) ∧
  (∀ i : Int, i.natAbs ≤ 2 ^ 53 → F64.isFinite (F64.num i) = true ∧ F64.toInt (F64.num i) = i * 2 ^ 1074)

/-- The binary32 port (R120, R121): every finite pattern widens, exactly, and rounding what it widened to gives the pattern back; an
infinity or a NaN does not widen. -/
def Obligations.SingleRoundTrip : Prop :=
  ∀ w : Single,
    (w.toNat % 0x80000000 < 0x7F800000 →
      ∃ x, F64.ofSingle w = some x ∧ F64.isFinite x = true ∧ F64.toSingle x = w ∧
        F64.toInt x = (if w.msb then -1 else 1) * (F64.quantaOf 23 (w.toNat % 0x80000000) : Int) * 2 ^ 925) ∧
    (0x7F800000 ≤ w.toNat % 0x80000000 → F64.ofSingle w = none)

/-- The rounding of an `f = 1` sample (R121, R86), for every value that is no NaN: the sign is kept; the result is an infinity exactly
when the magnitude is at least the midpoint above the largest finite binary32 value, `(2^25 - 1) * 2^103`, and a zero exactly when it is
at most half the smallest subnormal, `2^-150`; otherwise no finite binary32 value is nearer, and where another is equally near the last
bit of the result is 0. Magnitudes are in quanta of `2^-1074`. -/
def Obligations.SingleRoundsToNearest : Prop :=
  ∀ x : Num64, F64.isNaN x = false →
    let w : Single := F64.toSingle x
    encodeSample .binary32 x = w.zeroExtend 64 ∧
    w.msb = x.msb ∧ w.toNat % 0x80000000 ≤ 0x7F800000 ∧
    (w.toNat % 0x80000000 = 0x7F800000 ↔ F64.isInf x = true ∨ (2 ^ 25 - 1) * 2 ^ 1177 ≤ |F64.toInt x|) ∧
    (w.toNat % 0x80000000 = 0 ↔ F64.isFinite x = true ∧ |F64.toInt x| ≤ 2 ^ 924) ∧
    (w.toNat % 0x80000000 < 0x7F800000 → ∃ y, F64.ofSingle w = some y ∧
      ∀ (v : Single) (z : Num64), F64.ofSingle v = some z →
        |F64.toInt y - F64.toInt x| ≤ |F64.toInt z - F64.toInt x| ∧
        (|F64.toInt y - F64.toInt x| = |F64.toInt z - F64.toInt x| → F64.toInt z ≠ F64.toInt y → w.getLsbD 0 = false))

/-- `SAT` in the hardware's arithmetic (R212): odd exactly, and inside `[-LIMIT, LIMIT]`, whenever the quotient `v / LIMIT` is
finite. -/
def Obligations.SaturationOddAndBounded : Prop :=
  ∀ limit v : Num64, arithF64.isPositive limit = true → F64.isFinite v = true → F64.isFinite (F64.div v limit) = true →
    saturate arithF64 limit (F64.neg v) = F64.neg (saturate arithF64 limit v) ∧
    F64.le (F64.neg limit) (saturate arithF64 limit v) = true ∧ F64.le (saturate arithF64 limit v) limit = true

/-! ## The reference arithmetic (R106): the source's testable properties -/

/-- `SAT` in the reference arithmetic (R212): strictly inside the limit, strictly increasing, odd, and never amplifying, with equality
only at 0. -/
def Obligations.SaturationReal : Prop :=
  ∀ limit : ℝ, 0 < limit →
    (∀ v, -limit < saturate arithReal limit v ∧ saturate arithReal limit v < limit) ∧
    StrictMono (saturate arithReal limit) ∧
    (∀ v, saturate arithReal limit (-v) = -saturate arithReal limit v) ∧
    (∀ v, |saturate arithReal limit v| ≤ |v| ∧ (|saturate arithReal limit v| = |v| ↔ v = 0))

/-- The coefficients in the reference arithmetic (R190, R195): `0 < G < 1`; `0 < B0 < 1`, `|A2| < 1`, `|A1| < 1 + A2`, and gain 1 at
zero frequency. -/
def Obligations.CoefficientsAreStable : Prop :=
  (∀ tau rate : ℝ, 0 < tau → 0 < rate → 0 < filterCoef1 arithReal tau rate ∧ filterCoef1 arithReal tau rate < 1) ∧
  (∀ w0 q rate : ℝ, 0 < w0 → 0 < q → 0 < rate →
    let k := filterCoef2 arithReal w0 q rate
    0 < k.b0 ∧ k.b0 < 1 ∧ |k.a2| < 1 ∧ |k.a1| < 1 + k.a2 ∧ 4 * k.b0 / (1 + k.a1 + k.a2) = 1)

/-- The one-pole stages in the reference arithmetic (R191): fed a constant, the distance of the state from it shrinks by the factor
`1 - 2G` per sample, so the low-pass has gain 1 and the high-pass gain 0 at zero frequency; the two outputs add up to the input. -/
def Obligations.OnePoleDecays : Prop :=
  ∀ S G x : ℝ, 0 < G → G < 1 →
    (∀ N : Nat, (fun S => (filterLp1 arithReal S G x).2)^[N] S - x = (1 - 2 * G) ^ N * (S - x)) ∧
    (∀ N : Nat, (fun S => (filterHp1 arithReal S G x).2)^[N] S - x = (1 - 2 * G) ^ N * (S - x)) ∧
    Filter.Tendsto (fun N : Nat => (filterLp1 arithReal ((fun S => (filterLp1 arithReal S G x).2)^[N] S) G x).1)
      Filter.atTop (nhds x) ∧
    (filterLp1 arithReal S G x).1 + (filterHp1 arithReal S G x).1 = x

/-- Smoothing in the reference arithmetic (R232, R236): the distance from the target shrinks by `1 - k` per block, values in `[0, 1]`
stay there, and `k = 1` reaches the target at once. -/
def Obligations.SmoothingApproachesTarget : Prop :=
  ∀ k c target : ℝ, 0 < k → k ≤ 1 →
    (∀ N : Nat, (fun c => smooth arithReal k c target)^[N] c - target = (1 - k) ^ N * (c - target)) ∧
    (0 ≤ c → c ≤ 1 → 0 ≤ target → target ≤ 1 →
      ∀ N : Nat, 0 ≤ (fun c => smooth arithReal k c target)^[N] c ∧ (fun c => smooth arithReal k c target)^[N] c ≤ 1) ∧
    (k = 1 → smooth arithReal k c target = target)

/-- The six shapes and the morph are bounded by 1 on the domain of R130 in the reference arithmetic (R142 P4). -/
def Obligations.ShapesAreBounded : Prop :=
  ∀ phase duty s : ℝ, 0 ≤ phase → phase < 2 * Real.pi → 0 ≤ duty → duty ≤ 1 → 0 ≤ s → s ≤ 1 →
    ∀ cfg : Cfg ℝ, cfg.shapeFn = Real.sin →
      (∀ sel, sel ≤ 5 → |waveValue arithReal cfg sel phase duty| ≤ 1) ∧
      |lfoMorph arithReal cfg (waveTri arithReal phase duty) s| ≤ 1

/-- At duty one half the fully morphed triangle is a pure sinusoid with its minimum at phase 0 (R142 P3). -/
def Obligations.MorphIsCosine : Prop :=
  ∀ (phase : ℝ) (cfg : Cfg ℝ), 0 ≤ phase → phase < 2 * Real.pi → cfg.shapeFn = Real.sin →
    lfoMorph arithReal cfg (waveTri arithReal phase (1 / 2)) 1 = -Real.cos phase

/-- The two testable properties of the delay line (R168), in the reference arithmetic: at tap 0 the delay returns the sample just
pushed; at the largest tap `n - 1` the oldest retained one, or 0 while the line is not full. -/
def Obligations.DelayLineTaps : Prop :=
  ∀ (dl : List ℝ) (x : ℝ) (n : Nat), 1 ≤ n →
    delayLine arithReal dl 0 x n = some ((x :: dl).take n, x) ∧
    delayLine arithReal dl ((n : ℝ) - 1) x n =
      some ((x :: dl).take n, if n ≤ dl.length + 1 then (x :: dl).getD (n - 1) 0 else 0)

/-- The interpolated read is a convex combination (R173), in the reference arithmetic: for a tap of at least 0 its magnitude is at
most any bound on the cells. -/
def Obligations.DelayReadIsConvex : Prop :=
  ∀ (dl : List ℝ) (t M : ℝ), 0 ≤ t → 0 ≤ M → (∀ v ∈ dl, |v| ≤ M) →
    ∃ y, delayRead arithReal dl t = some y ∧ |y| ≤ M

/-- I8 of R41 in the reference arithmetic: processing a sample leaves every cell of the line strictly inside the limit. -/
def Obligations.CellsStayInsideLimit : Prop :=
  ∀ (cfg : Cfg ℝ) (g : ChannelInputs ℝ) (ch ch' : ChannelState ℝ) (x out : ℝ), 0 < cfg.limit →
    (∀ v ∈ ch.dl, |v| < cfg.limit) → channelTransform arithReal cfg g ch x = some (ch', out) →
    ∀ v ∈ ch'.dl, |v| < cfg.limit

/-! ## The host's mapping -/

/-- Round trip of the host's mapping (R275), exactly, in real arithmetic, for all seven parameters. -/
def Obligations.HostMappingRoundTrip : Prop :=
  ∀ (fMin fMax v : ℝ) (p : Param), 0 < fMin → fMin < fMax → 0 ≤ v → v ≤ 1 →
    inverseMap arithReal (hostReal fMin fMax) p (forwardMap arithReal (hostReal fMin fMax) p v) = v
end

