-- ==== Sys2Proof/Laws/ArithReal.lean ====
section
/-! SUPPORT. The operations of the reference instance, one lemma each, so that a proof over `arithReal` reads as one over the reals. -/

namespace Sys2Proof

/-- Off zero the quotient is the exact one (R106); at zero nothing is known of it (entry 29). -/
theorem divReal_of_ne {b : ℝ} (a : ℝ) (h : b ≠ 0) : divReal a b = a / b := if_neg h

/-- On the domain of R105 the remainder is the exact one; outside it nothing is known of it (entry 5). -/
theorem fmodReal_of_domain {a b : ℝ} (ha : 0 ≤ a) (hb : 0 < b) : fmodReal a b = a - b * (⌊a / b⌋ : ℝ) := if_pos ⟨ha, hb⟩

@[simp] theorem arithReal_add (a b : ℝ) : arithReal.add a b = a + b := rfl
@[simp] theorem arithReal_sub (a b : ℝ) : arithReal.sub a b = a - b := rfl
@[simp] theorem arithReal_mul (a b : ℝ) : arithReal.mul a b = a * b := rfl
@[simp] theorem arithReal_div (a b : ℝ) : arithReal.div a b = divReal a b := rfl
@[simp] theorem arithReal_neg (a : ℝ) : arithReal.neg a = -a := rfl
@[simp] theorem arithReal_abs (a : ℝ) : arithReal.abs a = |a| := rfl
@[simp] theorem arithReal_lt (a b : ℝ) : (arithReal.lt a b = true) ↔ a < b := decide_eq_true_iff
@[simp] theorem arithReal_le (a b : ℝ) : (arithReal.le a b = true) ↔ a ≤ b := decide_eq_true_iff
@[simp] theorem arithReal_isFinite (a : ℝ) : arithReal.isFinite a = true := rfl
@[simp] theorem arithReal_fmod (a b : ℝ) : arithReal.fmod a b = fmodReal a b := rfl
@[simp] theorem arithReal_ifloor (a : ℝ) : arithReal.ifloor a = some ⌊a⌋ := rfl
@[simp] theorem arithReal_num (i : Int) : arithReal.num i = (i : ℝ) := rfl
@[simp] theorem arithReal_zero : arithReal.zero = 0 := rfl
@[simp] theorem arithReal_half : arithReal.half = 1 / 2 := rfl
@[simp] theorem arithReal_one : arithReal.one = 1 := rfl
@[simp] theorem arithReal_two : arithReal.two = 2 := rfl
@[simp] theorem arithReal_negOne : arithReal.negOne = -1 := rfl
@[simp] theorem arithReal_pi : arithReal.pi = Real.pi := rfl
@[simp] theorem arithReal_twoPi : arithReal.twoPi = 2 * Real.pi := rfl
@[simp] theorem arithReal_halfPi : arithReal.halfPi = Real.pi / 2 := rfl

end Sys2Proof
end

