-- ==== Sys2Proof/Laws/F64.lean ====
section
/-! SUPPORT. The fields of a pattern, the quanta of a magnitude, and the one rounding: exact on representable values, monotone,
nearest. -/

namespace Sys2Proof.F64

/-! ## Fields -/

theorem magBits_lt (x : Num64) : magBits x < 0x8000000000000000 := Nat.mod_lt _ (by decide)

theorem signBit_eq (x : Num64) : signBit x = decide (0x8000000000000000 ≤ x.toNat) := by
  simp [signBit, BitVec.msb_eq_decide]

/-- A pattern is its sign and its magnitude. -/
theorem pack_fields (x : Num64) : pack (signBit x) (magBits x) = x := by
  apply BitVec.eq_of_toNat_eq
  have hx := x.isLt
  rw [signBit_eq]
  unfold pack magBits
  by_cases h : 0x8000000000000000 ≤ x.toNat
  · simp only [h, decide_true, if_true, BitVec.toNat_ofNat]; omega
  · simp only [h, decide_false, BitVec.toNat_ofNat, Bool.false_eq_true, if_false]; omega

@[simp] theorem magBits_pack (n : Bool) {m : Nat} (h : m < 0x8000000000000000) : magBits (pack n m) = m := by
  unfold magBits pack
  rw [BitVec.toNat_ofNat]
  cases n <;> simp only [Bool.false_eq_true, if_false, if_true] <;> omega

@[simp] theorem signBit_pack (n : Bool) {m : Nat} (h : m < 0x8000000000000000) : signBit (pack n m) = n := by
  rw [signBit_eq]
  unfold pack
  rw [BitVec.toNat_ofNat]
  cases n <;> simp only [Bool.false_eq_true, if_false, if_true, decide_eq_true_eq, decide_eq_false_iff_not] <;> omega

/-- A pattern is determined by its sign and magnitude. -/
theorem ext_fields {x y : Num64} (hs : signBit x = signBit y) (hm : magBits x = magBits y) : x = y := by
  rw [← pack_fields x, ← pack_fields y, hs, hm]

theorem magBits_eq_setWidth (x : Num64) : magBits x = (x.setWidth 63).toNat := by
  rw [BitVec.toNat_setWidth]; rfl

/-- `-a` flips the sign bit (R102). -/
@[simp] theorem signBit_neg (x : Num64) : signBit (neg x) = !signBit x := by
  have h : (0x8000000000000000#64).msb = true := by decide
  simp only [signBit, neg, BitVec.msb_xor, h, Bool.xor_true]

@[simp] theorem magBits_neg (x : Num64) : magBits (neg x) = magBits x := by
  rw [magBits_eq_setWidth, magBits_eq_setWidth, neg, BitVec.setWidth_xor]
  simp

/-- `abs(a)` clears the sign bit (R102). -/
@[simp] theorem signBit_abs (x : Num64) : signBit (abs x) = false := by
  have h : (0x7FFFFFFFFFFFFFFF#64).msb = false := by decide
  simp only [signBit, abs, BitVec.msb_and, h, Bool.and_false]

@[simp] theorem magBits_abs (x : Num64) : magBits (abs x) = magBits x := by
  rw [magBits_eq_setWidth, magBits_eq_setWidth, abs, BitVec.setWidth_and]
  have : (0x7FFFFFFFFFFFFFFF#64).setWidth 63 = BitVec.allOnes 63 := by decide
  rw [this, BitVec.and_allOnes]

@[simp] theorem neg_neg (x : Num64) : neg (neg x) = x := ext_fields (by simp) (by simp)

/-- The classes depend on the magnitude alone. -/
@[simp] theorem isNaN_neg (x : Num64) : isNaN (neg x) = isNaN x := by simp [isNaN]
@[simp] theorem isInf_neg (x : Num64) : isInf (neg x) = isInf x := by simp [isInf]
@[simp] theorem isFinite_neg (x : Num64) : isFinite (neg x) = isFinite x := by simp [isFinite]
@[simp] theorem isZero_neg (x : Num64) : isZero (neg x) = isZero x := by simp [isZero]
@[simp] theorem quanta_neg (x : Num64) : quanta (neg x) = quanta x := by simp [quanta]
@[simp] theorem toInt_neg (x : Num64) : toInt (neg x) = -toInt x := by
  cases h : signBit x <;> simp [toInt, h]
@[simp] theorem key_neg (x : Num64) : key (neg x) = -key x := by
  cases h : signBit x <;> simp [key, h]

/-- A finite value is neither a NaN nor an infinity. -/
theorem not_nan_of_finite {x : Num64} (h : isFinite x = true) : isNaN x = false ∧ isInf x = false := by
  simp only [isFinite, isNaN, isInf, decide_eq_true_eq, decide_eq_false_iff_not] at h ⊢
  omega

/-! ## Quanta -/

/-- The quanta of a pattern written as binade and offset: `m` steps of `2^e`, for `m` inside the binade. -/
theorem quantaOf_split (frac e m : Nat) (hm : m < 2 ^ (frac + 1)) (he : e = 0 ∨ 2 ^ frac ≤ m) :
    quantaOf frac (e * 2 ^ frac + m) = m * 2 ^ e := by
  have hp : 0 < 2 ^ frac := Nat.two_pow_pos _
  have h2 : 2 ^ (frac + 1) = 2 * 2 ^ frac := by rw [Nat.pow_succ]; omega
  by_cases hlt : m < 2 ^ frac
  · obtain rfl : e = 0 := by omega
    simp [quantaOf, Nat.div_eq_of_lt hlt]
  · have hdiv : (e * 2 ^ frac + m) / 2 ^ frac = e + 1 := by
      have h1 : m / 2 ^ frac = 1 := Nat.div_eq_of_lt_le (by omega) (by omega)
      rw [Nat.add_comm, Nat.add_mul_div_right _ _ hp, h1, Nat.add_comm]
    have hmod : (e * 2 ^ frac + m) % 2 ^ frac = m - 2 ^ frac := by
      rw [Nat.add_comm, Nat.add_mul_mod_self_right, Nat.mod_eq_sub_mod (by omega), Nat.mod_eq_of_lt (by omega)]
    simp only [quantaOf, hdiv, hmod]
    rw [if_neg (by omega), show e + 1 - 1 = e by omega, show 2 ^ frac + (m - 2 ^ frac) = m by omega]

/-- Every pattern is a binade and an offset. -/
theorem pattern_split (frac mag : Nat) :
    ∃ e m, mag = e * 2 ^ frac + m ∧ m < 2 ^ (frac + 1) ∧ (e = 0 ∨ 2 ^ frac ≤ m) := by
  have hp : 0 < 2 ^ frac := Nat.two_pow_pos _
  have h2 : 2 ^ (frac + 1) = 2 * 2 ^ frac := by rw [Nat.pow_succ]; omega
  have hlt := Nat.mod_lt mag hp
  have hdm := Nat.div_add_mod mag (2 ^ frac)
  by_cases h0 : mag / 2 ^ frac = 0
  · refine ⟨0, mag, by omega, ?_, .inl rfl⟩
    rw [h0] at hdm; omega
  · obtain ⟨k, hk⟩ : ∃ k, mag / 2 ^ frac = k + 1 := Nat.exists_eq_succ_of_ne_zero h0
    rw [hk, Nat.mul_add, Nat.mul_comm, Nat.mul_one] at hdm
    generalize mag % 2 ^ frac = r at *
    exact ⟨k, 2 ^ frac + r, by omega, by omega, .inr (by omega)⟩

/-- The next pattern has more quanta: one step of the binade. -/
theorem quantaOf_succ (frac e m : Nat) (hm : m < 2 ^ (frac + 1)) (he : e = 0 ∨ 2 ^ frac ≤ m) :
    quantaOf frac (e * 2 ^ frac + m + 1) = (m + 1) * 2 ^ e := by
  have hp : 0 < 2 ^ frac := Nat.two_pow_pos _
  have h2 : 2 ^ (frac + 1) = 2 * 2 ^ frac := by rw [Nat.pow_succ]; omega
  by_cases hlt : m + 1 < 2 ^ (frac + 1)
  · rw [show e * 2 ^ frac + m + 1 = e * 2 ^ frac + (m + 1) by omega]
    exact quantaOf_split frac e (m + 1) hlt (by omega)
  · have hm1 : m + 1 = 2 * 2 ^ frac := by omega
    rw [show e * 2 ^ frac + m + 1 = (e + 1) * 2 ^ frac + 2 ^ frac by rw [Nat.add_mul]; omega,
      quantaOf_split frac (e + 1) (2 ^ frac) (by omega) (.inr (Nat.le_refl _)), hm1, Nat.pow_succ]
    ring

/-- More pattern, more quanta. -/
theorem quantaOf_strictMono (frac : Nat) : StrictMono (quantaOf frac) := by
  refine strictMono_nat_of_lt_succ fun mag => ?_
  obtain ⟨e, m, rfl, hm, he⟩ := pattern_split frac mag
  rw [quantaOf_split frac e m hm he, quantaOf_succ frac e m hm he]
  exact Nat.mul_lt_mul_of_pos_right (Nat.lt_succ_self m) (Nat.two_pow_pos e)

/-- A finite magnitude is below `2^2098` quanta, which is `2^1024`. -/
theorem quanta_lt (x : Num64) (h : isFinite x = true) : quanta x < 2 ^ 2098 := by
  simp only [isFinite, decide_eq_true_eq] at h
  have := quantaOf_strictMono 52 h
  have e : quantaOf 52 infMag = 2 ^ 2098 := by decide +kernel
  rwa [e] at this

theorem quanta_eq_zero (x : Num64) : quanta x = 0 ↔ magBits x = 0 := by
  have h0 : quantaOf 52 0 = 0 := by decide
  constructor
  · intro h
    exact (quantaOf_strictMono 52).injective (h.trans h0.symm)
  · intro h
    simp [quanta, h, h0]

/-! ## The one rounding -/

/-- All that the rounding does: a binade `e` and an offset `m` with the exact value between `m` and `m + 1` steps, and of the two
the nearer, the even one when they are equally near (R101). -/
theorem roundMag_spec (frac p q : Nat) (hq : 0 < q) :
    ∃ e m, m < 2 ^ (frac + 1) ∧ (e = 0 ∨ 2 ^ frac ≤ m) ∧ m * 2 ^ e * q ≤ p ∧ p < (m + 1) * 2 ^ e * q ∧
      ((roundMag frac p q = e * 2 ^ frac + m ∧
          (2 * p < (2 * m + 1) * 2 ^ e * q ∨ (2 * p = (2 * m + 1) * 2 ^ e * q ∧ m % 2 = 0))) ∨
       (roundMag frac p q = e * 2 ^ frac + m + 1 ∧
          ((2 * m + 1) * 2 ^ e * q < 2 * p ∨ (2 * p = (2 * m + 1) * 2 ^ e * q ∧ m % 2 = 1)))) := by
  have hp : 0 < 2 ^ frac := Nat.two_pow_pos _
  have h2 : 2 ^ (frac + 1) = 2 * 2 ^ frac := by rw [Nat.pow_succ]; omega
  generalize hn : p / q = n
  generalize he : n.log2 - frac = e
  have hd : 0 < q * 2 ^ e := Nat.mul_pos hq (Nat.two_pow_pos e)
  have hm : p / (q * 2 ^ e) = n / 2 ^ e := by rw [← hn, Nat.div_div_eq_div_mul]
  have hdm := Nat.div_add_mod p (q * 2 ^ e)
  have hr := Nat.mod_lt p hd
  have hroot : roundMag frac p q = e * 2 ^ frac +
      (if q * 2 ^ e < 2 * (p % (q * 2 ^ e)) ∨ (2 * (p % (q * 2 ^ e)) = q * 2 ^ e ∧ p / (q * 2 ^ e) % 2 = 1)
        then p / (q * 2 ^ e) + 1 else p / (q * 2 ^ e)) := by
    simp only [roundMag, hn, he]
  generalize hmm : p / (q * 2 ^ e) = m at *
  generalize hrr : p % (q * 2 ^ e) = r at *
  refine ⟨e, m, ?_, ?_, ?_, ?_, ?_⟩
  · rw [hm, Nat.div_lt_iff_lt_mul (Nat.two_pow_pos e), ← Nat.pow_add]
    refine Nat.lt_of_lt_of_le Nat.lt_log2_self ?_
    exact Nat.pow_le_pow_right (by decide) (by omega)
  · by_cases h0 : e = 0
    · exact .inl h0
    · right
      rw [hm, Nat.le_div_iff_mul_le (Nat.two_pow_pos e), ← Nat.pow_add]
      have hne : n ≠ 0 := by
        rintro rfl
        simp at he
        omega
      have := Nat.log2_self_le hne
      rwa [show frac + e = n.log2 by omega]
  · nlinarith
  · nlinarith
  · rw [hroot]
    have e1 : (2 * m + 1) * 2 ^ e * q = 2 * (q * 2 ^ e * m) + q * 2 ^ e := by ring
    rw [e1]
    split
    · rename_i h
      exact .inr ⟨by omega, by omega⟩
    · rename_i h
      exact .inl ⟨rfl, by omega⟩

/-- A representable value is kept (R101, R105, R117, R120). -/
theorem roundMag_exact (frac mag q : Nat) (hq : 0 < q) : roundMag frac (quantaOf frac mag * q) q = mag := by
  obtain ⟨e, m, hm, he, hlo, hhi, hr⟩ := roundMag_spec frac (quantaOf frac mag * q) q hq
  have h1 : quantaOf frac (e * 2 ^ frac + m) ≤ quantaOf frac mag := by
    rw [quantaOf_split frac e m hm he]
    exact Nat.le_of_mul_le_mul_right hlo hq
  have h2 : quantaOf frac mag < quantaOf frac (e * 2 ^ frac + m + 1) := by
    rw [quantaOf_succ frac e m hm he]
    exact Nat.lt_of_mul_lt_mul_right hhi
  have h3 := (quantaOf_strictMono frac).le_iff_le.mp h1
  have h4 := (quantaOf_strictMono frac).lt_iff_lt.mp h2
  have hmag : mag = e * 2 ^ frac + m := by omega
  have hqe : quantaOf frac mag = m * 2 ^ e := by rw [hmag, quantaOf_split frac e m hm he]
  have hpos : 0 < 2 ^ e * q := Nat.mul_pos (Nat.two_pow_pos e) hq
  rcases hr with ⟨h, -⟩ | ⟨-, h⟩
  · rw [h, hmag]
  · exfalso
    rw [hqe] at h
    have e1 : (2 * m + 1) * 2 ^ e * q = 2 * (m * 2 ^ e * q) + 2 ^ e * q := by ring
    omega

/-- The result is the representable value nearest the exact one (R101): no other is nearer. -/
theorem roundMag_nearest (frac p q z : Nat) (hq : 0 < q) :
    |((quantaOf frac (roundMag frac p q) * q : Nat) : Int) - p| ≤ |((quantaOf frac z * q : Nat) : Int) - p| := by
  obtain ⟨e, m, hm, he, hlo, hhi, hr⟩ := roundMag_spec frac p q hq
  have hl := quantaOf_split frac e m hm he
  have hu := quantaOf_succ frac e m hm he
  have hz : quantaOf frac z ≤ m * 2 ^ e ∨ (m + 1) * 2 ^ e ≤ quantaOf frac z := by
    rw [← hl, ← hu, (quantaOf_strictMono frac).le_iff_le, (quantaOf_strictMono frac).le_iff_le]
    omega
  have hz' : quantaOf frac z * q ≤ m * 2 ^ e * q ∨ (m + 1) * 2 ^ e * q ≤ quantaOf frac z * q :=
    hz.imp (Nat.mul_le_mul_right q) (Nat.mul_le_mul_right q)
  have e1 : (2 * m + 1) * 2 ^ e * q = m * 2 ^ e * q + (m + 1) * 2 ^ e * q := by ring
  rw [e1] at hr
  generalize quantaOf frac z * q = Z at *
  rcases hr with ⟨h, hc⟩ | ⟨h, hc⟩
  · rw [h, hl]
    generalize m * 2 ^ e * q = L at *
    generalize (m + 1) * 2 ^ e * q = U at *
    rw [abs_le]; constructor <;> (rcases abs_cases ((Z : Int) - p) with ⟨ha, _⟩ | ⟨ha, _⟩ <;> rw [ha] <;> omega)
  · rw [h, hu]
    generalize m * 2 ^ e * q = L at *
    generalize (m + 1) * 2 ^ e * q = U at *
    rw [abs_le]; constructor <;> (rcases abs_cases ((Z : Int) - p) with ⟨ha, _⟩ | ⟨ha, _⟩ <;> rw [ha] <;> omega)

/-- A larger exact value does not round below a smaller one. -/
theorem roundMag_mono (frac p q p' q' : Nat) (hq : 0 < q) (hq' : 0 < q') (h : p * q' ≤ p' * q) :
    roundMag frac p q ≤ roundMag frac p' q' := by
  obtain ⟨e, m, hm, he, hlo, hhi, hr⟩ := roundMag_spec frac p q hq
  obtain ⟨e', m', hm', he', hlo', hhi', hr'⟩ := roundMag_spec frac p' q' hq'
  have hle : e * 2 ^ frac + m < e' * 2 ^ frac + m' + 1 := by
    rw [← (quantaOf_strictMono frac).lt_iff_lt, quantaOf_split frac e m hm he, quantaOf_succ frac e' m' hm' he']
    have h1 : m * 2 ^ e * q * q' ≤ p * q' := Nat.mul_le_mul_right q' hlo
    have h2 : p' * q < (m' + 1) * 2 ^ e' * q' * q := Nat.mul_lt_mul_of_pos_right hhi' hq
    have h3 : m * 2 ^ e * (q * q') < (m' + 1) * 2 ^ e' * (q * q') := by
      calc m * 2 ^ e * (q * q') = m * 2 ^ e * q * q' := by ring
        _ ≤ p * q' := h1
        _ ≤ p' * q := h
        _ < (m' + 1) * 2 ^ e' * q' * q := h2
        _ = _ := by ring
    exact Nat.lt_of_mul_lt_mul_right h3
  by_cases heq : e * 2 ^ frac + m = e' * 2 ^ frac + m'
  · -- the same binade and offset: only the halfway test differs
    have hem : m * 2 ^ e = m' * 2 ^ e' := by
      rw [← quantaOf_split frac e m hm he, ← quantaOf_split frac e' m' hm' he', heq]
    have hem1 : (m + 1) * 2 ^ e = (m' + 1) * 2 ^ e' := by
      rw [← quantaOf_succ frac e m hm he, ← quantaOf_succ frac e' m' hm' he', heq]
    have h2e : 2 ^ e = 2 ^ e' := by
      have a : (m + 1) * 2 ^ e = m * 2 ^ e + 2 ^ e := by ring
      have b : (m' + 1) * 2 ^ e' = m' * 2 ^ e' + 2 ^ e' := by ring
      omega
    obtain rfl : e = e' := Nat.pow_right_injective (Nat.le_refl 2) h2e
    obtain rfl : m = m' := by omega
    rcases hr with ⟨hr, hc⟩ | ⟨hr, hc⟩ <;> rcases hr' with ⟨hr', hc'⟩ | ⟨hr', hc'⟩ <;> rw [hr, hr'] <;>
      first
        | omega
        | (exfalso
           have h1 : (2 * m + 1) * 2 ^ e * q * q' ≤ 2 * p * q' := Nat.mul_le_mul_right q' (by omega)
           have h2 : 2 * p' * q ≤ (2 * m + 1) * 2 ^ e * q' * q := Nat.mul_le_mul_right q (by omega)
           have e1 : (2 * m + 1) * 2 ^ e * q' * q = (2 * m + 1) * 2 ^ e * q * q' := by ring
           have hc1 : (2 * m + 1) * 2 ^ e * q * q' < 2 * p * q' ∨ 2 * p' * q < (2 * m + 1) * 2 ^ e * q' * q := by
             rcases hc with hc | hc
             · exact .inl (Nat.mul_lt_mul_of_pos_right hc hq')
             · rcases hc' with hc' | hc'
               · exact .inr (Nat.mul_lt_mul_of_pos_right hc' hq)
               · omega
           have h4 : 2 * p * q' ≤ 2 * p' * q := by
             calc 2 * p * q' = 2 * (p * q') := by ring
               _ ≤ 2 * (p' * q) := Nat.mul_le_mul_left 2 h
               _ = _ := by ring
           omega)
  · rcases hr with ⟨hr, -⟩ | ⟨hr, -⟩ <;> rcases hr' with ⟨hr', -⟩ | ⟨hr', -⟩ <;> omega

/-- A quotient below `2^1023` rounds to a finite value. -/
theorem ofRatio_finite (neg : Bool) {p q : Nat} (hq : 0 < q) (h : p < q * 2 ^ 2097) :
    isFinite (ofRatio neg p q) = true := by
  have hi : quantaOf 52 (infMag - 0x10000000000000) = 2 ^ 2097 := by decide +kernel
  have hle : roundMag 52 p q ≤ infMag - 0x10000000000000 := by
    have := roundMag_mono 52 p q (quantaOf 52 (infMag - 0x10000000000000) * q) q hq hq
      (by rw [hi]; exact Nat.mul_le_mul_right q (by rw [Nat.mul_comm]; exact Nat.le_of_lt h))
    rwa [roundMag_exact 52 _ q hq] at this
  have hlt : min (roundMag 52 p q) infMag < infMag := by
    have : infMag - 0x10000000000000 < infMag := by decide
    omega
  have hb : infMag < 0x8000000000000000 := by decide
  have hmag : magBits (ofRatio neg p q) = min (roundMag 52 p q) infMag := magBits_pack _ (by omega)
  unfold isFinite
  exact decide_eq_true (hmag ▸ hlt)

/-- A representable value not above the exact one is not above the rounded one. -/
theorem le_roundMag {frac m p q : Nat} (hq : 0 < q) (h : quantaOf frac m * q ≤ p) : m ≤ roundMag frac p q := by
  have := roundMag_mono frac (quantaOf frac m * q) q p q hq hq (Nat.mul_le_mul_right q h)
  rwa [roundMag_exact frac m q hq] at this

/-- A representable value not below the exact one is not below the rounded one. -/
theorem roundMag_le {frac m p q : Nat} (hq : 0 < q) (h : p ≤ quantaOf frac m * q) : roundMag frac p q ≤ m := by
  have := roundMag_mono frac p q (quantaOf frac m * q) q hq hq (Nat.mul_le_mul_right q h)
  rwa [roundMag_exact frac m q hq] at this

theorem infMag_lt : infMag < 0x8000000000000000 := by decide

@[simp] theorem signBit_ofRatio (neg : Bool) (p q : Nat) : signBit (ofRatio neg p q) = neg :=
  signBit_pack _ (Nat.lt_of_le_of_lt (Nat.min_le_right _ _) infMag_lt)

@[simp] theorem magBits_ofRatio (neg : Bool) (p q : Nat) : magBits (ofRatio neg p q) = min (roundMag 52 p q) infMag :=
  magBits_pack _ (Nat.lt_of_le_of_lt (Nat.min_le_right _ _) infMag_lt)

/-- The rounding of a number never makes a NaN. -/
@[simp] theorem isNaN_ofRatio (neg : Bool) (p q : Nat) : isNaN (ofRatio neg p q) = false := by
  simp only [isNaN, magBits_ofRatio, decide_eq_false_iff_not]; omega

/-- A NaN an operation makes is a NaN, whatever its sign and payload (R110). -/
@[simp] theorem isNaN_nan (op : ArithOp) (a b : Num64) : isNaN (nan op a b) = true := by
  unfold nan
  generalize Config.freeNaN op a b = r
  have hp : (r.extractLsb' 0 51).toNat < 2 ^ 51 := BitVec.isLt _
  have h : (quietNaN r).toNat = (r.extractLsb' 51 1).toNat * 2 ^ 63 + 0xFFF * 2 ^ 51 + (r.extractLsb' 0 51).toNat := by
    unfold quietNaN
    rw [BitVec.toNat_append, BitVec.toNat_append, ← Nat.shiftLeft_add_eq_or_of_lt hp,
      ← Nat.shiftLeft_add_eq_or_of_lt (BitVec.isLt _), Nat.shiftLeft_eq, Nat.shiftLeft_eq]
    simp only [BitVec.toNat_ofNat]
    omega
  simp only [isNaN, magBits, h, infMag, decide_eq_true_eq]
  omega

/-- A NaN operand gives a NaN (R110). -/
theorem isNaN_add {a b : Num64} (h : isNaN a = true ∨ isNaN b = true) : isNaN (add a b) = true := by
  unfold add addAs
  rw [if_pos (by simpa using h), isNaN_nan]

/-- A NaN operand gives a NaN (R110). -/
theorem isNaN_mul {a b : Num64} (h : isNaN a = true ∨ isNaN b = true) : isNaN (mul a b) = true := by
  unfold mul
  rw [if_pos (by simpa using h), isNaN_nan]

/-- A NaN is not below anything and nothing is below it (R102). -/
theorem lt_of_isNaN {a b : Num64} (h : isNaN a = true ∨ isNaN b = true) : lt a b = false := by
  rcases h with h | h <;> simp [lt, h]

/-- A NaN is not finite. -/
theorem not_finite_of_nan {x : Num64} (h : isNaN x = true) : isFinite x = false := by
  simp only [isNaN, isFinite, decide_eq_true_eq, decide_eq_false_iff_not] at *; omega

/-- A value that is no NaN is finite or an infinity. -/
theorem finite_or_inf {x : Num64} (h : isNaN x = false) : isFinite x = true ∨ isInf x = true := by
  simp only [isNaN, isFinite, isInf, decide_eq_true_eq, decide_eq_false_iff_not] at *; omega

/-- The value 0 is below a value exactly when that is no NaN, positive and no zero. -/
theorem lt_zero_iff (x : Num64) : lt 0#64 x = true ↔ isNaN x = false ∧ signBit x = false ∧ magBits x ≠ 0 := by
  have h0 : key 0#64 = 0 := by decide
  have hn : isNaN 0#64 = false := by decide
  simp only [lt, hn, h0, Bool.not_false, Bool.true_and, Bool.and_eq_true, Bool.not_eq_true', decide_eq_true_eq]
  have hm : 0 < key x ↔ signBit x = false ∧ magBits x ≠ 0 := by
    cases hs : signBit x
    · have : key x = magBits x := by simp [key, hs]
      rw [this]; simp; omega
    · have : key x = -(magBits x : Int) := by simp [key, hs]
      rw [this]; simp
  rw [hm]

theorem one1074_pos : 0 < one1074 := by unfold one1074; exact Nat.two_pow_pos _

/-- The product of finite values is the rounded product (R101). -/
theorem mul_finite {a b : Num64} (ha : isFinite a = true) (hb : isFinite b = true) :
    mul a b = ofRatio (signBit a != signBit b) (quanta a * quanta b) one1074 := by
  simp [mul, not_nan_of_finite ha, not_nan_of_finite hb]

/-- The quotient of finite values is the rounded quotient (R101). -/
theorem div_finite {a b : Num64} (ha : isFinite a = true) (hb : isFinite b = true) (hz : magBits b ≠ 0) :
    div a b = ofRatio (signBit a != signBit b) (quanta a * one1074) (quanta b) := by
  simp [div, not_nan_of_finite ha, not_nan_of_finite hb, isZero, hz]

/-- The sum of finite positive values is the rounded sum (R101). -/
theorem add_finite_pos {a b : Num64} (ha : isFinite a = true) (hb : isFinite b = true) (sa : signBit a = false)
    (sb : signBit b = false) (hz : quanta a + quanta b ≠ 0) : add a b = ofRatio false (quanta a + quanta b) 1 := by
  have hi : toInt a + toInt b = ((quanta a + quanta b : Nat) : Int) := by simp [toInt, sa, sb]
  have h0 : ¬ ((quanta a + quanta b : Nat) : Int) = 0 := by exact_mod_cast hz
  simp only [add, addAs, not_nan_of_finite ha, not_nan_of_finite hb, Bool.or_self, Bool.false_eq_true, if_false, addFinite, hi, h0]
  rw [Int.natAbs_natCast, decide_eq_false (by omega)]

/-- Half a finite value is finite. -/
theorem mul_half_finite {x : Num64} (h : isFinite x = true) : isFinite (mul half x) = true := by
  have hh : isFinite half = true := by decide
  have hq : quanta half = 2 ^ 1073 := by decide +kernel
  rw [mul_finite hh h]
  refine ofRatio_finite _ one1074_pos ?_
  have hx := quanta_lt x h
  have e : one1074 * 2 ^ 2097 = 2 ^ 1073 * 2 ^ 2098 := by unfold one1074; rw [← Nat.pow_add, ← Nat.pow_add]
  rw [hq, e]
  exact Nat.mul_lt_mul_of_pos_left hx (Nat.two_pow_pos 1073)

end Sys2Proof.F64
end

