-- ==== Sys2Proof/Laws/Coef.lean ====
section
/-! SUPPORT. At a large enough rate every one-pole coefficient of a legal time constant is a finite number, whatever the design. -/

namespace Sys2Proof.Machine

open Sys2Proof.F64

/-- Dividing 1 by a positive value of at least `2^-51` (in quanta, `2^1023`), or by `+inf`, and mapping `g` to `g / (1 + g)` stays
finite and not negative. -/
theorem coef_finite_of_divisor {d : Num64} (hn : isNaN d = false) (hs : signBit d = false)
    (hd : isFinite d = true → 2 ^ 1023 ≤ quanta d) :
    isFinite (div (div one d) (add one (div one d))) = true ∧ signBit (div (div one d) (add one (div one d))) = false := by
  have h1 : isFinite one = true := by decide
  have hone : quanta one = 2 ^ 1074 := by decide +kernel
  have hmid : quantaOf 52 0x44E0000000000000 = 2 ^ 1153 := by decide +kernel
  rcases finite_or_inf hn with hf | hi
  · have hq := hd hf
    have hz : magBits d ≠ 0 := by
      intro h
      rw [(quanta_eq_zero d).mpr h] at hq
      exact absurd hq (Nat.not_le.mpr (Nat.two_pow_pos 1023))
    have hdpos : 0 < quanta d := Nat.lt_of_lt_of_le (Nat.two_pow_pos 1023) hq
    have hg : div one d = ofRatio false (quanta one * one1074) (quanta d) := by
      rw [div_finite h1 hf hz, hs]; rfl
    have hgr : roundMag 52 (quanta one * one1074) (quanta d) ≤ 0x44E0000000000000 := by
      refine roundMag_le hdpos ?_
      rw [hone, hmid]
      unfold one1074
      calc 2 ^ 1074 * 2 ^ 1074 = 2 ^ 1125 * 2 ^ 1023 := by rw [← Nat.pow_add, ← Nat.pow_add]
        _ ≤ 2 ^ 1153 * quanta d := Nat.mul_le_mul (Nat.pow_le_pow_right (by decide) (by decide)) hq
    have hgm : magBits (div one d) = roundMag 52 (quanta one * one1074) (quanta d) := by
      rw [hg, magBits_ofRatio]
      have : (0x44E0000000000000 : Nat) < infMag := by decide
      omega
    have hgf : isFinite (div one d) = true := by
      have : (0x44E0000000000000 : Nat) < infMag := by decide
      unfold isFinite
      exact decide_eq_true (by omega)
    have hgs : signBit (div one d) = false := by rw [hg, signBit_ofRatio]
    have hgq : quanta (div one d) ≤ 2 ^ 1153 := by
      have := (quantaOf_strictMono 52).monotone (hgm ▸ hgr)
      rwa [hmid] at this
    generalize div one d = g at *
    have hpos : quanta one + quanta g ≠ 0 := by
      rw [hone]; exact Nat.ne_of_gt (Nat.lt_of_lt_of_le (Nat.two_pow_pos 1074) (Nat.le_add_right _ _))
    have hsum : add one g = ofRatio false (quanta one + quanta g) 1 := add_finite_pos h1 hgf (by decide) hgs hpos
    have hsf : isFinite (add one g) = true := by
      rw [hsum]
      refine ofRatio_finite _ Nat.one_pos ?_
      rw [hone, Nat.one_mul]
      calc 2 ^ 1074 + quanta g ≤ 2 ^ 1153 + 2 ^ 1153 :=
            Nat.add_le_add (Nat.pow_le_pow_right (by decide) (by decide)) hgq
        _ = 2 ^ 1154 := by rw [← Nat.two_mul, ← Nat.pow_succ']
        _ < 2 ^ 2097 := Nat.pow_lt_pow_right (by decide) (by decide)
    have hsm : (0x3FF0000000000000 : Nat) ≤ magBits (add one g) := by
      have h : (0x3FF0000000000000 : Nat) ≤ roundMag 52 (quanta one + quanta g) 1 := by
        refine le_roundMag Nat.one_pos ?_
        rw [show quantaOf 52 0x3FF0000000000000 = quanta one from rfl, Nat.mul_one]
        exact Nat.le_add_right _ _
      rw [hsum, magBits_ofRatio]
      have : (0x3FF0000000000000 : Nat) ≤ infMag := by decide
      omega
    have hsq : 2 ^ 1074 ≤ quanta (add one g) := by
      have := (quantaOf_strictMono 52).monotone hsm
      rwa [show quantaOf 52 0x3FF0000000000000 = 2 ^ 1074 from hone] at this
    have hss : signBit (add one g) = false := by rw [hsum, signBit_ofRatio]
    generalize add one g = u at *
    rw [div_finite hgf hsf (by omega), hgs, hss]
    refine ⟨ofRatio_finite _ (Nat.lt_of_lt_of_le (Nat.two_pow_pos 1074) hsq) ?_, by rw [signBit_ofRatio]; rfl⟩
    calc quanta g * one1074 ≤ 2 ^ 1153 * quanta u := Nat.mul_le_mul hgq hsq
      _ < 2 ^ 2097 * quanta u :=
          Nat.mul_lt_mul_of_pos_right (Nat.pow_lt_pow_right (by decide) (by decide))
            (Nat.lt_of_lt_of_le (Nat.two_pow_pos 1074) hsq)
      _ = quanta u * 2 ^ 2097 := Nat.mul_comm _ _
  · have hinf : d = F64.inf false := by
      apply ext_fields
      · rw [hs, F64.inf, signBit_pack _ infMag_lt]
      · rw [F64.inf, magBits_pack _ infMag_lt]
        simpa [isInf] using hi
    subst hinf
    decide +kernel

/-- At `RATE = 2^1023` a one-pole coefficient of any legal time constant is finite and not negative. -/
theorem filterCoef1_finite {tau : Num64} (h : arithF64.isPositive tau = true) :
    isFinite (filterCoef1 arithF64 tau 0x7FE0000000000000#64) = true ∧
      signBit (filterCoef1 arithF64 tau 0x7FE0000000000000#64) = false := by
  have hr : isFinite 0x7FE0000000000000#64 = true := by decide
  have hrq : quanta 0x7FE0000000000000#64 = 2 ^ 2097 := by decide +kernel
  have h2 : isFinite two = true := by decide
  have h2q : quanta two = 2 ^ 1075 := by decide +kernel
  simp only [Arith.isPositive, Bool.and_eq_true] at h
  obtain ⟨htf, htp⟩ := h
  obtain ⟨-, hts, htm⟩ := (lt_zero_iff tau).mp htp
  have htq : 1 ≤ quanta tau := Nat.one_le_iff_ne_zero.mpr fun h0 => htm ((quanta_eq_zero tau).mp h0)
  have hp : mul two tau = ofRatio false (quanta two * quanta tau) one1074 := by rw [mul_finite h2 htf, hts]; rfl
  have hpn : isNaN (mul two tau) = false := by rw [hp, isNaN_ofRatio]
  have hps : signBit (mul two tau) = false := by rw [hp, signBit_ofRatio]
  have hpm : 1 ≤ magBits (mul two tau) := by
    have h : 1 ≤ roundMag 52 (quanta two * quanta tau) one1074 := by
      refine le_roundMag one1074_pos ?_
      rw [show quantaOf 52 1 = 1 by decide, Nat.one_mul, h2q]
      unfold one1074
      calc 2 ^ 1074 ≤ 2 ^ 1075 * 1 := by rw [Nat.mul_one]; exact Nat.pow_le_pow_right (by decide) (by decide)
        _ ≤ 2 ^ 1075 * quanta tau := Nat.mul_le_mul_left _ htq
    rw [hp, magBits_ofRatio]
    have : 1 ≤ infMag := by decide
    omega
  simp only [filterCoef1, arithF64]
  generalize mul two tau = p at *
  have hmi : isInf p = true → mul p 0x7FE0000000000000#64 = F64.inf false := by
    intro hi
    have hp : p = F64.inf false := by
      apply ext_fields
      · rw [hps, F64.inf, signBit_pack _ infMag_lt]
      · rw [F64.inf, magBits_pack _ infMag_lt]
        simpa [isInf] using hi
    rw [hp]
    decide
  refine coef_finite_of_divisor ?_ ?_ ?_ <;> rcases finite_or_inf hpn with hf | hi
  · rw [mul_finite hf hr, isNaN_ofRatio]
  · rw [hmi hi]; decide
  · rw [mul_finite hf hr, signBit_ofRatio, hps]; decide
  · rw [hmi hi]; decide
  · intro
    have hpq : 1 ≤ quanta p := Nat.one_le_iff_ne_zero.mpr fun h0 => by
      have := (quanta_eq_zero p).mp h0; omega
    have hq : quantaOf 52 0x3CC0000000000000 = 2 ^ 1023 := by decide +kernel
    have hm : (0x3CC0000000000000 : Nat) ≤ magBits (mul p 0x7FE0000000000000#64) := by
      have h : (0x3CC0000000000000 : Nat) ≤ roundMag 52 (quanta p * quanta 0x7FE0000000000000#64) one1074 := by
        refine le_roundMag one1074_pos ?_
        rw [hq, hrq]
        unfold one1074
        calc 2 ^ 1023 * 2 ^ 1074 = 1 * 2 ^ 2097 := by rw [← Nat.pow_add, Nat.one_mul]
          _ ≤ quanta p * 2 ^ 2097 := Nat.mul_le_mul_right _ hpq
      rw [mul_finite hf hr, magBits_ofRatio]
      have : (0x3CC0000000000000 : Nat) ≤ infMag := by decide
      omega
    have := (quantaOf_strictMono 52).monotone hm
    rwa [hq] at this
  · intro hfin
    rw [hmi hi] at hfin
    exact absurd hfin (by decide)

end Sys2Proof.Machine
end

