-- ==== Sys2Proof/Laws/Design.lean ====
section
/-! SUPPORT. What a constant brought inside its constraint is: legal, and the raw constant when that is legal. -/

namespace Sys2Proof.Design

/-- The constant is legal whenever 1 is. -/
theorem orOne_legal {legal : Num64 → Bool} (h1 : legal F64.one = true) (v : Num64) : legal (orOne legal v) = true := by
  unfold orOne
  split
  · assumption
  · exact h1

/-- A legal raw constant is kept. -/
theorem orOne_kept {legal : Num64 → Bool} {v : Num64} (h : legal v = true) : orOne legal v = v := by simp [orOne, h]

/-- Every legal value of a parameter is a finite number of its range; 1 is one of them for each. -/
theorem one_legal (p : Param) : arithF64.isLegal p F64.one = true := by cases p <;> decide

/-- Every default is legal (R8). -/
theorem paramDefault_legal (p : Param) : arithF64.isLegal p (paramDefault p) = true := orOne_legal (one_legal p) _

/-- A capacity inside its constraint (R8). -/
theorem cap_range (n : Nat) : 1 ≤ cap n ∧ cap n ≤ 9007199254740992 := by unfold cap; omega

/-- A legal capacity is kept. -/
theorem cap_kept {n : Nat} (h : 1 ≤ n) (h' : n ≤ 9007199254740992) : cap n = n := by unfold cap; omega

end Sys2Proof.Design
end

