-- ==== Sys2Proof/Laws/Flags.lean ====
section
/-! SUPPORT. What setting and clearing a flag of `STATUS` does to every flag and to the reserved bits. -/

namespace Sys2Proof.Machine

/-- Setting a flag sets it and leaves every other flag alone. -/
theorem getFlag_setFlag (st : BitVec 16) (f g : Flag) :
    getFlag (setFlag st f) g = (decide (f = g) || getFlag st g) := by
  cases f <;> cases g <;> simp [getFlag, setFlag, flagMask, flagBit]

/-- Clearing a flag clears it and leaves every other flag alone. -/
theorem getFlag_clearFlag (st : BitVec 16) (f g : Flag) :
    getFlag (clearFlag st f) g = (!decide (f = g) && getFlag st g) := by
  cases f <;> cases g <;> simp [getFlag, clearFlag, flagMask, flagBit]

/-- Every flag is a named bit. -/
theorem flagMask_named (f : Flag) : flagMask f &&& ~~~namedStatusBits = 0#16 := by cases f <;> decide

/-- Setting a flag touches no reserved bit. -/
theorem setFlag_reserved (st : BitVec 16) (f : Flag) :
    setFlag st f &&& ~~~namedStatusBits = st &&& ~~~namedStatusBits := by
  have h := flagMask_named f
  unfold setFlag
  rw [BitVec.and_comm, BitVec.and_or_distrib_left, BitVec.and_comm _ (flagMask f), h, BitVec.or_zero, BitVec.and_comm]

/-- Clearing a flag touches no reserved bit. -/
theorem clearFlag_reserved (st : BitVec 16) (f : Flag) :
    clearFlag st f &&& ~~~namedStatusBits = st &&& ~~~namedStatusBits := by
  have h : ~~~flagMask f &&& ~~~namedStatusBits = ~~~namedStatusBits := by cases f <;> decide
  unfold clearFlag
  rw [BitVec.and_assoc, h]

/-- Each fault has its own code, none of them 0. -/
theorem faultSt_ne_ok (e : FaultCode) : faultSt e ≠ stOk := by cases e <;> decide

theorem faultSt_injective (e d : FaultCode) (h : faultSt e = faultSt d) : e = d := by
  revert h; cases e <;> cases d <;> decide

end Sys2Proof.Machine
end

