-- ==== Sys2Proof/Laws/State.lean ====
section
/-! SUPPORT. One lemma per field per update of the state, true by definition. -/

namespace Sys2Proof.Machine

section Registers
variable {N : Type} (r : Regs N) (c : ChannelState N) (p q : Param) (v : N)

/-! ## `parStore` writes only the parameters -/

@[simp] theorem parStore_p : (parStore r p v).p = setParam r.p p v := rfl
@[simp] theorem parStore_rate : (parStore r p v).rate = r.rate := rfl
@[simp] theorem parStore_stages : (parStore r p v).stages = r.stages := rfl
@[simp] theorem parStore_cDepth : (parStore r p v).cDepth = r.cDepth := rfl
@[simp] theorem parStore_cLen : (parStore r p v).cLen = r.cLen := rfl
@[simp] theorem parStore_cTap : (parStore r p v).cTap = r.cTap := rfl
@[simp] theorem parStore_bSine : (parStore r p v).bSine = r.bSine := rfl
@[simp] theorem parStore_bFb : (parStore r p v).bFb = r.bFb := rfl
@[simp] theorem parStore_bMix : (parStore r p v).bMix = r.bMix := rfl
@[simp] theorem parStore_oscW : (parStore r p v).oscW = r.oscW := rfl
@[simp] theorem parStore_oscDuty : (parStore r p v).oscDuty = r.oscDuty := rfl
@[simp] theorem parStore_oscPhase : (parStore r p v).oscPhase = r.oscPhase := rfl
@[simp] theorem parStore_oscSnap : (parStore r p v).oscSnap = r.oscSnap := rfl
@[simp] theorem parStore_lfoS : (parStore r p v).lfoS = r.lfoS := rfl
@[simp] theorem parStore_fdS : (parStore r p v).fdS = r.fdS := rfl
@[simp] theorem parStore_status : (parStore r p v).status = r.status := rfl
@[simp] theorem parStore_ch0 : (parStore r p v).ch0 = r.ch0 := rfl
@[simp] theorem parStore_ch1 : (parStore r p v).ch1 = r.ch1 := rfl

/-! ## `setChan` writes only its channel -/

@[simp] theorem getChan_zero : getChan r .zero = r.ch0 := rfl
@[simp] theorem getChan_one : getChan r .one = r.ch1 := rfl
@[simp] theorem setChan_zero_ch0 : (setChan r .zero c).ch0 = c := rfl
@[simp] theorem setChan_zero_ch1 : (setChan r .zero c).ch1 = r.ch1 := rfl
@[simp] theorem setChan_one_ch0 : (setChan r .one c).ch0 = r.ch0 := rfl
@[simp] theorem setChan_one_ch1 : (setChan r .one c).ch1 = c := rfl

variable (i : Chan)

@[simp] theorem setChan_p : (setChan r i c).p = r.p := by cases i <;> rfl
@[simp] theorem setChan_rate : (setChan r i c).rate = r.rate := by cases i <;> rfl
@[simp] theorem setChan_stages : (setChan r i c).stages = r.stages := by cases i <;> rfl
@[simp] theorem setChan_cDepth : (setChan r i c).cDepth = r.cDepth := by cases i <;> rfl
@[simp] theorem setChan_cLen : (setChan r i c).cLen = r.cLen := by cases i <;> rfl
@[simp] theorem setChan_cTap : (setChan r i c).cTap = r.cTap := by cases i <;> rfl
@[simp] theorem setChan_bSine : (setChan r i c).bSine = r.bSine := by cases i <;> rfl
@[simp] theorem setChan_bFb : (setChan r i c).bFb = r.bFb := by cases i <;> rfl
@[simp] theorem setChan_bMix : (setChan r i c).bMix = r.bMix := by cases i <;> rfl
@[simp] theorem setChan_oscW : (setChan r i c).oscW = r.oscW := by cases i <;> rfl
@[simp] theorem setChan_oscDuty : (setChan r i c).oscDuty = r.oscDuty := by cases i <;> rfl
@[simp] theorem setChan_oscPhase : (setChan r i c).oscPhase = r.oscPhase := by cases i <;> rfl
@[simp] theorem setChan_oscSnap : (setChan r i c).oscSnap = r.oscSnap := by cases i <;> rfl
@[simp] theorem setChan_lfoS : (setChan r i c).lfoS = r.lfoS := by cases i <;> rfl
@[simp] theorem setChan_fdS : (setChan r i c).fdS = r.fdS := by cases i <;> rfl
@[simp] theorem setChan_status : (setChan r i c).status = r.status := by cases i <;> rfl
@[simp] theorem getChan_setChan_same : getChan (setChan r i c) i = c := by cases i <;> rfl

end Registers

section Responses
variable (s : State) (q0 q1 : DataWord) (e : FaultCode)

/-! ## `respond` writes only the response -/

@[simp] theorem respond_regs : (respond q0 q1 s).regs = s.regs := rfl
@[simp] theorem respond_blk : (respond q0 q1 s).blk = s.blk := rfl
@[simp] theorem respond_resp : (respond q0 q1 s).resp = some ⟨stOk, q0, q1⟩ := rfl
@[simp] theorem respond_audio : (respond q0 q1 s).audio = s.audio := rfl
@[simp] theorem respond_control : (respond q0 q1 s).control = s.control := rfl
@[simp] theorem respond_sched : (respond q0 q1 s).sched = s.sched := rfl

/-! ## `raise` writes only one flag and the response -/

@[simp] theorem raise_status : (raise e s).regs.status = setFlag s.regs.status (faultFlag e) := rfl
@[simp] theorem raise_p : (raise e s).regs.p = s.regs.p := rfl
@[simp] theorem raise_rate : (raise e s).regs.rate = s.regs.rate := rfl
@[simp] theorem raise_stages : (raise e s).regs.stages = s.regs.stages := rfl
@[simp] theorem raise_cDepth : (raise e s).regs.cDepth = s.regs.cDepth := rfl
@[simp] theorem raise_cLen : (raise e s).regs.cLen = s.regs.cLen := rfl
@[simp] theorem raise_cTap : (raise e s).regs.cTap = s.regs.cTap := rfl
@[simp] theorem raise_bSine : (raise e s).regs.bSine = s.regs.bSine := rfl
@[simp] theorem raise_bFb : (raise e s).regs.bFb = s.regs.bFb := rfl
@[simp] theorem raise_bMix : (raise e s).regs.bMix = s.regs.bMix := rfl
@[simp] theorem raise_oscW : (raise e s).regs.oscW = s.regs.oscW := rfl
@[simp] theorem raise_oscDuty : (raise e s).regs.oscDuty = s.regs.oscDuty := rfl
@[simp] theorem raise_oscPhase : (raise e s).regs.oscPhase = s.regs.oscPhase := rfl
@[simp] theorem raise_oscSnap : (raise e s).regs.oscSnap = s.regs.oscSnap := rfl
@[simp] theorem raise_lfoS : (raise e s).regs.lfoS = s.regs.lfoS := rfl
@[simp] theorem raise_fdS : (raise e s).regs.fdS = s.regs.fdS := rfl
@[simp] theorem raise_ch0 : (raise e s).regs.ch0 = s.regs.ch0 := rfl
@[simp] theorem raise_ch1 : (raise e s).regs.ch1 = s.regs.ch1 := rfl
@[simp] theorem raise_blk : (raise e s).blk = s.blk := rfl
@[simp] theorem raise_resp : (raise e s).resp = some ⟨faultSt e, 0#64, 0#64⟩ := rfl
@[simp] theorem raise_audio : (raise e s).audio = s.audio := rfl
@[simp] theorem raise_control : (raise e s).control = s.control := rfl
@[simp] theorem raise_sched : (raise e s).sched = s.sched := rfl

end Responses

section Ports
variable (s : State) (p : Port) (q : PortState)

/-! ## `setPort` writes only its port -/

@[simp] theorem getPort_audio : getPort s .audio = s.audio := rfl
@[simp] theorem getPort_control : getPort s .control = s.control := rfl
@[simp] theorem setPort_audio_audio : (setPort s .audio q).audio = q := rfl
@[simp] theorem setPort_audio_control : (setPort s .audio q).control = s.control := rfl
@[simp] theorem setPort_control_audio : (setPort s .control q).audio = s.audio := rfl
@[simp] theorem setPort_control_control : (setPort s .control q).control = q := rfl
@[simp] theorem setPort_regs : (setPort s p q).regs = s.regs := by cases p <;> rfl
@[simp] theorem setPort_blk : (setPort s p q).blk = s.blk := by cases p <;> rfl
@[simp] theorem setPort_resp : (setPort s p q).resp = s.resp := by cases p <;> rfl
@[simp] theorem setPort_sched : (setPort s p q).sched = s.sched := by cases p <;> rfl
@[simp] theorem getPort_setPort_same : getPort (setPort s p q) p = q := by cases p <;> rfl

/-! ## `deliver` writes only the port and the response -/

@[simp] theorem deliver_regs : (deliver p s).regs = s.regs := by unfold deliver; split <;> simp
@[simp] theorem deliver_blk : (deliver p s).blk = s.blk := by unfold deliver; split <;> simp
@[simp] theorem deliver_sched : (deliver p s).sched = s.sched := by unfold deliver; split <;> simp
@[simp] theorem deliver_resp : (deliver p s).resp = none := by unfold deliver; split <;> simp [*]

end Ports

end Sys2Proof.Machine
end

