-- ==== Sys2Proof/Laws/Ops.lean ====
section
/-! SUPPORT. For each shared operation of `Machine/Ops.lean`, what it does, once. -/

namespace Sys2Proof.Machine

section Parameters
variable {N : Type}

/-- A store is seen by a load of the same parameter and by no other. -/
theorem getParam_setParam (ps : Params N) (p q : Param) (v : N) :
    getParam (setParam ps p v) q = if q = p then v else getParam ps q := by
  cases p <;> cases q <;> rfl

theorem parLoad_parStore (r : Regs N) (p q : Param) (v : N) :
    parLoad (parStore r p v) q = if q = p then v else parLoad r q := getParam_setParam r.p p q v

/-- Two parameter sets with equal values are equal. -/
theorem params_ext {a b : Params N} (h : ∀ p, getParam a p = getParam b p) : a = b := by
  cases a; cases b
  simp only [Params.mk.injEq]
  exact ⟨h .sine, h .freq, h .duty, h .len, h .depth, h .fb, h .mix⟩

end Parameters

section Lines
variable {N : Type}

/-- A push shortens or lengthens the line to `min(DL_N + 1, n)` cells (R62). -/
theorem dlPush_length (dl : List N) (v : N) (n : Nat) : (dlPush dl v n).length = min (dl.length + 1) n := by
  simp [dlPush, Nat.min_comm]

/-- A write keeps the size of the line (R68). -/
@[simp] theorem dlWrite_length (dl : List N) (i : Nat) (v : N) : (dlWrite dl i v).length = dl.length := by
  simp [dlWrite]

/-- A read outside the line answers zero (R61). -/
theorem dlRead_outside (A : Arith N) (dl : List N) (i : Int) (h : i < 0 ∨ (dl.length : Int) ≤ i) :
    dlRead A dl i = A.zero := by
  unfold dlRead
  split
  · rename_i k
    have : dl.length ≤ k := by
      rcases h with h | h
      · exact absurd h (by simp)
      · simpa using h
    simp [this]
  · rfl

/-- A read inside the line answers the cell (R61). -/
theorem dlRead_inside (A : Arith N) (dl : List N) (k : Nat) (h : k < dl.length) : dlRead A dl (k : Int) = dl[k] := by
  simp [dlRead, h]

/-- A read answers a cell of the line or zero (R61). -/
theorem dlRead_mem_or_zero (A : Arith N) (dl : List N) (i : Int) : dlRead A dl i ∈ dl ∨ dlRead A dl i = A.zero := by
  unfold dlRead
  split
  · rename_i k
    by_cases h : k < dl.length
    · exact .inl (by simp [h])
    · exact .inr (by simp [Nat.le_of_not_lt h])
  · exact .inr rfl

/-- A push puts its value in cell 0 and moves every kept cell one place (R62). -/
theorem dlRead_dlPush_zero (A : Arith N) (dl : List N) (v : N) (n : Nat) (h : 1 ≤ n) : dlRead A (dlPush dl v n) 0 = v := by
  obtain ⟨m, rfl⟩ : ∃ m, n = m + 1 := ⟨n - 1, by omega⟩
  simp [dlRead, dlPush]

theorem dlRead_dlPush_succ (A : Arith N) (dl : List N) (v : N) (n k : Nat) (h : k + 1 < n) :
    dlRead A (dlPush dl v n) ((k + 1 : Nat) : Int) = dlRead A dl (k : Int) := by
  obtain ⟨m, rfl⟩ : ∃ m, n = m + 1 := ⟨n - 1, by omega⟩
  simp [dlRead, dlPush, show k < m by omega, List.getD_eq_getElem?_getD]

/-- Beyond the new size a push leaves nothing (R62). -/
theorem dlRead_dlPush_outside (A : Arith N) (dl : List N) (v : N) (n k : Nat) (h : n ≤ k) :
    dlRead A (dlPush dl v n) (k : Int) = A.zero := by
  refine dlRead_outside A _ _ (.inr ?_)
  have := dlPush_length dl v n
  omega

/-- A write at a cell of the line is seen there and nowhere else (R68). -/
theorem dlRead_dlWrite (A : Arith N) (dl : List N) (i k : Nat) (v : N) (h : i < dl.length) :
    dlRead A (dlWrite dl i v) (k : Int) = if k = i then v else dlRead A dl (k : Int) := by
  by_cases hk : k = i
  · subst hk; simp [dlRead, dlWrite, h]
  · simp [dlRead, dlWrite, hk, List.getD_eq_getElem?_getD, List.getElem?_set_ne (Ne.symm hk)]

end Lines

section Readiness
variable {s t : State} {k : State → Host.Outcome State Fault Refusal}

/-- A command that needs a rate either has one or answers `E_NOTREADY` (R293). -/
theorem needRate_cases (h : needRate s k = .next t) :
    (rateValid s.regs = true ∧ k s = .next t) ∨ (rateValid s.regs = false ∧ t = raise .notReady s) := by
  unfold needRate at h
  split at h
  · exact .inl ⟨‹_›, h⟩
  · rename_i hv
    exact .inr ⟨by simpa using hv, by simpa using h.symm⟩

/-- A command that needs a prepared block either has one or answers `E_NOTREADY` (R293). -/
theorem needBlock_cases (h : needBlock s k = .next t) :
    (blkValid s.regs = true ∧ k s = .next t) ∨ (blkValid s.regs = false ∧ t = raise .notReady s) := by
  unfold needBlock at h
  split at h
  · exact .inl ⟨‹_›, h⟩
  · rename_i hv
    exact .inr ⟨by simpa using hv, by simpa using h.symm⟩

theorem needRate_ready (h : rateValid s.regs = true) : needRate s k = k s := by simp [needRate, h]

theorem needBlock_ready (h : blkValid s.regs = true) : needBlock s k = k s := by simp [needBlock, h]

end Readiness

/-- What the port gets when it takes a response: the response first, the waiting commands as they were (R81). -/
theorem getPort_deliver (p : Port) (s : State) (a : Response) (h : s.resp = some a) :
    getPort (deliver p s) p = ⟨(getPort s p).waiting, a :: (getPort s p).answered⟩ := by
  cases p <;> simp [deliver, h, setPort]

end Sys2Proof.Machine
end

