-- ==== Sys2Proof/Laws/Regs.lean ====
section
/-! SUPPORT. What each operation on the registers writes, and what it leaves alone. -/

namespace Sys2Proof.Machine

section Fields
variable {N : Type} (A : Arith N) (cfg : Cfg N) (r : Regs N) (v : N)

/-! ## `oscStep` writes only the phase (R151) -/

@[simp] theorem oscStep_oscPhase : (oscStep A r).oscPhase = nextPhase A r.oscPhase r.oscW r.rate := rfl
@[simp] theorem oscStep_p : (oscStep A r).p = r.p := rfl
@[simp] theorem oscStep_rate : (oscStep A r).rate = r.rate := rfl
@[simp] theorem oscStep_stages : (oscStep A r).stages = r.stages := rfl
@[simp] theorem oscStep_cDepth : (oscStep A r).cDepth = r.cDepth := rfl
@[simp] theorem oscStep_cLen : (oscStep A r).cLen = r.cLen := rfl
@[simp] theorem oscStep_cTap : (oscStep A r).cTap = r.cTap := rfl
@[simp] theorem oscStep_bSine : (oscStep A r).bSine = r.bSine := rfl
@[simp] theorem oscStep_bFb : (oscStep A r).bFb = r.bFb := rfl
@[simp] theorem oscStep_bMix : (oscStep A r).bMix = r.bMix := rfl
@[simp] theorem oscStep_oscW : (oscStep A r).oscW = r.oscW := rfl
@[simp] theorem oscStep_oscDuty : (oscStep A r).oscDuty = r.oscDuty := rfl
@[simp] theorem oscStep_oscSnap : (oscStep A r).oscSnap = r.oscSnap := rfl
@[simp] theorem oscStep_lfoS : (oscStep A r).lfoS = r.lfoS := rfl
@[simp] theorem oscStep_fdS : (oscStep A r).fdS = r.fdS := rfl
@[simp] theorem oscStep_status : (oscStep A r).status = r.status := rfl
@[simp] theorem oscStep_ch0 : (oscStep A r).ch0 = r.ch0 := rfl
@[simp] theorem oscStep_ch1 : (oscStep A r).ch1 = r.ch1 := rfl

/-! ## `oscSnapshot` writes only the snapshot (R155) -/

@[simp] theorem oscSnapshot_oscSnap : (oscSnapshot r).oscSnap = r.oscPhase := rfl
@[simp] theorem oscSnapshot_p : (oscSnapshot r).p = r.p := rfl
@[simp] theorem oscSnapshot_rate : (oscSnapshot r).rate = r.rate := rfl
@[simp] theorem oscSnapshot_stages : (oscSnapshot r).stages = r.stages := rfl
@[simp] theorem oscSnapshot_cDepth : (oscSnapshot r).cDepth = r.cDepth := rfl
@[simp] theorem oscSnapshot_cLen : (oscSnapshot r).cLen = r.cLen := rfl
@[simp] theorem oscSnapshot_cTap : (oscSnapshot r).cTap = r.cTap := rfl
@[simp] theorem oscSnapshot_bSine : (oscSnapshot r).bSine = r.bSine := rfl
@[simp] theorem oscSnapshot_bFb : (oscSnapshot r).bFb = r.bFb := rfl
@[simp] theorem oscSnapshot_bMix : (oscSnapshot r).bMix = r.bMix := rfl
@[simp] theorem oscSnapshot_oscW : (oscSnapshot r).oscW = r.oscW := rfl
@[simp] theorem oscSnapshot_oscDuty : (oscSnapshot r).oscDuty = r.oscDuty := rfl
@[simp] theorem oscSnapshot_oscPhase : (oscSnapshot r).oscPhase = r.oscPhase := rfl
@[simp] theorem oscSnapshot_lfoS : (oscSnapshot r).lfoS = r.lfoS := rfl
@[simp] theorem oscSnapshot_fdS : (oscSnapshot r).fdS = r.fdS := rfl
@[simp] theorem oscSnapshot_status : (oscSnapshot r).status = r.status := rfl
@[simp] theorem oscSnapshot_ch0 : (oscSnapshot r).ch0 = r.ch0 := rfl
@[simp] theorem oscSnapshot_ch1 : (oscSnapshot r).ch1 = r.ch1 := rfl

/-! ## `oscRestore` writes only the phase (R156) -/

@[simp] theorem oscRestore_oscPhase : (oscRestore r).oscPhase = r.oscSnap := rfl
@[simp] theorem oscRestore_p : (oscRestore r).p = r.p := rfl
@[simp] theorem oscRestore_rate : (oscRestore r).rate = r.rate := rfl
@[simp] theorem oscRestore_stages : (oscRestore r).stages = r.stages := rfl
@[simp] theorem oscRestore_cDepth : (oscRestore r).cDepth = r.cDepth := rfl
@[simp] theorem oscRestore_cLen : (oscRestore r).cLen = r.cLen := rfl
@[simp] theorem oscRestore_cTap : (oscRestore r).cTap = r.cTap := rfl
@[simp] theorem oscRestore_bSine : (oscRestore r).bSine = r.bSine := rfl
@[simp] theorem oscRestore_bFb : (oscRestore r).bFb = r.bFb := rfl
@[simp] theorem oscRestore_bMix : (oscRestore r).bMix = r.bMix := rfl
@[simp] theorem oscRestore_oscW : (oscRestore r).oscW = r.oscW := rfl
@[simp] theorem oscRestore_oscDuty : (oscRestore r).oscDuty = r.oscDuty := rfl
@[simp] theorem oscRestore_oscSnap : (oscRestore r).oscSnap = r.oscSnap := rfl
@[simp] theorem oscRestore_lfoS : (oscRestore r).lfoS = r.lfoS := rfl
@[simp] theorem oscRestore_fdS : (oscRestore r).fdS = r.fdS := rfl
@[simp] theorem oscRestore_status : (oscRestore r).status = r.status := rfl
@[simp] theorem oscRestore_ch0 : (oscRestore r).ch0 = r.ch0 := rfl
@[simp] theorem oscRestore_ch1 : (oscRestore r).ch1 = r.ch1 := rfl

/-! ## `acceptRate` writes only the rate and the two readiness flags (R256) -/

@[simp] theorem acceptRate_rate : (acceptRate v r).rate = v := rfl
@[simp] theorem acceptRate_status :
    (acceptRate v r).status = clearFlag (setFlag r.status .rateValid) .blkValid := rfl
@[simp] theorem acceptRate_p : (acceptRate v r).p = r.p := rfl
@[simp] theorem acceptRate_stages : (acceptRate v r).stages = r.stages := rfl
@[simp] theorem acceptRate_cDepth : (acceptRate v r).cDepth = r.cDepth := rfl
@[simp] theorem acceptRate_cLen : (acceptRate v r).cLen = r.cLen := rfl
@[simp] theorem acceptRate_cTap : (acceptRate v r).cTap = r.cTap := rfl
@[simp] theorem acceptRate_bSine : (acceptRate v r).bSine = r.bSine := rfl
@[simp] theorem acceptRate_bFb : (acceptRate v r).bFb = r.bFb := rfl
@[simp] theorem acceptRate_bMix : (acceptRate v r).bMix = r.bMix := rfl
@[simp] theorem acceptRate_oscW : (acceptRate v r).oscW = r.oscW := rfl
@[simp] theorem acceptRate_oscDuty : (acceptRate v r).oscDuty = r.oscDuty := rfl
@[simp] theorem acceptRate_oscPhase : (acceptRate v r).oscPhase = r.oscPhase := rfl
@[simp] theorem acceptRate_oscSnap : (acceptRate v r).oscSnap = r.oscSnap := rfl
@[simp] theorem acceptRate_lfoS : (acceptRate v r).lfoS = r.lfoS := rfl
@[simp] theorem acceptRate_fdS : (acceptRate v r).fdS = r.fdS := rfl
@[simp] theorem acceptRate_ch0 : (acceptRate v r).ch0 = r.ch0 := rfl
@[simp] theorem acceptRate_ch1 : (acceptRate v r).ch1 = r.ch1 := rfl

/-! ## `modTap` writes the phase, the two low-pass states and the tap (R238) -/

@[simp] theorem modTap_oscPhase : (modTap A cfg r).1.oscPhase = nextPhase A r.oscPhase r.oscW r.rate := rfl
@[simp] theorem modTap_p : (modTap A cfg r).1.p = r.p := rfl
@[simp] theorem modTap_rate : (modTap A cfg r).1.rate = r.rate := rfl
@[simp] theorem modTap_stages : (modTap A cfg r).1.stages = r.stages := rfl
@[simp] theorem modTap_cDepth : (modTap A cfg r).1.cDepth = r.cDepth := rfl
@[simp] theorem modTap_cLen : (modTap A cfg r).1.cLen = r.cLen := rfl
@[simp] theorem modTap_bSine : (modTap A cfg r).1.bSine = r.bSine := rfl
@[simp] theorem modTap_bFb : (modTap A cfg r).1.bFb = r.bFb := rfl
@[simp] theorem modTap_bMix : (modTap A cfg r).1.bMix = r.bMix := rfl
@[simp] theorem modTap_oscW : (modTap A cfg r).1.oscW = r.oscW := rfl
@[simp] theorem modTap_oscDuty : (modTap A cfg r).1.oscDuty = r.oscDuty := rfl
@[simp] theorem modTap_oscSnap : (modTap A cfg r).1.oscSnap = r.oscSnap := rfl
@[simp] theorem modTap_status : (modTap A cfg r).1.status = r.status := rfl
@[simp] theorem modTap_ch0 : (modTap A cfg r).1.ch0 = r.ch0 := rfl
@[simp] theorem modTap_ch1 : (modTap A cfg r).1.ch1 = r.ch1 := rfl

end Fields

section Inversions
variable {N : Type} {A : Arith N} {cfg : Cfg N}

/-- All that `CACHE.BLOCK` does (R231). -/
theorem cacheBlock_eq_some {ps : Params N} {r t : Regs N} (h : cacheBlock A cfg ps r = some t) :
    ∃ n, stageCount A cfg r.rate = some n ∧
      t = { r with
        cDepth := smooth A cfg.kSmooth r.cDepth ps.depth
        cLen := smooth A cfg.kSmooth r.cLen ps.len
        oscW := A.mul A.twoPi ps.freq
        oscDuty := ps.duty
        bSine := ps.sine
        bFb := ps.fb
        bMix := ps.mix
        stages := n
        status := setFlag r.status .blkValid } := by
  simp only [cacheBlock, Option.map_eq_some_iff] at h
  obtain ⟨n, hn, rfl⟩ := h
  exact ⟨n, hn, rfl⟩

/-- The stage count is inside `1 .. DL_CAP` (R24, R234). -/
theorem stageCount_range {rate : N} {n : Nat} (hc : 1 ≤ cfg.dlCap) (h : stageCount A cfg rate = some n) :
    1 ≤ n ∧ n ≤ cfg.dlCap := by
  simp only [stageCount, Option.map_eq_some_iff] at h
  obtain ⟨i, -, rfl⟩ := h
  omega

/-- All that the delay does: the push, then a read of the new line (R166). -/
theorem delayLine_eq_some {dl dl' : List N} {t x y : N} {n : Nat} (h : delayLine A dl t x n = some (dl', y)) :
    dl' = dlPush dl x n ∧ delayRead A (dlPush dl x n) t = some y := by
  simp only [delayLine, Option.map_eq_some_iff, Prod.mk.injEq] at h
  obtain ⟨z, hz, rfl, rfl⟩ := h
  exact ⟨rfl, hz⟩

/-- All that the transform of a channel does, step by step (R214). -/
theorem channelTransform_eq_some {g : ChannelInputs N} {ch ch' : ChannelState N} {x out : N}
    (h : channelTransform A cfg g ch x = some (ch', out)) :
    ∃ xp a yd y xfb,
      xp = filterHp1 A ch.inS (filterCoef1 A cfg.tauIn g.rate) x ∧
      a = filterChorus A (chorusCoefs A cfg g.rate) ch.f1 xp.1 ∧
      delayRead A (dlPush ch.dl a.1 g.stages) g.cTap = some yd ∧
      y = filterChorus A (chorusCoefs A cfg g.rate) ch.f2 yd ∧
      xfb = filterHp1 A ch.fbS (filterCoef1 A cfg.tauFb g.rate) (A.mul y.1 g.bFb) ∧
      ch' = { inS := xp.2, f1 := a.2, f2 := y.2, fbS := xfb.2, dlTap := g.cTap,
              dl := delayInject A cfg.limit (dlPush ch.dl a.1 g.stages) xfb.1 } ∧
      out = A.add (A.mul xp.1 (A.sub A.one g.bMix)) (A.mul y.1 g.bMix) := by
  simp only [channelTransform] at h
  split at h
  · exact absurd h (by simp)
  · rename_i dl yd hd
    obtain ⟨rfl, hr⟩ := delayLine_eq_some hd
    simp only [Option.some.injEq, Prod.mk.injEq] at h
    obtain ⟨rfl, rfl⟩ := h
    exact ⟨_, _, yd, _, _, rfl, rfl, hr, rfl, rfl, rfl, rfl⟩

/-- The transform of a channel stops only where `ifloor` has no value (R110, R214). -/
theorem channelTransform_isSome {g : ChannelInputs N} {i : Int} (h : A.ifloor g.cTap = some i) (ch : ChannelState N) (x : N) :
    ∃ o, channelTransform A cfg g ch x = some o := by
  simp only [channelTransform, delayLine, delayRead, h]
  exact ⟨_, rfl⟩

/-- A channel's transform writes that channel of the registers (R75, R214). -/
theorem chProcess_eq_some {c : Chan} {x out : N} {r t : Regs N} (h : chProcess A cfg c x r = some (t, out)) :
    ∃ ch, channelTransform A cfg (channelInputs r) (getChan r c) x = some (ch, out) ∧ t = setChan r c ch := by
  simp only [chProcess, Option.map_eq_some_iff, Prod.mk.injEq, Prod.exists] at h
  obtain ⟨ch, o, hc, rfl, rfl⟩ := h
  exact ⟨ch, hc, rfl⟩

/-- A frame is the shared tap, then channel 0, then channel 1 (R244). -/
theorem frameRegs_eq_some {x0 x1 o0 o1 : N} {r t : Regs N} (h : frameRegs A cfg x0 x1 r = some (t, o0, o1)) :
    ∃ r0, chProcess A cfg .zero x0 (modTap A cfg r).1 = some (r0, o0) ∧ chProcess A cfg .one x1 r0 = some (t, o1) := by
  simp only [frameRegs] at h
  split at h
  · exact absurd h (by simp)
  · rename_i r0 out0 h0
    split at h
    · exact absurd h (by simp)
    · rename_i r1 out1 h1
      simp only [Option.some.injEq, Prod.mk.injEq] at h
      obtain ⟨rfl, rfl, rfl⟩ := h
      exact ⟨r0, h0, h1⟩

end Inversions

end Sys2Proof.Machine
end

