-- ==== Sys2Proof/Laws/Exec.lean ====
section
/-! SUPPORT. What the meaning of each command can do, once: if it answers a next state, then one of these. -/

namespace Sys2Proof.Machine

variable {s t : State}

theorem execInit_cases (h : execInit s = .next t) :
    t = respond 0#64 0#64 { s with regs := Regs.reset arithF64 design, blk := none } := by
  simpa [execInit, initWith] using h.symm

theorem execSetrate_cases {v : DataWord} (h : execSetrate v s = .next t) :
    (arithF64.isPositive v = true ∧ t = respond 0#64 0#64 { s with regs := acceptRate v s.regs }) ∨
    (arithF64.isPositive v = false ∧ t = raise .badRate s) := by
  unfold execSetrate at h
  split at h
  · exact .inl ⟨‹_›, by simpa using h.symm⟩
  · rename_i hv
    exact .inr ⟨by simpa using hv, by simpa using h.symm⟩

theorem execWrpar_cases {p : Selector} {v : DataWord} (h : execWrpar p v s = .next t) :
    (paramOfSel p = none ∧ t = raise .illegal s) ∨
    ∃ q, paramOfSel p = some q ∧
      ((arithF64.isLegal q v = true ∧ t = respond 0#64 0#64 { s with regs := parStore s.regs q v }) ∨
       (arithF64.isLegal q v = false ∧ t = raise .range s)) := by
  unfold execWrpar at h
  split at h
  · exact .inl ⟨‹_›, by simpa using h.symm⟩
  · rename_i q hq
    split at h
    · exact .inr ⟨q, hq, .inl ⟨‹_›, by simpa using h.symm⟩⟩
    · rename_i hv
      exact .inr ⟨q, hq, .inr ⟨by simpa using hv, by simpa using h.symm⟩⟩

theorem execRdpar_cases {p : Selector} (h : execRdpar p s = .next t) :
    (paramOfSel p = none ∧ t = raise .illegal s) ∨
    ∃ q, paramOfSel p = some q ∧ t = respond (parLoad s.regs q) 0#64 s := by
  unfold execRdpar at h
  split at h
  · exact .inl ⟨‹_›, by simpa using h.symm⟩
  · exact .inr ⟨_, ‹_›, by simpa using h.symm⟩

theorem execBlock_cases (h : execBlock s = .next t) :
    (rateValid s.regs = true ∧ t = { s with blk := some (.one (parLoad s.regs .sine)), resp := none }) ∨
    (rateValid s.regs = false ∧ t = raise .notReady s) := by
  rcases needRate_cases h with ⟨hv, h⟩ | h
  · exact .inl ⟨hv, by simpa using h.symm⟩
  · exact .inr h

/-- A `BLOCK` in progress makes its next load, or computes and answers (R230). -/
theorem blockResume_cases {b : BlockLoads} (h : blockResume b s = .next t) :
    (∃ b' q, loadedValues b' = loadedValues b ++ [(q, parLoad s.regs q)] ∧ t = { s with blk := some b', resp := none }) ∨
    ∃ p0 p1 p2 p3 p4 p5 p6 r, b = .seven p0 p1 p2 p3 p4 p5 p6 ∧
      cacheBlock arithF64 design ⟨p0, p1, p2, p3, p4, p5, p6⟩ s.regs = some r ∧
      t = respond (intResult r.stages) 0#64 { s with regs := r, blk := none } := by
  cases b with
  | seven p0 p1 p2 p3 p4 p5 p6 =>
    simp only [blockResume, blockResumeWith] at h
    split at h
    · exact absurd h (by simp)
    · exact .inr ⟨p0, p1, p2, p3, p4, p5, p6, _, rfl, ‹_›, by simpa using h.symm⟩
  | one p0 => exact .inl ⟨.two p0 _, .freq, rfl, by simpa [blockResume, blockResumeWith, blockLoaded] using h.symm⟩
  | two p0 p1 => exact .inl ⟨.three p0 p1 _, .duty, rfl, by simpa [blockResume, blockResumeWith, blockLoaded] using h.symm⟩
  | three p0 p1 p2 =>
    exact .inl ⟨.four p0 p1 p2 _, .len, rfl, by simpa [blockResume, blockResumeWith, blockLoaded] using h.symm⟩
  | four p0 p1 p2 p3 =>
    exact .inl ⟨.five p0 p1 p2 p3 _, .depth, rfl, by simpa [blockResume, blockResumeWith, blockLoaded] using h.symm⟩
  | five p0 p1 p2 p3 p4 =>
    exact .inl ⟨.six p0 p1 p2 p3 p4 _, .fb, rfl, by simpa [blockResume, blockResumeWith, blockLoaded] using h.symm⟩
  | six p0 p1 p2 p3 p4 p5 =>
    exact .inl ⟨.seven p0 p1 p2 p3 p4 p5 _, .mix, rfl, by simpa [blockResume, blockResumeWith, blockLoaded] using h.symm⟩

theorem execMod_cases (h : execMod s = .next t) :
    (blkValid s.regs = true ∧
      t = respond (modTap arithF64 design s.regs).1.cTap (modTap arithF64 design s.regs).2
        { s with regs := (modTap arithF64 design s.regs).1 }) ∨
    (blkValid s.regs = false ∧ t = raise .notReady s) := by
  simp only [execMod, modWith] at h
  rcases needBlock_cases h with ⟨hv, h⟩ | h
  · exact .inl ⟨hv, by simpa using h.symm⟩
  · exact .inr h

theorem execChproc_cases {c : Selector} {f : Fmt} {w : DataWord} (h : execChproc c f w s = .next t) :
    (chanOfSel c = none ∧ t = raise .illegal s) ∨
    ∃ ch, chanOfSel c = some ch ∧
      ((blkValid s.regs = false ∧ t = raise .notReady s) ∨
       (blkValid s.regs = true ∧ decodeSample f w = none ∧ t = raise .nonFinite s) ∨
       (blkValid s.regs = true ∧ ∃ x r out, decodeSample f w = some x ∧
          chProcess arithF64 design ch x s.regs = some (r, out) ∧
          t = respond (encodeSample f out) 0#64 { s with regs := r })) := by
  simp only [execChproc, chprocWith] at h
  split at h
  · exact .inl ⟨‹_›, by simpa using h.symm⟩
  · rename_i ch hc
    refine .inr ⟨ch, hc, ?_⟩
    rcases needBlock_cases h with ⟨hv, h⟩ | h
    · split at h
      · exact .inr (.inl ⟨hv, ‹_›, by simpa using h.symm⟩)
      · rename_i x hx
        split at h
        · exact absurd h (by simp)
        · exact .inr (.inr ⟨hv, x, _, _, hx, ‹_›, by simpa using h.symm⟩)
    · exact .inl h

theorem execFrame_cases {f : Fmt} {w0 w1 : DataWord} (h : execFrame f w0 w1 s = .next t) :
    (blkValid s.regs = false ∧ t = raise .notReady s) ∨
    (blkValid s.regs = true ∧ (decodeSample f w0 = none ∨ decodeSample f w1 = none) ∧ t = raise .nonFinite s) ∨
    (blkValid s.regs = true ∧ ∃ x0 x1 r o0 o1, decodeSample f w0 = some x0 ∧ decodeSample f w1 = some x1 ∧
      frameRegs arithF64 design x0 x1 s.regs = some (r, o0, o1) ∧
      t = respond (encodeSample f o0) (encodeSample f o1) { s with regs := r }) := by
  simp only [execFrame, frameWith] at h
  rcases needBlock_cases h with ⟨hv, h⟩ | h
  · cases h0 : decodeSample f w0 with
    | none => exact .inr (.inl ⟨hv, .inl rfl, by simpa [h0] using h.symm⟩)
    | some x0 =>
      cases h1 : decodeSample f w1 with
      | none => exact .inr (.inl ⟨hv, .inr rfl, by simpa [h0, h1] using h.symm⟩)
      | some x1 =>
        simp only [h0, h1] at h
        split at h
        · exact absurd h (by simp)
        · exact .inr (.inr ⟨hv, x0, x1, _, _, _, rfl, rfl, ‹_›, by simpa using h.symm⟩)
  · exact .inl h

theorem execOstep_cases (h : execOstep s = .next t) :
    (rateValid s.regs = true ∧ t = respond 0#64 0#64 { s with regs := oscStep arithF64 s.regs }) ∨
    (rateValid s.regs = false ∧ t = raise .notReady s) := by
  rcases needRate_cases h with ⟨hv, h⟩ | h
  · exact .inl ⟨hv, by simpa using h.symm⟩
  · exact .inr h

theorem execOnext_cases (h : execOnext s = .next t) :
    (rateValid s.regs = true ∧
      t = respond (waveValue arithF64 design wsel s.regs.oscPhase s.regs.oscDuty) 0#64
        { s with regs := oscStep arithF64 s.regs }) ∨
    (rateValid s.regs = false ∧ t = raise .notReady s) := by
  simp only [execOnext, onextWith] at h
  rcases needRate_cases h with ⟨hv, h⟩ | h
  · exact .inl ⟨hv, by simpa [oscNext] using h.symm⟩
  · exact .inr h

theorem execSnap_cases (h : execSnap s = .next t) :
    t = respond s.regs.oscPhase 0#64 { s with regs := oscSnapshot s.regs } := by
  simpa [execSnap] using h.symm

theorem execRestore_cases (h : execRestore s = .next t) :
    t = respond 0#64 0#64 { s with regs := oscRestore s.regs } := by
  simpa [execRestore] using h.symm

theorem execRdst_cases {r : Selector} (h : execRdst r s = .next t) :
    (regOfSel r = none ∧ t = raise .illegal s) ∨
    ∃ n, regOfSel r = some n ∧
      ((needsRate n = true ∧ rateValid s.regs = false ∧ t = raise .notReady s) ∨
       ((needsRate n = true → rateValid s.regs = true) ∧ t = respond (regValue design s.regs n) 0#64 s)) := by
  simp only [execRdst, rdstWith] at h
  split at h
  · exact .inl ⟨‹_›, by simpa using h.symm⟩
  · rename_i n hn
    refine .inr ⟨n, hn, ?_⟩
    split at h
    · rcases needRate_cases h with ⟨hv, h⟩ | ⟨hv, h⟩
      · exact .inr ⟨fun _ => hv, by simpa using h.symm⟩
      · exact .inl ⟨‹_›, hv, h⟩
    · rename_i hk
      exact .inr ⟨fun hk' => absurd hk' hk, by simpa using h.symm⟩

theorem execRddl_cases {c : Selector} {i : DataWord} (h : execRddl c i s = .next t) :
    (chanOfSel c = none ∧ t = raise .illegal s) ∨
    ∃ ch, chanOfSel c = some ch ∧
      t = respond (dlRead arithF64 (getChan s.regs ch).dl (i.toNat : Int)) (intResult (getChan s.regs ch).dl.length) s := by
  unfold execRddl at h
  split at h
  · exact .inl ⟨‹_›, by simpa using h.symm⟩
  · exact .inr ⟨_, ‹_›, by simpa using h.symm⟩

/-- A command that is not a fault and not a `BLOCK`: status `OK`, the ports and the interleaving as they were, and a `BLOCK` in
progress dropped by `INIT` alone. -/
structure Answers (i : Instr) (s t : State) : Prop where
  ok : ∃ q0 q1, t.resp = some ⟨stOk, q0, q1⟩
  audio : t.audio = s.audio
  control : t.control = s.control
  sched : t.sched = s.sched
  blk : i ≠ .init → t.blk = s.blk
  init : i = .init → t.blk = none

/-- What any command can do: one fault response, an answer, or the start of a `BLOCK`. -/
theorem exec_cases {i : Instr} (h : exec i s = .next t) :
    (∃ e, t = raise e s) ∨ Answers i s t ∨
      (i = .block ∧ t = { s with blk := some (.one (parLoad s.regs .sine)), resp := none }) := by
  have fault : ∀ e, t = raise e s → (∃ e, t = raise e s) := fun e h => ⟨e, h⟩
  have answer : ∀ {q0 q1 r}, t = respond q0 q1 { s with regs := r } → i ≠ .init → Answers i s t := by
    rintro q0 q1 r rfl hi
    exact ⟨⟨q0, q1, rfl⟩, rfl, rfl, rfl, fun _ => rfl, fun h => absurd h hi⟩
  cases i with
  | init =>
    obtain rfl := execInit_cases h
    exact .inr (.inl ⟨⟨_, _, rfl⟩, rfl, rfl, rfl, fun h => absurd rfl h, fun _ => rfl⟩)
  | setrate v =>
    rcases execSetrate_cases h with ⟨_, ht⟩ | ⟨_, ht⟩
    · exact .inr (.inl (answer ht (by simp)))
    · exact .inl (fault _ ht)
  | wrpar p v =>
    rcases execWrpar_cases h with ⟨_, ht⟩ | ⟨q, _, ⟨_, ht⟩ | ⟨_, ht⟩⟩
    · exact .inl (fault _ ht)
    · exact .inr (.inl (answer ht (by simp)))
    · exact .inl (fault _ ht)
  | rdpar p =>
    rcases execRdpar_cases h with ⟨_, ht⟩ | ⟨q, _, ht⟩
    · exact .inl (fault _ ht)
    · exact .inr (.inl (answer ht (by simp)))
  | block =>
    rcases execBlock_cases h with ⟨_, ht⟩ | ⟨_, ht⟩
    · exact .inr (.inr ⟨rfl, ht⟩)
    · exact .inl (fault _ ht)
  | mod =>
    rcases execMod_cases h with ⟨_, ht⟩ | ⟨_, ht⟩
    · exact .inr (.inl (answer ht (by simp)))
    · exact .inl (fault _ ht)
  | chproc c f x =>
    rcases execChproc_cases h with ⟨_, ht⟩ | ⟨ch, _, ⟨_, ht⟩ | ⟨_, _, ht⟩ | ⟨_, _, _, _, _, _, ht⟩⟩
    · exact .inl (fault _ ht)
    · exact .inl (fault _ ht)
    · exact .inl (fault _ ht)
    · exact .inr (.inl (answer ht (by simp)))
  | frame f x0 x1 =>
    rcases execFrame_cases h with ⟨_, ht⟩ | ⟨_, _, ht⟩ | ⟨_, _, _, _, _, _, _, _, _, ht⟩
    · exact .inl (fault _ ht)
    · exact .inl (fault _ ht)
    · exact .inr (.inl (answer ht (by simp)))
  | ostep =>
    rcases execOstep_cases h with ⟨_, ht⟩ | ⟨_, ht⟩
    · exact .inr (.inl (answer ht (by simp)))
    · exact .inl (fault _ ht)
  | onext =>
    rcases execOnext_cases h with ⟨_, ht⟩ | ⟨_, ht⟩
    · exact .inr (.inl (answer ht (by simp)))
    · exact .inl (fault _ ht)
  | snap => exact .inr (.inl (answer (execSnap_cases h) (by simp)))
  | restore => exact .inr (.inl (answer (execRestore_cases h) (by simp)))
  | rdst r =>
    rcases execRdst_cases h with ⟨_, ht⟩ | ⟨n, _, ⟨_, _, ht⟩ | ⟨_, ht⟩⟩
    · exact .inl (fault _ ht)
    · exact .inl (fault _ ht)
    · exact .inr (.inl (answer (r := s.regs) ht (by simp)))
  | rddl c k =>
    rcases execRddl_cases h with ⟨_, ht⟩ | ⟨ch, _, ht⟩
    · exact .inl (fault _ ht)
    · exact .inr (.inl (answer (r := s.regs) ht (by simp)))

/-- What one step of the machine can do: nothing, the next part of a `BLOCK` in progress, or one command of one port, decoded and
run or answered `E_ILLEGAL` (R69, R70, R81, R90). -/
theorem stepWith_cases {run : Meaning} (h : stepWith run s = .next t) :
    (s.sched = [] ∧ t = s) ∨
    ∃ a rest, s.sched = a :: rest ∧
      ((∃ b u, a = .core ∧ s.blk = some b ∧ blockResume b { s with sched := rest } = .next u ∧ t = deliver .audio u) ∨
       ((a = .core → s.blk = none) ∧ (getPort s (portOfAgent a)).waiting = [] ∧ t = { s with sched := rest }) ∨
       ((a = .core → s.blk = none) ∧ ∃ w ws u, (getPort s (portOfAgent a)).waiting = w :: ws ∧
         runCommand run (portOfAgent a) w
           (setPort { s with sched := rest } (portOfAgent a) ⟨ws, (getPort s (portOfAgent a)).answered⟩) = .next u ∧
         t = deliver (portOfAgent a) u)) := by
  have answer : ∀ {p o u}, answerOn p o = .next u → ∃ v, o = .next v ∧ u = deliver p v := by
    intro p o u ho
    cases o with
    | next v => exact ⟨v, rfl, by simpa [answerOn] using ho.symm⟩
    | fault e => simp [answerOn] at ho
    | refused r => simp [answerOn] at ho
  have take : ∀ {p u v}, takeCommand run p u = .next v →
      ((getPort u p).waiting = [] ∧ v = u) ∨
      ∃ w ws x, (getPort u p).waiting = w :: ws ∧
        runCommand run p w (setPort u p ⟨ws, (getPort u p).answered⟩) = .next x ∧ v = deliver p x := by
    intro p u v hv
    unfold takeCommand at hv
    split at hv
    · exact .inl ⟨‹_›, by simpa using hv.symm⟩
    · rename_i w ws hw
      obtain ⟨x, hx, rfl⟩ := answer hv
      exact .inr ⟨w, ws, x, hw, hx, rfl⟩
  unfold stepWith at h
  split at h
  · exact .inl ⟨‹_›, by simpa using h.symm⟩
  · rename_i a rest hs
    refine .inr ⟨a, rest, hs, ?_⟩
    cases a with
    | hostctl =>
      rcases take h with ⟨hw, ht⟩ | ⟨w, ws, x, hw, hx, ht⟩
      · exact .inr (.inl ⟨by simp, hw, ht⟩)
      · exact .inr (.inr ⟨by simp, w, ws, x, hw, hx, ht⟩)
    | core =>
      have core : (∃ b, s.blk = some b ∧ answerOn .audio (blockResume b { s with sched := rest }) = .next t) ∨
          (s.blk = none ∧ takeCommand run .audio { s with sched := rest } = .next t) := by
        unfold agentStep at h
        split at h
        · exact .inl ⟨_, ‹_›, h⟩
        · exact .inr ⟨‹_›, h⟩
        · contradiction
      rcases core with ⟨b, hb, hu⟩ | ⟨hb, hu⟩
      · obtain ⟨u, ho, ht⟩ := answer hu
        exact .inl ⟨b, u, rfl, hb, ho, ht⟩
      · rcases take hu with ⟨hw, ht⟩ | ⟨w, ws, x, hw, hx, ht⟩
        · exact .inr (.inl ⟨fun _ => hb, hw, ht⟩)
        · exact .inr (.inr ⟨fun _ => hb, w, ws, x, hw, hx, ht⟩)

end Sys2Proof.Machine
end

