-- ==== Sys2Proof/Laws/HostMap.lean ====
section
/-! SUPPORT. The functions of the real-number host on their domains (R114); outside them nothing is known (entry 31). -/

namespace Sys2Proof.Machine

theorem log2Real_of_pos {x : ℝ} (h : 0 < x) : log2Real x = Real.logb 2 x := if_pos h

theorem root4Real_of_nonneg {x : ℝ} (h : 0 ≤ x) : root4Real x = x ^ (1 / 4 : ℝ) := if_pos h

@[simp] theorem hostReal_exp2 (fMin fMax x : ℝ) : (hostReal fMin fMax).exp2 x = (2 : ℝ) ^ x := rfl
@[simp] theorem hostReal_log2 (fMin fMax x : ℝ) : (hostReal fMin fMax).log2 x = log2Real x := rfl
@[simp] theorem hostReal_pow4 (fMin fMax x : ℝ) : (hostReal fMin fMax).pow4 x = x ^ 4 := rfl
@[simp] theorem hostReal_root4 (fMin fMax x : ℝ) : (hostReal fMin fMax).root4 x = root4Real x := rfl
@[simp] theorem hostReal_fMin (fMin fMax : ℝ) : (hostReal fMin fMax).fMin = fMin := rfl
@[simp] theorem hostReal_fMax (fMin fMax : ℝ) : (hostReal fMin fMax).fMax = fMax := rfl

end Sys2Proof.Machine
end

