-- ==== Sys2Proof/Laws/Memory.lean ====
section
/-! SUPPORT. Every operation on the delay lines keeps them inside the capacity, and reset leaves them so (R35, R74). -/

namespace Sys2Proof.Machine

section Lines
variable {N : Type}

theorem memory_wf_iff (cap : Nat) (r : Regs N) :
    Memory.wf cap r = true ↔ r.ch0.dl.length ≤ cap ∧ r.ch1.dl.length ≤ cap := by simp [Memory.wf]

/-- A read or an operation that writes neither line keeps the form. -/
theorem memory_wf_congr {cap : Nat} {r t : Regs N} (h0 : t.ch0 = r.ch0) (h1 : t.ch1 = r.ch1)
    (h : Memory.wf cap r = true) : Memory.wf cap t = true := by
  rw [memory_wf_iff] at h ⊢
  rwa [h0, h1]

/-- A push of at most `cap` cells keeps the form, whatever the line was (R62). -/
theorem dlPush_length_le (dl : List N) (v : N) {n cap : Nat} (h : n ≤ cap) : (dlPush dl v n).length ≤ cap := by
  rw [dlPush_length]; omega

/-- Injecting the feedback keeps the size (R170). -/
@[simp] theorem delayInject_length (A : Arith N) (limit : N) (dl : List N) (v : N) :
    (delayInject A limit dl v).length = dl.length := by simp [delayInject]

/-- Replacing a channel by one whose line fits keeps the form. -/
theorem memory_wf_setChan {cap : Nat} {r : Regs N} {c : Chan} {ch : ChannelState N} (hc : ch.dl.length ≤ cap)
    (h : Memory.wf cap r = true) : Memory.wf cap (setChan r c ch) = true := by
  rw [memory_wf_iff] at h ⊢
  cases c
  · exact ⟨hc, h.2⟩
  · exact ⟨h.1, hc⟩

/-- The transform of a channel leaves its line inside the stage count (R41 I3, R62). -/
theorem channelTransform_length {A : Arith N} {cfg : Cfg N} {g : ChannelInputs N} {ch ch' : ChannelState N} {x out : N}
    (h : channelTransform A cfg g ch x = some (ch', out)) : ch'.dl.length = min (ch.dl.length + 1) g.stages := by
  obtain ⟨xp, a, yd, y, xfb, -, -, -, -, -, rfl, -⟩ := channelTransform_eq_some h
  simp [dlPush_length]

/-- `CH.PROCESS` keeps the form while the stage count is inside the capacity (R74). -/
theorem memory_wf_chProcess {A : Arith N} {cfg : Cfg N} {c : Chan} {x out : N} {r t : Regs N} {cap : Nat}
    (hs : r.stages ≤ cap) (h : Memory.wf cap r = true) (ht : chProcess A cfg c x r = some (t, out)) :
    Memory.wf cap t = true := by
  obtain ⟨ch, hch, rfl⟩ := chProcess_eq_some ht
  refine memory_wf_setChan ?_ h
  rw [channelTransform_length hch]
  have : (channelInputs r).stages = r.stages := rfl
  omega

/-- A frame keeps the form while the stage count is inside the capacity (R74). -/
theorem memory_wf_frameRegs {A : Arith N} {cfg : Cfg N} {x0 x1 o0 o1 : N} {r t : Regs N} {cap : Nat}
    (hs : r.stages ≤ cap) (h : Memory.wf cap r = true) (ht : frameRegs A cfg x0 x1 r = some (t, o0, o1)) :
    Memory.wf cap t = true := by
  obtain ⟨r0, h0, h1⟩ := frameRegs_eq_some ht
  have hm : Memory.wf cap (modTap A cfg r).1 = true := memory_wf_congr rfl rfl h
  obtain ⟨ch, -, rfl⟩ := chProcess_eq_some h0
  exact memory_wf_chProcess (by simpa using hs) (memory_wf_chProcess (by simpa using hs) hm h0) h1

/-- Reset leaves both lines empty (R40). -/
theorem memory_wf_reset (A : Arith N) (cfg : Cfg N) (cap : Nat) : Memory.wf cap (Regs.reset A cfg) = true := by
  simp [Memory.wf, Regs.reset, ChannelState.reset]

end Lines

/-- The memory of the machine after reset has the form. -/
theorem memory_wf_state_reset : Memory.wf design.dlCap State.reset.regs = true := memory_wf_reset _ _ _

end Sys2Proof.Machine
end

