-- ==== Sys2Proof/Laws/Operands.lean ====
section
/-! SUPPORT. The selectors that name something are those the decoder lets through (R88, R89, R90). -/

namespace Sys2Proof.Machine

/-- A selector names a parameter when its number is 0 to 6 (R89). -/
theorem paramOfSel_isSome (p : Selector) : (paramOfSel p).isSome = isParamSel p := by
  revert p; decide +kernel

/-- A selector names a channel when its number is 0 or 1 (R89). -/
theorem chanOfSel_isSome (c : Selector) : (chanOfSel c).isSome = isChanSel c := by
  revert c; decide +kernel

/-- A selector names a register when its number is in the map of R38. -/
theorem regOfSel_isSome (r : Selector) : (regOfSel r).isSome = isRegSel r := by
  revert r; decide +kernel

/-- No two selectors name the same parameter (R89). -/
theorem paramOfSel_injective (p q : Selector) (x : Param) (hp : paramOfSel p = some x) (hq : paramOfSel q = some x) :
    p = q := by
  have h : ∀ p : Selector, ∀ x, paramOfSel p = some x →
      p = match x with
        | .sine => 0#8 | .freq => 1#8 | .duty => 2#8 | .len => 3#8 | .depth => 4#8 | .fb => 5#8 | .mix => 6#8 := by
    intro p x
    cases x <;> revert p <;> decide +kernel
  rw [h p x hp, h q x hq]

/-- A finite binary64 sample is taken as it is (R84). -/
theorem decodeSample_binary64 (w : DataWord) (h : F64.isFinite w = true) : decodeSample .binary64 w = some w := by
  simp [decodeSample, h]

end Sys2Proof.Machine
end

