-- ==== Sys2Proof/Laws/PerInstr.lean ====
section
/-! SUPPORT. Facts about every command as syntax, one lemma per constructor. -/

namespace Sys2Proof.Laws

open Sys2Proof

/-- The fields of a command word put together from its fields (R82). -/
theorem opField_cmdWord (op : BitVec 8) (a : Selector) (f : BitVec 1) : opField (cmdWord op a f) = op := by
  apply BitVec.eq_of_getLsbD_eq
  intro i hi
  simp only [opField, cmdWord, BitVec.getLsbD_extractLsb', BitVec.getLsbD_append]
  simp [hi, show ¬ 23 + i < 15 by omega, show ¬ 23 + i - 15 < 8 by omega, show 23 + i - 15 - 8 = i by omega]

theorem aField_cmdWord (op : BitVec 8) (a : Selector) (f : BitVec 1) : aField (cmdWord op a f) = a := by
  apply BitVec.eq_of_getLsbD_eq
  intro i hi
  simp only [aField, cmdWord, BitVec.getLsbD_extractLsb', BitVec.getLsbD_append]
  simp [hi, show ¬ 15 + i < 15 by omega, show 15 + i - 15 = i by omega]

theorem zField_cmdWord (op : BitVec 8) (a : Selector) (f : BitVec 1) : zField (cmdWord op a f) = 0#15 := by
  apply BitVec.eq_of_getLsbD_eq
  intro i hi
  simp only [zField, cmdWord, BitVec.getLsbD_extractLsb', BitVec.getLsbD_append]
  simp [hi]

theorem fField_cmdWord (op : BitVec 8) (a : Selector) (f : BitVec 1) : fField (cmdWord op a f) = f := by
  apply BitVec.eq_of_getLsbD_eq
  intro i hi
  simp only [fField, cmdWord, BitVec.getLsbD_extractLsb', BitVec.getLsbD_append]
  simp [hi]

/-- The word the encoder writes for any command has a zero reserved field, an assigned opcode, and its format flag set only by
`CHPROC` and `FRAME` (R82, R83, R88). -/
def EncodedFields.Statement (i : Instr) : Prop :=
  zField (encode i).cmd = 0#15 ∧
  1 ≤ (opField (encode i).cmd).toNat ∧ (opField (encode i).cmd).toNat ≤ 14 ∧
  (fField (encode i).cmd = 1#1 → opField (encode i).cmd = 7#8 ∨ opField (encode i).cmd = 8#8)

/-- The fields of a word with a command's opcode. -/
theorem encodedFields_of {i : Instr} {op : BitVec 8} {a : Selector} {f : BitVec 1} (h : (encode i).cmd = cmdWord op a f)
    (h1 : 1 ≤ op.toNat) (h2 : op.toNat ≤ 14) (h3 : f = 1#1 → op = 7#8 ∨ op = 8#8) : EncodedFields.Statement i := by
  unfold EncodedFields.Statement
  rw [h, opField_cmdWord, zField_cmdWord, fField_cmdWord]
  exact ⟨rfl, h1, h2, h3⟩

theorem EncodedFields.init : EncodedFields.Statement .init := encodedFields_of rfl (by decide) (by decide) (by decide)
theorem EncodedFields.setrate (r : DataWord) : EncodedFields.Statement (.setrate r) :=
  encodedFields_of rfl (by decide) (by decide) (by decide)
theorem EncodedFields.wrpar (p : Selector) (v : DataWord) : EncodedFields.Statement (.wrpar p v) :=
  encodedFields_of rfl (by decide) (by decide) (by decide)
theorem EncodedFields.rdpar (p : Selector) : EncodedFields.Statement (.rdpar p) :=
  encodedFields_of rfl (by decide) (by decide) (by decide)
theorem EncodedFields.block : EncodedFields.Statement .block := encodedFields_of rfl (by decide) (by decide) (by decide)
theorem EncodedFields.mod : EncodedFields.Statement .mod := encodedFields_of rfl (by decide) (by decide) (by decide)
theorem EncodedFields.chproc (c : Selector) (f : Fmt) (x : DataWord) : EncodedFields.Statement (.chproc c f x) :=
  encodedFields_of rfl (by decide) (by decide) (fun _ => .inl rfl)
theorem EncodedFields.frame (f : Fmt) (x0 x1 : DataWord) : EncodedFields.Statement (.frame f x0 x1) :=
  encodedFields_of rfl (by decide) (by decide) (fun _ => .inr rfl)
theorem EncodedFields.ostep : EncodedFields.Statement .ostep := encodedFields_of rfl (by decide) (by decide) (by decide)
theorem EncodedFields.onext : EncodedFields.Statement .onext := encodedFields_of rfl (by decide) (by decide) (by decide)
theorem EncodedFields.snap : EncodedFields.Statement .snap := encodedFields_of rfl (by decide) (by decide) (by decide)
theorem EncodedFields.restore : EncodedFields.Statement .restore :=
  encodedFields_of rfl (by decide) (by decide) (by decide)
theorem EncodedFields.rdst (r : Selector) : EncodedFields.Statement (.rdst r) :=
  encodedFields_of rfl (by decide) (by decide) (by decide)
theorem EncodedFields.rddl (c : Selector) (i : DataWord) : EncodedFields.Statement (.rddl c i) :=
  encodedFields_of rfl (by decide) (by decide) (by decide)

end Sys2Proof.Laws
end

