-- ==== Sys2Proof/Machine/Asm.lean ====
section
/-! DEFINITION. The assembler syntax of R93 and the pseudo-instructions of R94, from a line of text to the commands it stands for,
each with its port. -/

namespace Sys2Proof.Machine

/-- The text cut at every `c`. -/
def cutAt (c : Char) : List Char → List (List Char)
  | [] => [[]]
  | x :: xs =>
    if x = c then [] :: cutAt c xs
    else
      match cutAt c xs with
      | [] => [[x]]
      | t :: ts => (x :: t) :: ts

def isBlank (c : Char) : Bool := c = ' ' || c = '\t'

/-- The text without blanks at its ends. -/
def trimBlanks (t : List Char) : List Char := ((t.dropWhile isBlank).reverse.dropWhile isBlank).reverse

/-- A digit of a number in the given base, 10 or 16. -/
def digitOf (base : Nat) (c : Char) : Option Nat :=
  let n := c.toNat
  let d :=
    if 48 ≤ n ∧ n ≤ 57 then n - 48
    else if 65 ≤ n ∧ n ≤ 70 then n - 55
    else if 97 ≤ n ∧ n ≤ 102 then n - 87
    else 99
  if d < base then some d else none

/-- The natural number written by digits, from a number already read. -/
def digitsFrom (base : Nat) : Nat → List Char → Option Nat
  | acc, [] => some acc
  | acc, c :: cs =>
    match digitOf base c with
    | none => none
    | some d => digitsFrom base (acc * base + d) cs

/-- An unsigned integer: decimal, or hexadecimal after `0x`. -/
def natLit : List Char → Option Nat
  | '0' :: 'x' :: c :: cs => digitsFrom 16 0 (c :: cs)
  | [] => none
  | c :: cs => digitsFrom 10 0 (c :: cs)

/-- A decimal literal: its sign, and its magnitude as a fraction. -/
structure DecLit where
  neg : Bool
  p : Nat
  q : Nat
  deriving DecidableEq, Repr

/-- A decimal literal without its sign: digits, and perhaps a point and more digits. -/
def decMagnitude (neg : Bool) (t : List Char) : Option DecLit :=
  match cutAt '.' t with
  | [a] => if a = [] then none else (digitsFrom 10 0 a).map fun n => ⟨neg, n, 1⟩
  | [a, b] =>
    if a = [] || b = [] then none else (digitsFrom 10 0 (a ++ b)).map fun n => ⟨neg, n, 10 ^ b.length⟩
  | _ => none

/-- A decimal literal (R93); its sign and digits, and no exponent, are PRESUMED (entry 22). -/
def decLit : List Char → Option DecLit
  | '-' :: t => decMagnitude true t
  | '+' :: t => decMagnitude false t
  | t => decMagnitude false t

/-- The binary64 value nearest a decimal literal, ties to even (R93). -/
def dec64 (d : DecLit) : DataWord := F64.ofRatio d.neg (d.p * F64.one1074) d.q

/-- The binary32 pattern nearest a decimal literal, ties to even, in bits 31:0 (R93). -/
def dec32 (d : DecLit) : DataWord :=
  let m := min (F64.roundMag 23 (d.p * 2 ^ 149) d.q) F64.infMag32
  BitVec.ofNat 64 (if d.neg then m + 0x80000000 else m)

/-- The operands that are no number, by spelling, with their binary64 word and their binary32 word. DESIGN CHOICE (entry 30): R93's
`<num>` has no such form, and 95_test_vectors.md writes `NaN` for `0x7FF8000000000000`, `+inf` and `-inf`; the binary32 word of `NaN`
and the spelling `inf` are the model's. -/
def specialLits : List (String × DataWord × DataWord) :=
  [("NaN", 0x7FF8000000000000#64, 0x7FC00000#64), ("inf", F64.inf false, 0x7F800000#64),
    ("+inf", F64.inf false, 0x7F800000#64), ("-inf", F64.inf true, 0xFF800000#64)]

/-- One of two words, by format. -/
def wordOfFmt (f : Fmt) (w64 w32 : DataWord) : DataWord :=
  match f with
  | .binary64 => w64
  | .binary32 => w32

/-- The word of an operand that is no number (entry 30). -/
def specialLit (f : Fmt) (t : List Char) : Option DataWord :=
  (specialLits.find? fun n => n.1.toList == t).map fun n => wordOfFmt f n.2.1 n.2.2

/-- `<num>` in the format of the command's suffix: a 64-bit pattern of sixteen hexadecimal digits, an infinity or a NaN by name
(entry 30), or a decimal literal (R93). -/
def numLit (f : Fmt) : List Char → Option DataWord
  | '0' :: 'x' :: t => if t.length = 16 then (digitsFrom 16 0 t).map (BitVec.ofNat 64) else none
  | t =>
    match specialLit f t with
    | some w => some w
    | none => (decLit t).map fun d => wordOfFmt f (dec64 d) (dec32 d)

/-- `<pname>` (R93). -/
def paramName (t : List Char) : Option Param :=
  ([("SINE", Param.sine), ("FREQ", .freq), ("DUTY", .duty), ("LEN", .len), ("DEPTH", .depth), ("FB", .fb),
    ("MIX", .mix)].find? fun n => n.1.toList == t).map Prod.snd

/-- The numbers of the global registers by name (R38). -/
def globalRegNames : List (String × Nat) :=
  [("P_SINE", 0x00), ("P_FREQ", 0x01), ("P_DUTY", 0x02), ("P_LEN", 0x03), ("P_DEPTH", 0x04), ("P_FB", 0x05), ("P_MIX", 0x06),
    ("RATE", 0x08), ("STAGES", 0x09), ("C_DEPTH", 0x0A), ("C_LEN", 0x0B), ("C_TAP", 0x0C), ("B_SINE", 0x0D), ("B_FB", 0x0E),
    ("B_MIX", 0x0F), ("OSC_W", 0x10), ("OSC_DUTY", 0x11), ("OSC_PHASE", 0x12), ("OSC_SNAP", 0x13), ("WSEL", 0x14),
    ("LFO_S", 0x15), ("FD_S", 0x16), ("STATUS", 0x18), ("G_IN", 0x20), ("G_CHP", 0x21), ("G_CLP", 0x22), ("B0", 0x23),
    ("A1", 0x24), ("A2", 0x25), ("G_FB", 0x26), ("G_LFO", 0x27), ("G_FD", 0x28)]

/-- The offsets of the per-channel registers by name (R38). -/
def chanRegNames : List (String × Nat) :=
  [("IN_S", 0x0), ("F1_HP_S", 0x1), ("F1_LP_S", 0x2), ("F1_Z1", 0x3), ("F1_Z2", 0x4), ("F2_HP_S", 0x5), ("F2_LP_S", 0x6),
    ("F2_Z1", 0x7), ("F2_Z2", 0x8), ("FB_S", 0x9), ("DL_TAP", 0xA), ("DL_N", 0xB)]

def nameNumber (names : List (String × Nat)) (t : List Char) : Option Nat :=
  (names.find? fun n => n.1.toList == t).map Prod.snd

/-- `<rname>`: a global register, or a per-channel register written `NAME[c]` (R93). -/
def regName (t : List Char) : Option Selector :=
  match cutAt '[' t with
  | [g] => (nameNumber globalRegNames g).map (BitVec.ofNat 8)
  | [k, c] =>
    match nameNumber chanRegNames k, c with
    | some k, ['0', ']'] => some (BitVec.ofNat 8 (0x40 + k))
    | some k, ['1', ']'] => some (BitVec.ofNat 8 (0x50 + k))
    | _, _ => none
  | _ => none

/-- `<c>`: a channel number as the selector field carries it; the decoder checks its range. -/
def chanLit (t : List Char) : Option Selector :=
  match natLit t with
  | some n => if n < 256 then some (BitVec.ofNat 8 n) else none
  | none => none

/-- The samples of `PBLOCK`, taken in pairs. -/
def samplePairs : List (List Char) → Option (List (Num64 × Num64))
  | [] => some []
  | l :: r :: ts =>
    match numLit .binary64 l, numLit .binary64 r, samplePairs ts with
    | some a, some b, some xs => some ((a, b) :: xs)
    | _, _, _ => none
  | [_] => none

def isParen (c : Char) : Bool := c = '(' || c = ')'

/-- The commands of one mnemonic and its operands (R93, R94). -/
def assembleCommand (h : HostFns Num64) (mnemonic : String) (args : List (List Char)) : Option (List Instr) :=
  match mnemonic, args with
  | "INIT", [] => some [.init]
  | "SETRATE", [v] => (numLit .binary64 v).map fun v => [.setrate v]
  | "WRPAR", [p, v] =>
    match paramName p, numLit .binary64 v with
    | some p, some v => some [.wrpar (selOfParam p) v]
    | _, _ => none
  | "RDPAR", [p] => (paramName p).map fun p => [.rdpar (selOfParam p)]
  | "BLOCK", [] => some [.block]
  | "MOD", [] => some [.mod]
  | "CHPROC", [c, v] =>
    match chanLit c, numLit .binary64 v with
    | some c, some v => some [.chproc c .binary64 v]
    | _, _ => none
  | "CHPROC.S", [c, v] =>
    match chanLit c, numLit .binary32 v with
    | some c, some v => some [.chproc c .binary32 v]
    | _, _ => none
  | "FRAME", [l, r] =>
    match numLit .binary64 l, numLit .binary64 r with
    | some l, some r => some [.frame .binary64 l r]
    | _, _ => none
  | "FRAME.S", [l, r] =>
    match numLit .binary32 l, numLit .binary32 r with
    | some l, some r => some [.frame .binary32 l r]
    | _, _ => none
  | "OSTEP", [] => some [.ostep]
  | "ONEXT", [] => some [.onext]
  | "SNAP", [] => some [.snap]
  | "RESTORE", [] => some [.restore]
  | "RDST", [r] => (regName r).map fun r => [.rdst r]
  | "RDDL", [c, i] =>
    match chanLit c, natLit i with
    | some c, some i => if i < 2 ^ 64 then some [.rddl c (BitVec.ofNat 64 i)] else none
    | _, _ => none
  | "PBLOCK", args => (samplePairs (args.map fun t => trimBlanks (t.filter fun c => !isParen c))).map pseudoPblock
  | "WRNORM", [p, v] =>
    match paramName p, numLit .binary64 v with
    | some p, some v => some (pseudoWrnorm h p v)
    | _, _ => none
  | "SETFREQ", [v] => (numLit .binary64 v).map pseudoSetfreq
  | "BOOT", [v] => (numLit .binary64 v).map pseudoBoot
  | _, _ => none

/-- The operands of a line: the text after the mnemonic, cut at commas. -/
def operandsOf (t : List Char) : List (List Char) :=
  if trimBlanks t = [] then [] else (cutAt ',' t).map trimBlanks

/-- A command without its port prefix. -/
def assembleBody (h : HostFns Num64) (port : Port) (t : List Char) : Option (List (Port × Instr)) :=
  (assembleCommand h (String.ofList (t.takeWhile fun c => !isBlank c)) (operandsOf (t.dropWhile fun c => !isBlank c))).map
    fun is => is.map fun i => (port, i)

/-- One line of assembly: what stands before `;`, on the control port after a prefix `C:`, else on the audio port; an empty line
is no command (R93). -/
def assembleLine (h : HostFns Num64) (line : List Char) : Option (List (Port × Instr)) :=
  match trimBlanks (line.takeWhile fun c => c ≠ ';') with
  | [] => some []
  | 'C' :: ':' :: t => assembleBody h .control (trimBlanks t)
  | t => assembleBody h .audio t

end Sys2Proof.Machine
end

