-- ==== Sys2Proof/Tests/Slice0.lean ====
section
/-! SUPPORT. Checks of the model against the spec's own examples and vectors, and for every statement of
`Certificates/Slice0/Obligations.lean` with hypotheses a concrete state and operands that meet them. -/

namespace Sys2Proof.Tests

open Sys2Proof Sys2Proof.Machine

/-! ## Ill-formed terms are refused (R90, R286) -/

theorem test_wrpar_selector_refused : (Instr.wrpar 7#8 0#64).wellFormed = false := by decide
theorem test_rdpar_selector_refused : (Instr.rdpar 0xFF#8).wellFormed = false := by decide
theorem test_chproc_selector_refused : (Instr.chproc 2#8 .binary64 0#64).wellFormed = false := by decide
theorem test_rdst_selector_refused : (Instr.rdst 0x17#8).wellFormed = false := by decide
theorem test_rddl_selector_refused : (Instr.rddl 2#8 0#64).wellFormed = false := by decide

/-- The decoder refuses the words of the same terms. -/
theorem test_ill_formed_words_refused :
    ∀ i ∈ [Instr.wrpar 7#8 0#64, .rdpar 0xFF#8, .chproc 2#8 .binary64 0#64, .rdst 0x17#8, .rddl 2#8 0#64],
      decodeAudio (encode i) = .error .selector := by decide

/-! ## Decoding, from words written out from R82 and R88 -/

theorem test_decode_init : decode .audio 0x01000000#32 9#64 9#64 = .ok .init := by decide
theorem test_decode_setrate : decode .audio 0x02000000#32 5#64 9#64 = .ok (.setrate 5#64) := by decide
theorem test_decode_wrpar : decode .control 0x03060000#32 5#64 9#64 = .ok (.wrpar 6#8 5#64) := by decide
theorem test_decode_rdpar : decode .control 0x04020000#32 5#64 9#64 = .ok (.rdpar 2#8) := by decide
theorem test_decode_block : decode .audio 0x05000000#32 5#64 9#64 = .ok .block := by decide
theorem test_decode_mod : decode .audio 0x06000000#32 5#64 9#64 = .ok .mod := by decide
theorem test_decode_chproc : decode .audio 0x07010001#32 5#64 9#64 = .ok (.chproc 1#8 .binary32 5#64) := by decide
theorem test_decode_frame : decode .audio 0x08000000#32 5#64 9#64 = .ok (.frame .binary64 5#64 9#64) := by decide
theorem test_decode_ostep : decode .audio 0x09000000#32 5#64 9#64 = .ok .ostep := by decide
theorem test_decode_onext : decode .audio 0x0A000000#32 5#64 9#64 = .ok .onext := by decide
theorem test_decode_snap : decode .audio 0x0B000000#32 5#64 9#64 = .ok .snap := by decide
theorem test_decode_restore : decode .audio 0x0C000000#32 5#64 9#64 = .ok .restore := by decide
theorem test_decode_rdst : decode .audio 0x0D5B0000#32 5#64 9#64 = .ok (.rdst 0x5B#8) := by decide
theorem test_decode_rddl : decode .audio 0x0E010000#32 5#64 9#64 = .ok (.rddl 1#8 5#64) := by decide

/-- Illegal words of R90, one for each of its clauses. -/
theorem test_illegal_words :
    decode .audio 0x00000000#32 0#64 0#64 = .error .opcode ∧
    decode .audio 0x0F000000#32 0#64 0#64 = .error .opcode ∧
    decode .audio 0x01000002#32 0#64 0#64 = .error .reservedBits ∧
    decode .audio 0x06000001#32 0#64 0#64 = .error .formatFlag ∧
    decode .audio 0x08010000#32 0#64 0#64 = .error .selector ∧
    decode .audio 0x0D4C0000#32 0#64 0#64 = .error .selector ∧
    decode .control 0x0D180000#32 0#64 0#64 = .error .port := by decide

/-- Bits numbered as the opcode table numbers them, operand words of zeros where the table gives none. -/
theorem test_table_word : decodeTableWord 32 0x07010001 = some (.chproc 1#8 .binary32 0#64) := by decide

/-- The step after placing a word runs the command it decodes to (entry 7). -/
theorem test_placed_word_runs (s : State) :
    step (s.withFetchWord 32 0x06000000) = answerOn .audio (exec .mod { s with blk := none }) := by rfl

/-! ## A small state under the test configuration `CFG_T` (R9) -/

/-- A shaper with the values S1 to S3 fix. -/
def testShape (x : Num64) : Num64 :=
  if x = F64.halfPi then F64.one else if x = F64.neg F64.halfPi then F64.negOne else F64.zero

/-- `CFG_T`. -/
def testCfg : Cfg Num64 := cfgT testShape

/-- The reset registers of `CFG_T` at `RATE = 8`, a block prepared with `STAGES = 4`. -/
def testRegs : Regs Num64 :=
  { Regs.reset arithF64 testCfg with rate := 0x4020000000000000#64, stages := 4, status := 3#16 }

/-- A state with given registers and nothing waiting. -/
def stateOf (r : Regs Num64) : State := ⟨r, none, none, ⟨[], []⟩, ⟨[], []⟩, []⟩

/-- The answer of a command, and a view of the registers it leaves. -/
def answerOf (o : Host.Outcome State Fault Refusal) : Option Response :=
  match o with
  | .next t => t.resp
  | .fault _ => none
  | .refused _ => none

def after {α : Type} (o : Host.Outcome State Fault Refusal) (f : Regs Num64 → α) : Option α :=
  match o with
  | .next t => some (f t.regs)
  | .fault _ => none
  | .refused _ => none

/-- A next state with a decidable property, found by running. -/
theorem exists_next {o : Host.Outcome State Fault Refusal} (f : State → Bool)
    (h : (match o with | .next t => f t | .fault _ => false | .refused _ => false) = true) :
    ∃ t, o = .next t ∧ f t = true := by
  cases o with
  | next t => exact ⟨t, rfl, h⟩
  | fault e => simp at h
  | refused r => simp at h

/-! ## One step of each command, against the examples of its rule -/

/-- R255, R40. -/
theorem test_init : after (initWith testCfg (stateOf testRegs)) (fun r => (r.status, r.p.duty, r.stages)) =
    some (0#16, 0x3FE0000000000000#64, 1) := by decide +kernel

/-- R256: 8 is accepted, `-0` is not. -/
theorem test_setrate_accepts : after (execSetrate 0x4020000000000000#64 (stateOf { testRegs with status := 2#16 }))
    (fun r => (r.rate, r.status)) = some (0x4020000000000000#64, 1#16) := by decide
theorem test_setrate_refuses : after (execSetrate 0x8000000000000000#64 (stateOf testRegs))
    (fun r => (r.rate, r.status)) = some (0x4020000000000000#64, 0x0203#16) := by decide

/-- R257: `WRPAR FB, -0.5` is accepted, `WRPAR DUTY, 2` is not. -/
theorem test_wrpar_accepts : after (execWrpar 5#8 0xBFE0000000000000#64 (stateOf testRegs)) (fun r => (r.p.fb, r.status)) =
    some (0xBFE0000000000000#64, 3#16) := by decide
theorem test_wrpar_refuses : answerOf (execWrpar 2#8 0x4000000000000000#64 (stateOf testRegs)) = some ⟨3#8, 0#64, 0#64⟩ := by
  decide

/-- R259. -/
theorem test_rdpar : answerOf (execRdpar 2#8 (stateOf testRegs)) = some ⟨0#8, 0x3FE0000000000000#64, 0#64⟩ := by decide

/-- R231, R230: the defaults of `CFG_T` at `RATE = 8`, and with length and depth 1. -/
theorem test_block_computes : answerOf (blockResumeWith testCfg
    (.seven F64.zero F64.one F64.half F64.zero F64.zero F64.zero F64.one) (stateOf testRegs)) = some ⟨0#8, 4#64, 0#64⟩ := by
  decide +kernel
theorem test_block_smooths : after (blockResumeWith testCfg
    (.seven F64.zero F64.one F64.half F64.one F64.one F64.zero F64.one) (stateOf testRegs))
    (fun r => (r.cDepth, r.cLen, r.oscW)) = some (F64.half, F64.half, F64.twoPi) := by decide +kernel

/-- R238, R239: the example with `C_DEPTH = C_LEN = 0.5`. -/
theorem test_mod_answer : answerOf (modWith testCfg (stateOf { testRegs with cDepth := F64.half, cLen := F64.half })) =
    some ⟨0#8, 0x3FD2000000000000#64, 0xBFF0000000000000#64⟩ := by decide +kernel
theorem test_mod_states : after (modWith testCfg (stateOf { testRegs with cDepth := F64.half, cLen := F64.half }))
    (fun r => (r.lfoS, r.fdS, r.oscPhase)) = some (0xBFE0000000000000#64, 0x3FE2000000000000#64, 0x3FE921FB54442D18#64) := by
  decide +kernel

/-- R214, R215: a unit sample, and the cell it leaves. -/
theorem test_chproc_cell : after (chprocWith testCfg 0#8 .binary64 F64.one (stateOf testRegs)) (fun r => r.ch0.dl) =
    some [0x3F9F07C1F07C1F08#64] := by decide +kernel
theorem test_chproc_binary32 : answerOf (chprocWith testCfg 0#8 .binary32 0x000000003F800000#64 (stateOf testRegs)) =
    some ⟨0#8, 0x000000003B000000#64, 0#64⟩ := by decide +kernel

/-- R244: `FRAME 1, 0.5`; R292: a NaN before any block is `E_NOTREADY`. -/
theorem test_frame_answer : answerOf (frameWith testCfg .binary64 F64.one F64.half (stateOf testRegs)) =
    some ⟨0#8, 0x3F60000000000000#64, 0x3F50000000000000#64⟩ := by decide +kernel
theorem test_frame_not_ready : answerOf (frameWith testCfg .binary64 0x7FF8000000000000#64 F64.half
    (stateOf { testRegs with status := 1#16 })) = some ⟨4#8, 0#64, 0#64⟩ := by decide

/-- R153: from seven eighths of a period the phase wraps to `+0` (R151). -/
theorem test_ostep : after (execOstep (stateOf testRegs)) (fun r => r.oscPhase) = some 0x3FE921FB54442D18#64 := by
  decide +kernel
theorem test_ostep_wraps : after (execOstep (stateOf { testRegs with oscPhase := 0x4015FDBBE9BBA775#64 }))
    (fun r => r.oscPhase) = some 0#64 := by decide +kernel

/-- R154: the value at the phase before the step. -/
theorem test_onext_first : answerOf (onextWith testCfg (stateOf testRegs)) = some ⟨0#8, 0xBFF0000000000000#64, 0#64⟩ := by
  decide +kernel
theorem test_onext_second : answerOf (onextWith testCfg (stateOf { testRegs with oscPhase := 0x3FE921FB54442D18#64 })) =
    some ⟨0#8, 0xBFE0000000000000#64, 0#64⟩ := by decide +kernel

/-- R155, R156. -/
theorem test_snap : after (execSnap (stateOf { testRegs with oscPhase := 0x3FF921FB54442D18#64 })) (fun r => r.oscSnap) =
    some 0x3FF921FB54442D18#64 := by decide
theorem test_restore : after (execRestore (stateOf { testRegs with oscSnap := 0x3FF921FB54442D18#64 })) (fun r => r.oscPhase) =
    some 0x3FF921FB54442D18#64 := by decide

/-- R261: `RDST B0`, and a coefficient without a rate. -/
theorem test_rdst_coefficient : answerOf (rdstWith testCfg 0x23#8 (stateOf testRegs)) =
    some ⟨0#8, 0x3FD0000000000000#64, 0#64⟩ := by decide +kernel
theorem test_rdst_not_ready : answerOf (rdstWith testCfg 0x23#8 (stateOf { testRegs with status := 0#16 })) =
    some ⟨4#8, 0#64, 0#64⟩ := by decide

/-- R172: the example after R171, inside the line and beyond it. -/
theorem test_rddl_inside : answerOf (execRddl 0#8 1#64
    (stateOf { testRegs with ch0 := { testRegs.ch0 with dl := [0x4018000000000000#64, 0x4014000000000000#64] } })) =
    some ⟨0#8, 0x4014000000000000#64, 2#64⟩ := by decide
theorem test_rddl_outside : answerOf (execRddl 0#8 2#64
    (stateOf { testRegs with ch0 := { testRegs.ch0 with dl := [0x4018000000000000#64, 0x4014000000000000#64] } })) =
    some ⟨0#8, 0#64, 2#64⟩ := by decide

/-! ## The arithmetic, against the vectors of the rules -/

/-- R211: `SAT(0.5)` at limit 1, `SAT(3)` at limit 2. -/
theorem test_saturate : saturate arithF64 F64.one F64.half = 0x3FD5555555555555#64 ∧
    saturate arithF64 F64.two 0x4008000000000000#64 = 0x3FF3333333333333#64 := by decide +kernel

/-- R167: the example of the interpolated read. -/
theorem test_delay_read : delayRead arithF64 [0x4010000000000000#64, F64.two, F64.one] 0x3FF8000000000000#64 =
    some 0x3FF8000000000000#64 := by decide +kernel

/-- R101: a tie goes to the even neighbour (`1 + 2^-53` to 1); R121: a value past the binary32 range is an infinity. -/
theorem test_rounding : F64.add F64.one 0x3CA0000000000000#64 = F64.one ∧ F64.toSingle 0x7E37E43C8800759C#64 = 0x7F800000#32 := by
  decide +kernel

/-- R93, R94: a line of the command syntax, and a pseudo-instruction. -/
theorem test_assemble_line : assembleLine hostF64 "C: WRPAR FB, -0.5 ; feedback".toList =
    some [(.control, .wrpar 5#8 0xBFE0000000000000#64)] := by decide +kernel
theorem test_assemble_boot : assembleLine hostF64 "BOOT 44100".toList =
    some [(.audio, .init), (.audio, .setrate 0x40E5888000000000#64)] := by decide +kernel

/-- The lines of 95_test_vectors.md with a NaN (Program C, step 11) and an infinity (the `E_RANGE` row of `WRPAR`). -/
theorem test_assemble_special : assembleLine hostF64 "FRAME 1, NaN".toList =
      some [(.audio, .frame .binary64 0x3FF0000000000000#64 0x7FF8000000000000#64)] ∧
    assembleLine hostF64 "WRPAR FREQ, +inf".toList = some [(.audio, .wrpar 1#8 0x7FF0000000000000#64)] := by decide +kernel

/-! ## Witnesses: for each statement with hypotheses, a state and operands that meet them -/

/-- `DecodeInvertsEncode`, `EncodeInvertsDecode`: a well-formed command at the edge of its selector range. -/
theorem test_witness_encoding : (Instr.rdst 0x5B#8).wellFormed = true ∧
    decode .audio 0x0D5B0000#32 0#64 0#64 = .ok (.rdst 0x5B#8) := by decide

/-- `IllegalWords`, second half: a word the control port refuses. -/
theorem test_witness_illegal_word :
    decode .control (⟨0x01000000#32, 0#64, 0#64⟩ : PortCommand).cmd 0#64 0#64 = .error .port := by decide

/-- `OperandWordsDoNotDecode`: the same word with other operand words. -/
theorem test_witness_operand_words : decode .audio 0x08000001#32 1#64 2#64 = .ok (.frame .binary32 1#64 2#64) ∧
    decode .audio 0x08000001#32 3#64 4#64 = .ok (.frame .binary32 3#64 4#64) := by decide

/-- A state whose next step is CORE's, with one command waiting at the audio port. -/
def withAudio (r : Regs Num64) (w : PortCommand) : State := { stateOf r with audio := ⟨[w], []⟩, sched := [.core] }

/-- A state whose next step is HOSTCTL's, with one command waiting at the control port. -/
def withControl (r : Regs Num64) (w : PortCommand) : State := { stateOf r with control := ⟨[w], []⟩, sched := [.hostctl] }

/-- `StepRunsDecodedInstruction`, both clauses. -/
theorem test_witness_step : (withAudio testRegs ⟨0x0B000000#32, 0#64, 0#64⟩).blk = none ∧
    decode .audio 0x0B000000#32 0#64 0#64 = .ok .snap ∧
    (withControl testRegs ⟨0x04060000#32, 0#64, 0#64⟩).control.waiting = [⟨0x04060000#32, 0#64, 0#64⟩] ∧
    decode .control 0x04060000#32 0#64 0#64 = .ok (.rdpar 6#8) := by decide

/-- `EveryCommandAnsweredOnce`: a step that answers, from a state that holds no response. -/
theorem test_witness_answered : (withAudio testRegs ⟨0x0B000000#32, 0#64, 0#64⟩).resp = none ∧
    ∃ t, step (withAudio testRegs ⟨0x0B000000#32, 0#64, 0#64⟩) = .next t ∧
      decide (t.audio.answered.length = 1 ∧ t.resp = none) = true := ⟨rfl, exists_next _ (by decide +kernel)⟩

/-- `FaultSetsOnlyItsFlag`: a refused rate. -/
theorem test_witness_fault : ∃ t, exec (.setrate 0#64) (stateOf testRegs) = .next t ∧
    decide (t.resp = some ⟨2#8, 0#64, 0#64⟩) = true := exists_next _ (by decide +kernel)

/-- `ReadinessGating`: a state without a rate and without a block. -/
theorem test_witness_not_ready : (stateOf { testRegs with status := 0#16 }).regs.status.getLsbD 0 = false ∧
    (stateOf { testRegs with status := 1#16 }).regs.status.getLsbD 1 = false ∧ (0x20 ≤ (0x28#8).toNat ∧ (0x28#8).toNat ≤ 0x28) ∧
    (1#8).toNat ≤ 1 ∧ ¬(0x20 ≤ (0x29#8).toNat ∧ (0x29#8).toNat ≤ 0x28) := by decide

/-- `StickyFlagsOnlyInitClears`, `LifecycleFlags`, `RegisterWriters`: a command and a load of a `BLOCK` that answer. -/
theorem test_witness_exec : (∃ t, exec .snap (stateOf testRegs) = .next t) ∧
    ∃ t, blockResume (.one 0#64) (stateOf testRegs) = .next t := ⟨⟨_, rfl⟩, ⟨_, rfl⟩⟩

/-- The smallest positive number and the largest finite one are rates; zeros, infinities and NaNs are not (`SetrateStoresOrRefuses`,
and `WrparStoresOrRefuses` on the frequency). -/
theorem test_witness_rates :
    (F64.isFinite 0x0000000000000001#64 = true ∧ F64.lt 0#64 0x0000000000000001#64 = true) ∧
    (F64.isFinite 0x7FEFFFFFFFFFFFFF#64 = true ∧ F64.lt 0#64 0x7FEFFFFFFFFFFFFF#64 = true) ∧
    F64.lt 0#64 0x0000000000000000#64 = false ∧ F64.lt 0#64 0x8000000000000000#64 = false ∧
    F64.lt 0#64 0xBFF0000000000000#64 = false ∧ F64.isFinite 0x7FF0000000000000#64 = false ∧
    F64.isFinite 0x7FF8000000000000#64 = false := by decide

/-- `WrparStoresOrRefuses`, `RdparReadsParameter`: first and last parameter, values at both ends of the ranges and just outside. -/
theorem test_witness_parameters :
    [Param.sine, .freq, .duty, .len, .depth, .fb, .mix][0]? = some .sine ∧
    [Param.sine, .freq, .duty, .len, .depth, .fb, .mix][6]? = some .mix ∧
    arithF64.isLegal .sine 0x8000000000000000#64 = true ∧ arithF64.isLegal .mix 0x3FF0000000000000#64 = true ∧
    arithF64.isLegal .mix 0x3FF0000000000001#64 = false ∧ arithF64.isLegal .sine 0x8000000000000001#64 = false ∧
    arithF64.isLegal .fb 0xBFF0000000000000#64 = true ∧ arithF64.isLegal .fb 0xBFF0000000000001#64 = false := by decide

/-- `ParameterRoundTrip`: the parameters of the test configuration are legal. -/
theorem test_witness_round_trip : isParamSel 6#8 = true ∧ (∀ q, arithF64.isLegal q (parLoad testRegs q) = true) ∧
    ∃ t, exec (.rdpar 6#8) (stateOf testRegs) = .next t ∧ t.resp = some ⟨0#8, F64.one, 0#64⟩ := by
  refine ⟨by decide, ?_, _, rfl, rfl⟩
  intro q
  cases q <;> decide

/-- The largest delay is finite, whatever the design. -/
theorem tMax_finite : F64.isFinite design.tMax = true := by
  have h : arithF64.isPositive design.tMax = true := Design.orOne_legal (by decide) _
  simp only [Arith.isPositive, Bool.and_eq_true] at h
  exact h.1

/-- `BlockCompletes`: at a rate of one half the product is finite for every legal `T_MAX`, and at an infinite register value it is
not. -/
theorem test_witness_block :
    ({ stateOf { testRegs with rate := F64.half } with sched := List.replicate 7 Agent.core } : State).sched =
      List.replicate 7 .core ++ [] ∧
    (testRegs.status.getLsbD 0 = true) ∧ F64.isFinite (F64.mul F64.half design.tMax) = true ∧
    F64.isFinite (F64.mul 0x7FF0000000000000#64 design.tMax) = false := by
  refine ⟨rfl, by decide, F64.mul_half_finite tMax_finite, ?_⟩
  have h : arithF64.isPositive design.tMax = true := Design.orOne_legal (by decide) _
  simp only [Arith.isPositive, Bool.and_eq_true] at h
  obtain ⟨hn, hs, hm⟩ := (F64.lt_zero_iff design.tMax).mp h.2
  have hz : F64.isZero design.tMax = false := by simpa [F64.isZero] using hm
  have e : F64.mul 0x7FF0000000000000#64 design.tMax = F64.inf (F64.signBit 0x7FF0000000000000#64 != false) := by
    rw [← hs]
    simp [F64.mul, hn, hz, show F64.isNaN 0x7FF0000000000000#64 = false by decide,
      show F64.isInf 0x7FF0000000000000#64 = true by decide]
  rw [e]
  decide

/-- A state in which a `BLOCK` waits at the audio port and a `WRPAR` at the control port, to come after `k` of its eight steps. -/
def blockAndStore (k : Nat) : State :=
  { stateOf { testRegs with rate := F64.half } with
    audio := ⟨[⟨0x05000000#32, 0#64, 0#64⟩], []⟩
    control := ⟨[⟨0x03060000#32, F64.half, 0#64⟩], []⟩
    sched := List.replicate k .core ++ .hostctl :: (List.replicate (8 - k) .core ++ []) }

/-- `BlockSeesConcurrentStore`: at every place of the store, the last parameter written. -/
theorem test_witness_block_and_store (k : Nat) : (blockAndStore k).blk = none ∧
    (blockAndStore k).regs.status.getLsbD 0 = true ∧
    decode .audio 0x05000000#32 0#64 0#64 = .ok .block ∧
    decode .control 0x03060000#32 F64.half 0#64 = .ok (.wrpar (BitVec.ofNat 8 6) F64.half) ∧
    arithF64.isLegal .mix F64.half = true ∧
    ∃ r, cacheBlock arithF64 design (if 6 < k then testRegs.p else setParam testRegs.p .mix F64.half) (blockAndStore k).regs =
      some r := by
  refine ⟨rfl, (by decide : testRegs.status.getLsbD 0 = true), by decide, by decide, by decide, ?_⟩
  have h : F64.isFinite (F64.mul F64.half design.tMax) = true := F64.mul_half_finite tMax_finite
  have hi : arithF64.ifloor (arithF64.mul (blockAndStore k).regs.rate design.tMax) =
      some (F64.toInt (F64.mul F64.half design.tMax) / (F64.one1074 : Int)) := by
    show F64.ifloor (F64.mul F64.half design.tMax) = _
    simp only [F64.ifloor, h, if_true]
  simp only [cacheBlock, stageCount, hi]
  exact ⟨_, rfl⟩

/-! ### A prepared state whose next tap is 0 under every design -/

/-- Phase 0, no smoothed depth, no smoothed length, one stage, the largest power of two as the rate. -/
def quietRegs : Regs Num64 := { testRegs with rate := 0x7FE0000000000000#64, stages := 1 }

theorem shape_neg_halfPi : design.shapeFn (F64.neg F64.halfPi) = F64.negOne := by
  show Design.shape Config.rawShapeFn (F64.neg F64.halfPi) = F64.negOne
  unfold Design.shape
  rw [if_pos (by decide), F64.magBits_neg]
  unfold Design.shapeMag
  rw [if_pos rfl]
  decide

/-- A zero times a finite value that is not negative is that zero. -/
theorem zero_mul_finite {z g : Num64} (hz : F64.isFinite z = true) (h0 : F64.magBits z = 0) (hg : F64.isFinite g = true)
    (hs : F64.signBit g = false) : F64.mul z g = z := by
  have hr : F64.roundMag 52 0 F64.one1074 = 0 := by
    have := F64.roundMag_exact 52 0 F64.one1074 F64.one1074_pos
    rwa [show F64.quantaOf 52 0 = 0 by decide, Nat.zero_mul] at this
  rw [F64.mul_finite hz hg, (F64.quanta_eq_zero z).mpr h0, Nat.zero_mul]
  apply F64.ext_fields
  · rw [F64.signBit_ofRatio, hs, Bool.bne_false]
  · rw [F64.magBits_ofRatio, hr, h0]; rfl

theorem quiet_tap : (modTap arithF64 design quietRegs).1.cTap = 0#64 := by
  have hl : arithF64.isPositive design.tauLfo = true := Design.orOne_legal (by decide) _
  have hd : arithF64.isPositive design.tauFd = true := Design.orOne_legal (by decide) _
  obtain ⟨hlf, hls⟩ := filterCoef1_finite hl
  obtain ⟨hdf, hds⟩ := filterCoef1_finite hd
  have htri : waveValue arithF64 design wsel quietRegs.oscPhase quietRegs.oscDuty = F64.negOne := by
    have hdom : waveDomain arithF64 quietRegs.oscPhase quietRegs.oscDuty = true := by decide
    unfold waveValue waveShape wsel
    simp only [hdom, if_true]
    decide +kernel
  have hlfo : lfoMorph arithF64 design F64.negOne quietRegs.bSine = F64.negOne := by
    have e : waveShaper arithF64 design F64.negOne = F64.negOne := by
      unfold waveShaper
      simp only [arithF64]
      rw [show F64.mul F64.halfPi F64.negOne = F64.neg F64.halfPi by decide +kernel, shape_neg_halfPi]
    unfold lfoMorph
    rw [e]
    decide +kernel
  have hm : filterLp1 arithF64 quietRegs.lfoS (filterCoef1 arithF64 design.tauLfo quietRegs.rate)
      (arithF64.mul F64.negOne quietRegs.cDepth) = (0#64, 0#64) := by
    have e : arithF64.mul (arithF64.sub (arithF64.mul F64.negOne quietRegs.cDepth) quietRegs.lfoS)
        (filterCoef1 arithF64 design.tauLfo quietRegs.rate) = 0x8000000000000000#64 := by
      rw [show arithF64.sub (arithF64.mul F64.negOne quietRegs.cDepth) quietRegs.lfoS = 0x8000000000000000#64 by decide +kernel]
      exact zero_mul_finite (by decide) (by decide) hlf hls
    unfold filterLp1
    simp only [e]
    decide +kernel
  have ht : filterLp1 arithF64 quietRegs.fdS (filterCoef1 arithF64 design.tauFd quietRegs.rate) 0#64 = (0#64, 0#64) := by
    have e : arithF64.mul (arithF64.sub 0#64 quietRegs.fdS) (filterCoef1 arithF64 design.tauFd quietRegs.rate) = 0#64 := by
      rw [show arithF64.sub 0#64 quietRegs.fdS = 0#64 by decide +kernel]
      exact zero_mul_finite (by decide) (by decide) hdf hds
    unfold filterLp1
    simp only [e]
    decide +kernel
  have htgt : arithF64.mul (arithF64.mul quietRegs.cLen (arithF64.num ((quietRegs.stages : Int) - 1)))
      (arithF64.add (arithF64.mul arithF64.half 0#64) arithF64.half) = 0#64 := by decide +kernel
  simp only [modTap, oscNext, htri, hlfo, hm, htgt, ht]
  decide +kernel

/-- `ModAdvancesModulation`, `TapIsClamped`: the step completes and its tap is no NaN. -/
theorem test_witness_mod : 1 ≤ (stateOf quietRegs).regs.stages ∧ blkValid (stateOf quietRegs).regs = true ∧
    ∃ t, exec .mod (stateOf quietRegs) = .next t ∧ F64.isNaN t.regs.cTap = false := by
  have hb : blkValid (stateOf quietRegs).regs = true := by decide
  refine ⟨by decide, hb, respond (modTap arithF64 design quietRegs).1.cTap (modTap arithF64 design quietRegs).2
    { stateOf quietRegs with regs := (modTap arithF64 design quietRegs).1 }, ?_, ?_⟩
  · simp only [exec, execMod, modWith, needBlock_ready hb]
    rfl
  · show F64.isNaN (modTap arithF64 design quietRegs).1.cTap = false
    rw [quiet_tap]
    decide

/-- `FrameIsModThenChannels`: finite samples in either format, and a finite new tap. -/
theorem test_witness_frame : (stateOf quietRegs).regs.status.getLsbD 1 = true ∧
    decodeSample .binary64 F64.one = some F64.one ∧ decodeSample .binary32 0xFFFFFFFF3F800000#64 = some F64.one ∧
    F64.isFinite (modTap arithF64 design (stateOf quietRegs).regs).1.cTap = true := by
  refine ⟨by decide, by decide, by decide +kernel, ?_⟩
  show F64.isFinite (modTap arithF64 design quietRegs).1.cTap = true
  rw [quiet_tap]
  decide

/-- `SampleCommandsRefuseNonFinite`, the clause of `FRAME`: with a NaN in `FD_S` the new tap is a NaN. -/
theorem test_witness_frame_tap : (stateOf { testRegs with fdS := 0x7FF8000000000000#64 }).regs.status.getLsbD 1 = true ∧
    decodeSample .binary64 F64.one ≠ none ∧
    F64.isFinite (modTap arithF64 design (stateOf { testRegs with fdS := 0x7FF8000000000000#64 }).regs).1.cTap = false := by
  refine ⟨by decide, by decide, F64.not_finite_of_nan ?_⟩
  have hn : ∀ v : Num64, F64.isNaN (F64.add v 0x7FF8000000000000#64) = true := fun v => F64.isNaN_add (.inr (by decide))
  simp only [modTap, filterLp1, Arith.clamp, stateOf, arithF64, F64.lt_of_isNaN (.inl (hn _)), F64.lt_of_isNaN (.inr (hn _)),
    Bool.false_eq_true, if_false]
  exact hn _

/-- `ChprocTransformsChannel`, `SampleCommandsRefuseNonFinite`: finite and non-finite samples, finite and non-finite taps. -/
theorem test_witness_samples : (stateOf testRegs).regs.status.getLsbD 1 = true ∧
    decodeSample .binary64 0x7FEFFFFFFFFFFFFF#64 = some 0x7FEFFFFFFFFFFFFF#64 ∧ decodeSample .binary64 0xFFF0000000000000#64 = none ∧
    decodeSample .binary32 0x7F800000#64 = none ∧ F64.isFinite testRegs.cTap = true ∧
    F64.isFinite 0x7FF0000000000000#64 = false := by decide

/-- A prepared state with a finite tap runs `CHPROC` on either channel, and stays so. -/
theorem chproc_runs (s : State) (c : Selector) (ch : Chan) (f : Fmt) (w x : Num64) (hc : chanOfSel c = some ch)
    (hb : blkValid s.regs = true) (hx : decodeSample f w = some x) (ht : F64.isFinite s.regs.cTap = true) :
    ∃ t q, exec (.chproc c f w) s = .next t ∧ t.resp = some ⟨0#8, q, 0#64⟩ ∧ blkValid t.regs = true ∧
      F64.isFinite t.regs.cTap = true := by
  have hi : arithF64.ifloor (channelInputs s.regs).cTap = some (F64.toInt s.regs.cTap / (F64.one1074 : Int)) := by
    show F64.ifloor s.regs.cTap = _
    simp only [F64.ifloor, ht, if_true]
  obtain ⟨o, ho⟩ := channelTransform_isSome (cfg := design) hi (getChan s.regs ch) x
  have hp : chProcess arithF64 design ch x s.regs = some (setChan s.regs ch o.1, o.2) := by
    simp only [chProcess, ho, Option.map_some]
  refine ⟨respond (encodeSample f o.2) 0#64 { s with regs := setChan s.regs ch o.1 }, encodeSample f o.2, ?_, rfl, ?_, ?_⟩
  · simp only [exec, execChproc, chprocWith, hc, chprocOn]
    rw [needBlock_ready hb]
    simp only [hx, hp]
  · simpa [blkValid] using hb
  · simpa using ht

/-- `LineKeepsNewest`, `FormatDoesNotTouchState`, `ChannelsAreIndependent`: both formats of one sample run on a prepared state, and so
does a state that differs in the other channel alone. -/
theorem test_witness_chproc :
    (∃ t q, exec (.chproc 0#8 .binary32 0x3F800000#64) (stateOf testRegs) = .next t ∧ t.resp = some ⟨0#8, q, 0#64⟩) ∧
    (∃ t q, exec (.chproc 0#8 .binary64 F64.one) (stateOf testRegs) = .next t ∧ t.resp = some ⟨0#8, q, 0#64⟩) ∧
    decodeSample .binary32 0x3F800000#64 = some F64.one ∧
    (∃ t q, exec (.chproc 0#8 .binary64 F64.one)
      (stateOf (setChan testRegs .one { testRegs.ch1 with inS := F64.one, dl := [F64.half] })) = .next t ∧
      t.resp = some ⟨0#8, q, 0#64⟩) ∧
    (stateOf (setChan testRegs .one { testRegs.ch1 with inS := F64.one, dl := [F64.half] })).regs =
      setChan (stateOf testRegs).regs .one
        (getChan (stateOf (setChan testRegs .one { testRegs.ch1 with inS := F64.one, dl := [F64.half] })).regs .one) := by
  have h32 : decodeSample .binary32 0x3F800000#64 = some F64.one := by decide +kernel
  refine ⟨?_, ?_, h32, ?_, rfl⟩
  · obtain ⟨t, q, h, hr, -⟩ := chproc_runs (stateOf testRegs) 0#8 .zero .binary32 _ _ rfl (by decide) h32 (by decide)
    exact ⟨t, q, h, hr⟩
  · obtain ⟨t, q, h, hr, -⟩ := chproc_runs (stateOf testRegs) 0#8 .zero .binary64 F64.one F64.one rfl (by decide) (by decide)
      (by decide)
    exact ⟨t, q, h, hr⟩
  · obtain ⟨t, q, h, hr, -⟩ := chproc_runs (stateOf (setChan testRegs .one { testRegs.ch1 with inS := F64.one, dl := [F64.half] }))
      0#8 .zero .binary64 F64.one F64.one rfl (by decide) (by decide) (by decide)
    exact ⟨t, q, h, hr⟩

/-- `ChannelOrderDoesNotMatter`: both orders run. -/
theorem test_witness_channel_order : ∃ a b a' b',
    exec (.chproc 0#8 .binary64 F64.one) (stateOf testRegs) = .next a ∧ exec (.chproc 1#8 .binary64 F64.half) a = .next b ∧
    exec (.chproc 1#8 .binary64 F64.half) (stateOf testRegs) = .next a' ∧ exec (.chproc 0#8 .binary64 F64.one) a' = .next b' := by
  obtain ⟨a, -, h1, -, ha, ta⟩ := chproc_runs (stateOf testRegs) 0#8 .zero .binary64 F64.one F64.one rfl (by decide) (by decide)
    (by decide)
  obtain ⟨b, -, h2, -⟩ := chproc_runs a 1#8 .one .binary64 F64.half F64.half rfl ha (by decide) ta
  obtain ⟨a', -, h3, -, ha', ta'⟩ := chproc_runs (stateOf testRegs) 1#8 .one .binary64 F64.half F64.half rfl (by decide)
    (by decide) (by decide)
  obtain ⟨b', -, h4, -⟩ := chproc_runs a' 0#8 .zero .binary64 F64.one F64.one rfl ha' (by decide) ta'
  exact ⟨a, b, a', b', h1, h2, h3, h4⟩

/-- `FeedbackIsHeardLater`: the transform answers with either gain, state and scale. -/
theorem test_witness_feedback : ∃ o p,
    channelTransform arithF64 design (channelInputs testRegs) testRegs.ch0 F64.one = some o ∧
    channelTransform arithF64 { design with limit := F64.two } { channelInputs testRegs with bFb := F64.one }
      { testRegs.ch0 with fbS := F64.one } F64.one = some p := by
  have hi : arithF64.ifloor 0#64 = some 0 := by decide +kernel
  obtain ⟨o, ho⟩ := channelTransform_isSome (A := arithF64) (cfg := design) (g := channelInputs testRegs) hi testRegs.ch0 F64.one
  obtain ⟨p, hp⟩ := channelTransform_isSome (A := arithF64) (cfg := { design with limit := F64.two })
    (g := { channelInputs testRegs with bFb := F64.one }) hi { testRegs.ch0 with fbS := F64.one } F64.one
  exact ⟨o, p, ho, hp⟩

/-- `OstepAdvancesPhase`, `OnextReturnsTriangle`: a rate, none, and a phase and duty at the ends of the domain. -/
theorem test_witness_oscillator : (stateOf testRegs).regs.status.getLsbD 0 = true ∧
    (stateOf { testRegs with status := 0#16 }).regs.status.getLsbD 0 = false ∧
    (F64.le 0#64 0x8000000000000000#64 = true ∧ F64.lt 0x401921FB54442D17#64 0x401921FB54442D18#64 = true) ∧
    F64.le 0#64 0#64 = true ∧ F64.le 0x3FF0000000000000#64 0x3FF0000000000000#64 = true := by decide

/-- `PhaseStaysReduced`: a phase just below the period with an increment of several periods, and a zero increment. -/
theorem test_witness_phase : F64.le 0#64 0x401921FB54442D17#64 = true ∧ F64.lt 0x401921FB54442D17#64 F64.twoPi = true ∧
    F64.le 0#64 0x4059000000000000#64 = true ∧ F64.lt 0#64 F64.one = true ∧
    F64.isFinite (F64.add 0x401921FB54442D17#64 (F64.div 0x4059000000000000#64 F64.one)) = true ∧
    F64.isFinite (F64.add 0#64 (F64.div 0#64 F64.one)) = true := by decide +kernel

/-- `PhaseAfterSteps`: registers over the reals with phase 0 and a positive rate. -/
theorem test_witness_phase_real : ∃ r : Regs ℝ, r.oscPhase = 0 ∧ 0 ≤ r.oscW ∧ 0 < r.rate :=
  ⟨⟨⟨0, 1, 0, 0, 0, 0, 0⟩, 8, 1, 0, 0, 0, 0, 0, 0, 3, 0, 0, 0, 0, 0, 3#16, ChannelState.reset 0, ChannelState.reset 0⟩,
    rfl, by norm_num, by norm_num⟩

/-- `RdstReadsMap`, `RddlReadsCell`: a state with a rate; both channels. -/
theorem test_witness_observation : (stateOf testRegs).regs.status.getLsbD 0 = true ∧
    ((1#8, Chan.one) ∈ [((0#8 : Selector), Chan.zero), (1#8, Chan.one)]) := by decide

/-- `ReadsChangeNothing`: each of the three reads answers `OK`. -/
theorem test_witness_reads :
    (∃ t, exec (.rdpar 0#8) (stateOf testRegs) = .next t ∧ decide (t.resp = some ⟨0#8, 0#64, 0#64⟩) = true) ∧
    (∃ t, exec (.rdst 0x18#8) (stateOf testRegs) = .next t ∧ decide (t.resp = some ⟨0#8, 3#64, 0#64⟩) = true) ∧
    (∃ t, exec (.rddl 1#8 0#64) (stateOf testRegs) = .next t ∧ decide (t.resp = some ⟨0#8, 0#64, 0#64⟩) = true) :=
  ⟨exists_next _ (by decide +kernel), exists_next _ (by decide +kernel), exists_next _ (by decide +kernel)⟩

/-- `InvariantKeptByEveryStep`: a state with the invariant in which a rate is about to be set. -/
theorem test_witness_invariant : ∃ s t, Inv design s ∧ step s = .next t ∧ s.sched ≠ [] := by
  have hc := Design.cap_range Config.rawDlCap
  refine ⟨withAudio (Regs.reset arithF64 design) ⟨0x0B000000#32, 0#64, 0#64⟩, deliver .audio (respond 0#64 0#64
    { withAudio (Regs.reset arithF64 design) ⟨0x0B000000#32, 0#64, 0#64⟩ with audio := ⟨[], []⟩, sched := [] }), ?_, ?_, by simp [withAudio]⟩
  · exact
      { reserved := by simp [withAudio, stateOf, Regs.reset]
        stages_pos := Nat.le_refl 1
        stages_le := hc.1
        memory := memory_wf_reset _ _ _
        params := fun p => by cases p <;> exact Design.paramDefault_legal _
        rate := fun h => absurd h (by simp [withAudio, stateOf, Regs.reset, rateValid, getFlag])
        noRate := fun _ => rfl
        blkRate := fun h => absurd h (by simp [withAudio, stateOf, Regs.reset, blkValid, getFlag])
        latchedSine := Design.paramDefault_legal _
        latchedFb := Design.paramDefault_legal _
        latchedMix := Design.paramDefault_legal _
        latchedDuty := Design.paramDefault_legal _
        blkReady := fun h => absurd h (by simp [withAudio, stateOf])
        loaded := fun b h => absurd h (by simp [withAudio, stateOf]) }
  · have hd : decode .audio 0x0B000000#32 0#64 0#64 = .ok .snap := by decide
    simp [step, stepWith, withAudio, stateOf, agentStep, takeCommand, runCommand, hd, exec, execSnap, answerOn, setPort, deliver,
      respond, oscSnapshot, Regs.reset, arithF64, F64.zero]

/-- `OperationsRoundToNearest`: the four operations on finite operands with a finite result. -/
theorem test_witness_rounding : F64.isFinite F64.one = true ∧ F64.isFinite 0x4008000000000000#64 = true ∧
    F64.isFinite (F64.add F64.one 0x4008000000000000#64) = true ∧ F64.isFinite (F64.sub F64.one 0x4008000000000000#64) = true ∧
    F64.isFinite (F64.mul F64.one 0x4008000000000000#64) = true ∧ F64.isFinite (F64.div F64.one 0x4008000000000000#64) = true ∧
    F64.toInt 0x4008000000000000#64 ≠ 0 := by decide +kernel

/-- `FmodIsExact`: operands at both ends of the domain. -/
theorem test_witness_fmod : F64.isFinite 0x7FEFFFFFFFFFFFFF#64 = true ∧ F64.le 0#64 0x7FEFFFFFFFFFFFFF#64 = true ∧
    F64.le 0#64 0x8000000000000000#64 = true ∧ F64.isFinite 0x0000000000000001#64 = true ∧
    F64.lt 0#64 0x0000000000000001#64 = true := by decide

/-- `IntegerConversions`: a finite value, and the largest integer of the range. -/
theorem test_witness_integers : F64.isFinite 0xBFE0000000000000#64 = true ∧ F64.ifloor 0xBFE0000000000000#64 = some (-1) ∧
    (9007199254740992 : Int).natAbs ≤ 2 ^ 53 := by decide +kernel

/-- `SingleRoundTrip`: the largest finite pattern and the infinity next to it. -/
theorem test_witness_single : (0xFF7FFFFF#32 : Single).toNat % 0x80000000 < 0x7F800000 ∧
    0x7F800000 ≤ (0x7F800000#32 : Single).toNat % 0x80000000 := by decide

/-- `SingleRoundsToNearest`: values that are no NaN, at both ends of the binary32 range and halfway between two of its values. -/
theorem test_witness_single_rounding : F64.isNaN 0x47EFFFFFF0000000#64 = false ∧ F64.isNaN 0xB690000000000000#64 = false ∧
    F64.isNaN 0x3FF0000010000000#64 = false ∧ F64.toSingle 0x47EFFFFFF0000000#64 = 0x7F800000#32 ∧
    F64.toSingle 0x47EFFFFFEFFFFFFF#64 = 0x7F7FFFFF#32 ∧ F64.toSingle 0xB690000000000000#64 = 0x80000000#32 ∧
    F64.toSingle 0x3FF0000010000000#64 = 0x3F800000#32 ∧ F64.toSingle 0x3FF0000030000000#64 = 0x3F800002#32 := by decide +kernel

/-- `SaturationOddAndBounded`: a huge finite value at limit 1. -/
theorem test_witness_saturation : arithF64.isPositive F64.one = true ∧ F64.isFinite 0x7FEFFFFFFFFFFFFF#64 = true ∧
    F64.isFinite (F64.div 0x7FEFFFFFFFFFFFFF#64 F64.one) = true := by decide +kernel

/-- The statements in the reference arithmetic: numbers inside their domains (`SaturationReal`, `CoefficientsAreStable`,
`OnePoleDecays`, `SmoothingApproachesTarget`, `ShapesAreBounded`, `MorphIsCosine`, `DelayLineTaps`, `DelayReadIsConvex`,
`HostMappingRoundTrip`). -/
theorem test_witness_reals : (0 : ℝ) < 1 ∧ (0 : ℝ) < 1 / 2 ∧ (1 / 2 : ℝ) < 1 ∧ (1 : ℝ) ≤ 1 ∧ (0 : ℝ) ≤ 3 ∧
    (3 : ℝ) < 2 * Real.pi ∧ (∃ cfg : Cfg ℝ, cfg.shapeFn = Real.sin) ∧ (1 : Nat) ≤ 1 ∧
    (∀ v ∈ [(1 : ℝ), -1], |v| ≤ 1) := by
  refine ⟨by norm_num, by norm_num, by norm_num, le_refl _, by norm_num, ?_, ?_, le_refl _, by simp⟩
  · linarith [Real.pi_gt_three]
  · exact ⟨⟨1, 1, 1, 1, 1, 1, 1, 1, 1, 1, 1, 1, ⟨0, 1, 0, 0, 0, 0, 0⟩, Real.sin, fun _ _ _ => 0⟩, rfl⟩

/-- `CellsStayInsideLimit`: a transform over the reals that answers, on a line inside the limit. -/
theorem test_witness_cells : ∃ (cfg : Cfg ℝ) (g : ChannelInputs ℝ) (ch : ChannelState ℝ) (o : ChannelState ℝ × ℝ),
    0 < cfg.limit ∧ (∀ v ∈ ch.dl, |v| < cfg.limit) ∧ channelTransform arithReal cfg g ch 1 = some o := by
  have hi : arithReal.ifloor (0 : ℝ) = some ⌊(0 : ℝ)⌋ := rfl
  obtain ⟨o, ho⟩ := channelTransform_isSome (A := arithReal)
    (cfg := ⟨4, 1, 1, 1, 1, 1, 1, 1, 1, 1, 1, 1, ⟨0, 1, 0, 0, 0, 0, 0⟩, Real.sin, fun _ _ _ => 0⟩) (g := ⟨0, 1, 1, 4, 8⟩) hi
    { ChannelState.reset (0 : ℝ) with dl := [1 / 2] } 1
  refine ⟨_, _, _, o, by norm_num, ?_, ho⟩
  intro v hv
  simp only [List.mem_singleton] at hv
  subst hv
  rw [abs_of_pos (by norm_num)]
  norm_num

end Sys2Proof.Tests
end

section
/-! The constraint column of R8 on the hardware's configuration. Each constraint on a number is met by 1, so `orOne_legal` gives it of
the constant, whatever the raw value (entry 1). -/

namespace Sys2Proof.Design

/-- Finite and above 0 is what R258 asks of a frequency too. -/
theorem orOne_isPositive (v : Num64) : arithF64.isPositive (orOne arithF64.isPositive v) = true :=
  orOne_legal (one_legal .freq) v

theorem isSmoothing_iff (v : Num64) :
    isSmoothing v = true ↔ arithF64.lt arithF64.zero v = true ∧ arithF64.le v arithF64.one = true := by
  simp [isSmoothing]

theorem orOne_isSmoothing (v : Num64) : isSmoothing (orOne isSmoothing v) = true :=
  orOne_legal (by decide) v

end Sys2Proof.Design

namespace Sys2Proof

/-- Settles O21, constraint by constraint: the capacity by its range, the time constants and scales as positive numbers, the smoothing
constant by its two ends, the defaults by their parameters. -/
theorem designIsLegal : Obligations.DesignIsLegal := by
  unfold Obligations.DesignIsLegal
  obtain ⟨hcap_pos, hcap_le⟩ := Design.cap_range Config.rawDlCap
  obtain ⟨hk_pos, hk_le⟩ := (Design.isSmoothing_iff _).mp (Design.orOne_isSmoothing Config.rawKSmooth)
  exact
    { dlCap_pos := hcap_pos
      dlCap_le := hcap_le
      tMax := Design.orOne_isPositive _
      kSmooth_pos := hk_pos
      kSmooth_le := hk_le
      limit := Design.orOne_isPositive _
      tauIn := Design.orOne_isPositive _
      tauChp := Design.orOne_isPositive _
      tauClp := Design.orOne_isPositive _
      w0 := Design.orOne_isPositive _
      q := Design.orOne_isPositive _
      tauFb := Design.orOne_isPositive _
      tauLfo := Design.orOne_isPositive _
      tauFd := Design.orOne_isPositive _
      pSine := Design.paramDefault_legal .sine
      pFreq := Design.paramDefault_legal .freq
      pDuty := Design.paramDefault_legal .duty
      pLen := Design.paramDefault_legal .len
      pDepth := Design.paramDefault_legal .depth
      pFb := Design.paramDefault_legal .fb
      pMix := Design.paramDefault_legal .mix }

end Sys2Proof
end

section
/-! What a command writes, once: a fault one sticky flag, `INIT` everything, `BLOCK` its first load, and any other command that answers
`OK` the registers of its row of R38 and nothing else. -/

namespace Sys2Proof.Machine

/-- A frame replaces both channels of the registers that its own tap computation leaves (R244). -/
theorem frameRegs_eq_setChan {N : Type} {A : Arith N} {cfg : Cfg N} {x0 x1 o0 o1 : N} {r r' : Regs N}
    (h : frameRegs A cfg x0 x1 r = some (r', o0, o1)) :
    ∃ ch0 ch1, r' = setChan (setChan (modTap A cfg r).1 .zero ch0) .one ch1 := by
  obtain ⟨r0, h0, h1⟩ := frameRegs_eq_some h
  obtain ⟨ch0, -, rfl⟩ := chProcess_eq_some h0
  obtain ⟨ch1, -, rfl⟩ := chProcess_eq_some h1
  exact ⟨ch0, ch1, rfl⟩

/-- What a command that answers `OK` makes of the registers `r`; `INIT`, and `BLOCK`, which does not answer at once, stand apart. -/
inductive Writes (r : Regs Num64) : Instr → Regs Num64 → Prop where
  | setrate {v : DataWord} (hv : arithF64.isPositive v = true) : Writes r (.setrate v) (acceptRate v r)
  | wrpar {p : Selector} {q : Param} {v : DataWord} (hq : paramOfSel p = some q)
      (hv : arithF64.isLegal q v = true) : Writes r (.wrpar p v) (parStore r q v)
  | rdpar (p : Selector) : Writes r (.rdpar p) r
  | mod : Writes r .mod (modTap arithF64 design r).1
  | chproc {c : Selector} {ch : Chan} {f : Fmt} {w : DataWord} {x out : Num64} {r' : Regs Num64} (hc : chanOfSel c = some ch)
      (h : chProcess arithF64 design ch x r = some (r', out)) : Writes r (.chproc c f w) r'
  | frame {f : Fmt} {w0 w1 : DataWord} {x0 x1 o0 o1 : Num64} {r' : Regs Num64}
      (h : frameRegs arithF64 design x0 x1 r = some (r', o0, o1)) : Writes r (.frame f w0 w1) r'
  | ostep : Writes r .ostep (oscStep arithF64 r)
  | onext : Writes r .onext (oscStep arithF64 r)
  | snap : Writes r .snap (oscSnapshot r)
  | restore : Writes r .restore (oscRestore r)
  | rdst (n : Selector) : Writes r (.rdst n) r
  | rddl (c : Selector) (k : DataWord) : Writes r (.rddl c k) r

/-- What any command can do: raise a fault, reset the machine (`INIT`), start a `BLOCK`, or answer `OK` with the registers it writes. -/
theorem exec_writes {i : Instr} {s t : State} (h : exec i s = .next t) :
    (∃ e, t = raise e s) ∨
    (i = .init ∧ t = respond 0#64 0#64 { s with regs := State.reset.regs, blk := none }) ∨
    (i = .block ∧ rateValid s.regs = true ∧ t = { s with blk := some (.one (parLoad s.regs .sine)), resp := none }) ∨
    ∃ q0 q1 r, Writes s.regs i r ∧ t = respond q0 q1 { s with regs := r } := by
  have fault {e} (ht : t = raise e s) : ∃ e, t = raise e s := ⟨e, ht⟩
  cases i with
  | init => exact .inr (.inl ⟨rfl, execInit_cases h⟩)
  | setrate v =>
    rcases execSetrate_cases h with ⟨hv, ht⟩ | ⟨-, ht⟩
    · exact .inr (.inr (.inr ⟨_, _, _, .setrate hv, ht⟩))
    · exact .inl (fault ht)
  | wrpar p v =>
    rcases execWrpar_cases h with ⟨-, ht⟩ | ⟨q, hq, ⟨hv, ht⟩ | ⟨-, ht⟩⟩
    · exact .inl (fault ht)
    · exact .inr (.inr (.inr ⟨_, _, _, .wrpar hq hv, ht⟩))
    · exact .inl (fault ht)
  | rdpar p =>
    rcases execRdpar_cases h with ⟨-, ht⟩ | ⟨q, -, ht⟩
    · exact .inl (fault ht)
    · exact .inr (.inr (.inr ⟨_, _, _, .rdpar p, ht⟩))
  | block =>
    rcases execBlock_cases h with ⟨hv, ht⟩ | ⟨-, ht⟩
    · exact .inr (.inr (.inl ⟨rfl, hv, ht⟩))
    · exact .inl (fault ht)
  | mod =>
    rcases execMod_cases h with ⟨-, ht⟩ | ⟨-, ht⟩
    · exact .inr (.inr (.inr ⟨_, _, _, .mod, ht⟩))
    · exact .inl (fault ht)
  | chproc c f w =>
    rcases execChproc_cases h with ⟨-, ht⟩ | ⟨ch, hc, ⟨-, ht⟩ | ⟨-, -, ht⟩ | ⟨-, x, r, out, -, hr, ht⟩⟩
    · exact .inl (fault ht)
    · exact .inl (fault ht)
    · exact .inl (fault ht)
    · exact .inr (.inr (.inr ⟨_, _, r, .chproc hc hr, ht⟩))
  | frame f w0 w1 =>
    rcases execFrame_cases h with ⟨-, ht⟩ | ⟨-, -, ht⟩ | ⟨-, x0, x1, r, o0, o1, -, -, hr, ht⟩
    · exact .inl (fault ht)
    · exact .inl (fault ht)
    · exact .inr (.inr (.inr ⟨_, _, r, .frame hr, ht⟩))
  | ostep =>
    rcases execOstep_cases h with ⟨-, ht⟩ | ⟨-, ht⟩
    · exact .inr (.inr (.inr ⟨_, _, _, .ostep, ht⟩))
    · exact .inl (fault ht)
  | onext =>
    rcases execOnext_cases h with ⟨-, ht⟩ | ⟨-, ht⟩
    · exact .inr (.inr (.inr ⟨_, _, _, .onext, ht⟩))
    · exact .inl (fault ht)
  | snap => exact .inr (.inr (.inr ⟨_, _, _, .snap, execSnap_cases h⟩))
  | restore => exact .inr (.inr (.inr ⟨_, _, _, .restore, execRestore_cases h⟩))
  | rdst n =>
    rcases execRdst_cases h with ⟨-, ht⟩ | ⟨m, -, ⟨-, -, ht⟩ | ⟨-, ht⟩⟩
    · exact .inl (fault ht)
    · exact .inl (fault ht)
    · exact .inr (.inr (.inr ⟨_, _, _, .rdst n, ht⟩))
  | rddl c k =>
    rcases execRddl_cases h with ⟨-, ht⟩ | ⟨ch, -, ht⟩
    · exact .inl (fault ht)
    · exact .inr (.inr (.inr ⟨_, _, _, .rddl c k, ht⟩))

/-- The registers the invariants of R41 speak of, other than the delay lines, hold in `r'` what they hold in `r`. -/
structure KeepsSettings (r r' : Regs Num64) : Prop where
  p : r'.p = r.p
  rate : r'.rate = r.rate
  stages : r'.stages = r.stages
  bSine : r'.bSine = r.bSine
  bFb : r'.bFb = r.bFb
  bMix : r'.bMix = r.bMix
  oscDuty : r'.oscDuty = r.oscDuty
  status : r'.status = r.status

theorem KeepsSettings.refl (r : Regs Num64) : KeepsSettings r r := by constructor <;> rfl

theorem KeepsSettings.setChan (r : Regs Num64) (c : Chan) (ch : ChannelState Num64) : KeepsSettings r (setChan r c ch) := by
  cases c <;> constructor <;> rfl

theorem KeepsSettings.modTap_setChan (cfg : Cfg Num64) (r : Regs Num64) (ch0 ch1 : ChannelState Num64) :
    KeepsSettings r (Machine.setChan (Machine.setChan (modTap arithF64 cfg r).1 .zero ch0) .one ch1) := by
  constructor <;> simp

/-- Only `SETRATE` and `WRPAR` write a setting at once; `BLOCK` writes them in its last step (R38). -/
theorem Writes.keepsSettings {r r' : Regs Num64} {i : Instr} (h : Writes r i r') :
    (∃ v, i = .setrate v ∧ arithF64.isPositive v = true ∧ r' = acceptRate v r) ∨
    (∃ p q v, i = .wrpar p v ∧ arithF64.isLegal q v = true ∧ r' = parStore r q v) ∨ KeepsSettings r r' := by
  cases h with
  | setrate hv => exact .inl ⟨_, rfl, hv, rfl⟩
  | wrpar _ hv => exact .inr (.inl ⟨_, _, _, rfl, hv, rfl⟩)
  | rdpar | rdst | rddl => exact .inr (.inr (.refl r))
  | chproc _ hr =>
    obtain ⟨ch, -, rfl⟩ := chProcess_eq_some hr
    exact .inr (.inr (.setChan r _ ch))
  | frame hr =>
    obtain ⟨ch0, ch1, rfl⟩ := frameRegs_eq_setChan hr
    exact .inr (.inr (.modTap_setChan design r ch0 ch1))
  | mod | ostep | onext | snap | restore => exact .inr (.inr (by constructor <;> simp))

/-- The delay lines stay inside the capacity, whatever a command writes (R74). -/
theorem Writes.memory_wf {r r' : Regs Num64} {i : Instr} {cap : Nat} (h : Writes r i r') (hs : r.stages ≤ cap)
    (hm : Memory.wf cap r = true) : Memory.wf cap r' = true := by
  cases h with
  | chproc _ hr => exact memory_wf_chProcess hs hm hr
  | frame hr => exact memory_wf_frameRegs hs hm hr
  | setrate | wrpar | rdpar | mod | ostep | onext | snap | restore | rdst | rddl => exact memory_wf_congr rfl rfl hm

end Sys2Proof.Machine
end

section
/-! The invariants of R41, command by command: reset meets them, each write of a setting is legal, and all else keeps what they speak
of. -/

namespace Sys2Proof.Machine

/-- A readiness flag is no sticky flag (R37). -/
theorem faultFlag_ne_ready (e : FaultCode) : faultFlag e ≠ .rateValid ∧ faultFlag e ≠ .blkValid := by
  cases e <;> decide

@[simp] theorem rateValid_raise (e : FaultCode) (s : State) : rateValid (raise e s).regs = rateValid s.regs := by
  simp [rateValid, getFlag_setFlag, faultFlag_ne_ready e]

@[simp] theorem blkValid_raise (e : FaultCode) (s : State) : blkValid (raise e s).regs = blkValid s.regs := by
  simp [blkValid, getFlag_setFlag, faultFlag_ne_ready e]

@[simp] theorem rateValid_acceptRate (v : Num64) (r : Regs Num64) : rateValid (acceptRate v r) = true := by
  simp [rateValid, getFlag_setFlag, getFlag_clearFlag]

@[simp] theorem blkValid_acceptRate (v : Num64) (r : Regs Num64) : blkValid (acceptRate v r) = false := by
  simp [blkValid, getFlag_clearFlag]

/-- The reset state meets the invariants (R40): no readiness flag is set, the stage count is 1, the lines are empty, and every parameter
and latched copy is a default of the design, which is legal. -/
theorem inv_reset : Inv design State.reset := by
  have hrate : rateValid State.reset.regs = false := rfl
  have hblk : blkValid State.reset.regs = false := rfl
  exact
    { reserved := BitVec.zero_and
      stages_pos := le_refl 1
      stages_le := designIsLegal.dlCap_pos
      memory := memory_wf_state_reset
      params := fun p => by cases p <;> exact Design.paramDefault_legal _
      rate := fun h => by simp [hrate] at h
      noRate := fun _ => rfl
      blkRate := fun h => by simp [hblk] at h
      latchedSine := designIsLegal.pSine
      latchedFb := designIsLegal.pFb
      latchedMix := designIsLegal.pMix
      latchedDuty := designIsLegal.pDuty
      blkReady := fun h => absurd h (by decide)
      loaded := fun _ h => nomatch h }

section Keeping
variable {cfg : Cfg Num64} {s t : State}

/-- The invariants speak of the settings, the delay lines and the `BLOCK` in progress only. -/
theorem Inv.of_keepsSettings (h : Inv cfg s) (hk : KeepsSettings s.regs t.regs) (hm : Memory.wf cfg.dlCap t.regs = true)
    (hb : t.blk = s.blk) : Inv cfg t := by
  have hrate : rateValid t.regs = rateValid s.regs := by rw [rateValid, hk.status, rateValid]
  have hblk : blkValid t.regs = blkValid s.regs := by rw [blkValid, hk.status, blkValid]
  exact
    { reserved := hk.status ▸ h.reserved
      stages_pos := hk.stages ▸ h.stages_pos
      stages_le := hk.stages ▸ h.stages_le
      memory := hm
      params := fun p => by rw [parLoad, hk.p]; exact h.params p
      rate := by rw [hrate, hk.rate]; exact h.rate
      noRate := by rw [hrate, hk.rate]; exact h.noRate
      blkRate := by rw [hrate, hblk]; exact h.blkRate
      latchedSine := hk.bSine ▸ h.latchedSine
      latchedFb := hk.bFb ▸ h.latchedFb
      latchedMix := hk.bMix ▸ h.latchedMix
      latchedDuty := hk.oscDuty ▸ h.latchedDuty
      blkReady := by rw [hrate, hb]; exact h.blkReady
      loaded := by rw [hb]; exact h.loaded }

/-- The invariants do not see the ports, the response and the interleaving. -/
theorem Inv.congr (h : Inv cfg s) (hr : t.regs = s.regs) (hb : t.blk = s.blk) : Inv cfg t :=
  h.of_keepsSettings (hr ▸ .refl _) (hr ▸ h.memory) hb

/-- A fault sets a sticky flag and nothing else (R290). -/
theorem Inv.raise (h : Inv cfg s) (e : FaultCode) : Inv cfg (raise e s) :=
  { h with
    reserved := (setFlag_reserved _ _).trans h.reserved
    rate := fun hv => h.rate (by simpa using hv)
    noRate := fun hv => h.noRate (by simpa using hv)
    blkRate := fun hv => by simpa using h.blkRate (by simpa using hv)
    blkReady := fun hb => by simpa using h.blkReady hb }

/-- An accepted rate is positive and takes the prepared block away, so I6 and I7 hold of it (R256). -/
theorem Inv.acceptRate {v : Num64} (h : Inv cfg s) (hv : arithF64.isPositive v = true) :
    Inv cfg { s with regs := acceptRate v s.regs } :=
  { h with
    reserved := (clearFlag_reserved _ _).trans ((setFlag_reserved _ _).trans h.reserved)
    rate := fun _ => hv
    noRate := fun hn => by simp at hn
    blkRate := fun hn => by simp at hn
    blkReady := fun _ => rateValid_acceptRate v s.regs }

/-- A store of a legal value keeps I5 (R257, R258). -/
theorem Inv.parStore {q : Param} {v : Num64} (h : Inv cfg s) (hv : arithF64.isLegal q v = true) :
    Inv cfg { s with regs := parStore s.regs q v } :=
  { h with
    params := fun p => by
      rw [parLoad_parStore]
      split
      · rwa [‹p = q›]
      · exact h.params p }

/-- A `BLOCK` in progress, with a rate and legal loads, moves no register (R70). -/
theorem Inv.setBlk (h : Inv cfg s) (hrate : rateValid s.regs = true) {b : BlockLoads}
    (hb : ∀ pv ∈ loadedValues b, arithF64.isLegal pv.1 pv.2 = true) : Inv cfg { s with blk := some b, resp := none } :=
  { h with
    blkReady := fun _ => hrate
    loaded := fun _ hc => Option.some.inj hc ▸ hb }

end Keeping

section Steps
variable {s t : State}

/-- The next part of a `BLOCK` loads a legal parameter, or latches the seven legal values it has loaded (R230, R231). -/
theorem Inv.blockResume {b : BlockLoads} (h : Inv design s) (hb : s.blk = some b) (ht : blockResume b s = .next t) :
    Inv design t := by
  have hrate : rateValid s.regs = true := h.blkReady (by simp [hb])
  rcases blockResume_cases ht with ⟨b', q, hload, rfl⟩ | ⟨p0, p1, p2, p3, p4, p5, p6, r, rfl, hr, rfl⟩
  · refine h.setBlk hrate fun pv hpv => ?_
    rw [hload, List.mem_append, List.mem_singleton] at hpv
    rcases hpv with hpv | rfl
    · exact h.loaded b hb pv hpv
    · exact h.params q
  · obtain ⟨n, hn, rfl⟩ := cacheBlock_eq_some hr
    obtain ⟨hpos, hle⟩ := stageCount_range designIsLegal.dlCap_pos hn
    have hready : getFlag (setFlag s.regs.status .blkValid) .rateValid = true := by
      simpa [rateValid, getFlag_setFlag] using hrate
    have hload := h.loaded _ hb
    exact
      { h with
        reserved := (setFlag_reserved _ _).trans h.reserved
        stages_pos := hpos
        stages_le := hle
        rate := fun _ => h.rate hrate
        noRate := fun hv => absurd (hready.symm.trans hv) (by simp)
        blkRate := fun _ => hready
        latchedSine := hload (.sine, p0) (by simp [loadedValues])
        latchedFb := hload (.fb, p5) (by simp [loadedValues])
        latchedMix := hload (.mix, p6) (by simp [loadedValues])
        latchedDuty := hload (.duty, p2) (by simp [loadedValues])
        blkReady := fun _ => hready
        loaded := fun _ hc => nomatch hc }

/-- Every command keeps the invariants. -/
theorem Inv.exec {i : Instr} (h : Inv design s) (ht : exec i s = .next t) : Inv design t := by
  rcases exec_writes ht with ⟨e, rfl⟩ | ⟨-, rfl⟩ | ⟨-, hrate, rfl⟩ | ⟨q0, q1, r, hw, rfl⟩
  · exact h.raise e
  · exact inv_reset.congr rfl rfl
  · exact h.setBlk hrate (by simpa [loadedValues] using h.params .sine)
  · rcases hw.keepsSettings with ⟨v, -, hv, rfl⟩ | ⟨p, q, v, -, hv, rfl⟩ | hk
    · exact (h.acceptRate hv).congr rfl rfl
    · exact (h.parStore hv).congr rfl rfl
    · exact h.of_keepsSettings hk (hw.memory_wf h.stages_le h.memory) rfl

/-- A word of a port is refused with `E_ILLEGAL` or is a command (R90, R91). -/
theorem Inv.runCommand {p : Port} {w : PortCommand} (h : Inv design s)
    (ht : runCommand Machine.exec p w s = .next t) : Inv design t := by
  unfold Machine.runCommand at ht
  split at ht
  · cases ht
    exact h.raise .illegal
  · exact h.exec ht

end Steps

end Sys2Proof.Machine

namespace Sys2Proof

open Machine

/-- Settles O44: a step does nothing, goes on with a `BLOCK`, or runs one command, and each keeps the invariants. -/
theorem invariantKeptByEveryStep : Obligations.InvariantKeptByEveryStep := by
  unfold Obligations.InvariantKeptByEveryStep
  intro s t h ht
  rcases stepWith_cases ht with ⟨-, rfl⟩ | ⟨a, rest, -, ⟨b, u, -, hb, hu, rfl⟩ | ⟨-, -, rfl⟩ | ⟨-, w, ws, u, -, hu, rfl⟩⟩
  · exact h
  · have hs : Inv design { s with sched := rest } := h.congr rfl rfl
    exact (hs.blockResume hb hu).congr (by simp) (by simp)
  · exact h.congr rfl rfl
  · have hs : Inv design (setPort { s with sched := rest } (portOfAgent a) ⟨ws, (getPort s (portOfAgent a)).answered⟩) :=
      h.congr (by simp) (by simp)
    exact (hs.runCommand hu).congr (by simp) (by simp)

/-- Settles O43: the invariants hold of the reset values of R40. -/
theorem invariantAtReset : Obligations.InvariantAtReset := inv_reset

end Sys2Proof
end

section
/-! The sticky flags (R37, R290), the writers of each register (R38) and the reset values (R40). -/

namespace Sys2Proof.Machine

/-- Faults and their sticky flags match one to one (R285). -/
theorem faultFlag_injective {d e : FaultCode} (h : faultFlag d = faultFlag e) : d = e := by
  revert h; cases d <;> cases e <;> decide

/-- A command that answers `OK` moves no sticky flag (R37). -/
theorem Writes.sticky {r r' : Regs Num64} {i : Instr} (h : Writes r i r') (e : FaultCode) :
    getFlag r'.status (faultFlag e) = getFlag r.status (faultFlag e) := by
  obtain ⟨hrate, hblk⟩ := faultFlag_ne_ready e
  rcases h.keepsSettings with ⟨v, -, -, rfl⟩ | ⟨p, q, v, -, -, rfl⟩ | hk
  · simp [getFlag_clearFlag, getFlag_setFlag, hrate.symm, hblk.symm]
  · rfl
  · rw [hk.status]

/-- A fault sets the sticky flag of the code it answers and no other (R285, R290). -/
theorem sticky_raise (d e : FaultCode) (s : State) :
    getFlag (raise d s).regs.status (faultFlag e) =
      (getFlag s.regs.status (faultFlag e) || decide ((raise d s).resp = some ⟨faultSt e, 0#64, 0#64⟩)) := by
  rw [raise_status, getFlag_setFlag, raise_resp, Bool.or_comm]
  by_cases hde : d = e
  · simp [hde]
  · have hflag : faultFlag d ≠ faultFlag e := fun h => hde (faultFlag_injective h)
    have hcode : faultSt d ≠ faultSt e := fun h => hde (faultSt_injective d e h)
    simp [hflag, hcode]

/-- Only selector 0 names channel 0 and only selector 1 channel 1 (R89). -/
theorem chanOfSel_eq_some {c : Selector} {ch : Chan} (h : chanOfSel c = some ch) :
    (ch = .zero ∧ c = 0#8) ∨ (ch = .one ∧ c = 1#8) := by
  unfold chanOfSel at h
  split at h
  · exact .inl ⟨(Option.some.inj h).symm, BitVec.eq_of_toNat_eq ‹_›⟩
  · exact .inr ⟨(Option.some.inj h).symm, BitVec.eq_of_toNat_eq ‹_›⟩
  · exact absurd h (by simp)

end Sys2Proof.Machine

namespace Sys2Proof

open Machine

/-- Settles O11: a fault sets its own flag, no other command moves one, and the last step of a `BLOCK` sets `BLK_VALID` only. -/
theorem stickyFlagsOnlyInitClears : Obligations.StickyFlagsOnlyInitClears := by
  unfold Obligations.StickyFlagsOnlyInitClears
  refine ⟨fun i s t e ht hi => ?_, fun b s t e ht => ?_⟩
  · rcases exec_writes ht with ⟨d, rfl⟩ | ⟨hinit, -⟩ | ⟨-, -, rfl⟩ | ⟨q0, q1, r, hw, rfl⟩
    · exact sticky_raise d e s
    · exact absurd hinit hi
    · simp
    · have hok : stOk ≠ faultSt e := (faultSt_ne_ok e).symm
      simpa [hok] using hw.sticky e
  · rcases blockResume_cases ht with ⟨b', q, -, rfl⟩ | ⟨p0, p1, p2, p3, p4, p5, p6, r, -, hr, rfl⟩
    · rfl
    · obtain ⟨n, -, rfl⟩ := cacheBlock_eq_some hr
      simp [getFlag_setFlag, (faultFlag_ne_ready e).2.symm]

/-- Settles O42, one command at a time: a fault and the first step of `BLOCK` write none of these registers, and the field lemmas of
each operation on the registers say which of them it leaves alone. -/
theorem registerWriters : Obligations.RegisterWriters := by
  unfold Obligations.RegisterWriters
  refine ⟨fun i s t ht hi => ?_, fun b s t ht => ?_⟩
  · rcases exec_writes ht with ⟨e, rfl⟩ | ⟨hinit, -⟩ | ⟨-, -, rfl⟩ | ⟨q0, q1, r, hw, rfl⟩
    · simp
    · exact absurd hinit hi
    · simp
    · cases hw with
      | setrate | wrpar | rdpar | mod | ostep | onext | snap | restore | rdst | rddl => simp
      | chproc hc hr =>
        obtain ⟨ch, -, rfl⟩ := chProcess_eq_some hr
        rcases chanOfSel_eq_some hc with ⟨rfl, rfl⟩ | ⟨rfl, rfl⟩
        · simp
        · simp
      | frame hr =>
        obtain ⟨ch0, ch1, rfl⟩ := frameRegs_eq_setChan hr
        simp
  · rcases blockResume_cases ht with ⟨b', q, -, rfl⟩ | ⟨p0, p1, p2, p3, p4, p5, p6, r, -, hr, rfl⟩
    · rfl
    · obtain ⟨n, -, rfl⟩ := cacheBlock_eq_some hr
      simp

/-- Settles O12: the table of R40 under the hardware's arithmetic and configuration. -/
theorem resetValues : Obligations.ResetValues := by
  unfold Obligations.ResetValues
  simp only [State.reset, State.resetWith, Regs.reset, ChannelState.reset, ChorusState.reset, arithF64, F64.zero, F64.twoPi]

end Sys2Proof
end

section
/-! I8 of R41 in the reference arithmetic: a push and an injection leave old cells and one saturated cell. -/

namespace Sys2Proof.Machine

/-- After a push and an injection every cell is the saturated one or a cell of the old line (R62, R170). -/
theorem mem_delayInject_dlPush {N : Type} {A : Arith N} {limit x w v : N} {dl : List N} {n : Nat}
    (h : v ∈ delayInject A limit (dlPush dl x n) w) : (∃ u, v = saturate A limit u) ∨ v ∈ dl := by
  cases n with
  | zero => simp [delayInject, dlPush, dlWrite] at h
  | succ n =>
    simp only [delayInject, dlPush, dlWrite, List.take_succ_cons, List.set_cons_zero, List.mem_cons] at h
    rcases h with rfl | h
    · exact .inl ⟨_, rfl⟩
    · exact .inr (List.mem_of_mem_take h)

/-- `u / (1 + |u|)` is strictly inside `(-1, 1)`, so `SAT` is strictly inside the limit (R211, R212). -/
theorem abs_saturate_lt {limit : ℝ} (hl : 0 < limit) (v : ℝ) : |saturate arithReal limit v| < limit := by
  have hpos (u : ℝ) : 0 < 1 + |u| := by positivity
  have hratio (u : ℝ) : |u / (1 + |u|)| < 1 := by
    rw [abs_div, abs_of_pos (hpos u), div_lt_one (hpos u)]
    linarith
  simp only [saturate, arithReal_div, arithReal_mul, arithReal_add, arithReal_one, arithReal_abs, divReal_of_ne _ (hpos _).ne']
  rw [abs_mul, abs_of_pos hl]
  exact mul_lt_of_lt_one_right hl (hratio _)

end Sys2Proof.Machine

namespace Sys2Proof

open Machine

/-- Settles O59: the transform pushes one cell and injects into it, so the saturated cell is new and every other one was inside the
limit before. -/
theorem cellsStayInsideLimit : Obligations.CellsStayInsideLimit := by
  unfold Obligations.CellsStayInsideLimit
  intro cfg g ch ch' x out hl hcells ht v hv
  obtain ⟨xp, a, yd, y, xfb, -, -, -, -, -, rfl, -⟩ := channelTransform_eq_some ht
  rcases mem_delayInject_dlPush hv with ⟨u, rfl⟩ | hold
  · exact abs_saturate_lt hl u
  · exact hcells v hold

end Sys2Proof
end

section
/-! The two ports over a step (R69, R81): what serving a command does to the lists of each port and to the count of its commands. -/

namespace Sys2Proof.Machine

/-- The commands of a port in progress: a `BLOCK` between its steps is one of the audio port (R70). -/
def inProgress (s : State) : Port → Nat
  | .audio => if s.blk.isSome then 1 else 0
  | .control => 0

/-- The response not yet on its port, if there is one (entry 10). -/
def undelivered (s : State) : Nat := if s.resp.isSome then 1 else 0

/-- The commands of a port waiting, answered or in progress. -/
def commandCount (s : State) (p : Port) : Nat :=
  (getPort s p).waiting.length + (getPort s p).answered.length + inProgress s p

/-! ## The control port's commands -/

theorem formatS_eq_ok {cmd : CmdWord} {range : Selector → Bool} {i j : Instr} (h : formatS cmd range i = .ok j) : i = j := by
  unfold formatS at h
  split at h
  · cases h
  · split at h
    · cases h
      rfl
    · cases h

/-- The control port takes parameter commands only (R81). -/
theorem decode_control_cases {cmd : CmdWord} {d0 d1 : DataWord} {i : Instr} (h : decode .control cmd d0 d1 = .ok i) :
    (∃ p v, i = .wrpar p v) ∨ ∃ p, i = .rdpar p := by
  have hz : zField cmd = 0#15 := by
    by_contra hz
    simp [decode, hz] at h
  have hop : opField cmd = 0x03#8 ∨ opField cmd = 0x04#8 := by
    by_contra hop
    simp [decode, hz, portAccepts, not_or.mp hop] at h
  rcases hop with hop | hop
  · exact .inl ⟨_, _, (formatS_eq_ok (by simpa [decode, hz, portAccepts, hop] using h)).symm⟩
  · exact .inr ⟨_, (formatS_eq_ok (by simpa [decode, hz, portAccepts, hop] using h)).symm⟩

/-! ## Rules of the ports -/

theorem getPort_congr {s u : State} (haudio : u.audio = s.audio) (hcontrol : u.control = s.control) (p : Port) :
    getPort u p = getPort s p := by
  cases p with
  | audio => exact haudio
  | control => exact hcontrol

@[simp] theorem getPort_with_sched (s : State) (rest : List Agent) (p : Port) :
    getPort { s with sched := rest } p = getPort s p := getPort_congr rfl rfl p

@[simp] theorem inProgress_with_sched (s : State) (rest : List Agent) (p : Port) :
    inProgress { s with sched := rest } p = inProgress s p := by
  cases p <;> rfl

theorem getPort_setPort_ne {a p : Port} (h : p ≠ a) (s : State) (q : PortState) : getPort (setPort s a q) p = getPort s p := by
  cases a with
  | audio => cases p with
    | audio => exact absurd rfl h
    | control => rfl
  | control => cases p with
    | audio => rfl
    | control => exact absurd rfl h

@[simp] theorem inProgress_setPort (s : State) (a p : Port) (q : PortState) : inProgress (setPort s a q) p = inProgress s p := by
  cases p <;> simp [inProgress]

/-- A port not in a `BLOCK` has nothing in progress. -/
theorem inProgress_eq_zero {s : State} {a : Port} (h : a = .audio → s.blk = none) : inProgress s a = 0 := by
  cases a with
  | audio => simp [inProgress, h]
  | control => rfl

/-! ## `deliver` on the ports -/

theorem deliver_of_resp_none {s : State} (h : s.resp = none) (a : Port) : deliver a s = s := by simp [deliver, h]

@[simp] theorem inProgress_deliver (a p : Port) (s : State) : inProgress (deliver a s) p = inProgress s p := by
  cases p <;> simp [inProgress]

/-- A response goes to no port but its own (R81). -/
theorem getPort_deliver_ne {a p : Port} (h : p ≠ a) (s : State) : getPort (deliver a s) p = getPort s p := by
  cases hr : s.resp with
  | none => rw [deliver_of_resp_none hr]
  | some x =>
    simp only [deliver, hr, getPort_setPort_ne h]
    exact getPort_congr rfl rfl p

/-- A delivery takes no command (R81). -/
theorem waiting_deliver (a p : Port) (s : State) : (getPort (deliver a s) p).waiting = (getPort s p).waiting := by
  by_cases hp : p = a
  · subst hp
    cases hr : s.resp with
    | none => rw [deliver_of_resp_none hr]
    | some x => rw [getPort_deliver p s x hr]
  · rw [getPort_deliver_ne hp]

@[simp] theorem audio_waiting_deliver (a : Port) (s : State) : (deliver a s).audio.waiting = s.audio.waiting :=
  waiting_deliver a .audio s

@[simp] theorem control_waiting_deliver (a : Port) (s : State) : (deliver a s).control.waiting = s.control.waiting :=
  waiting_deliver a .control s

@[simp] theorem control_deliver_audio (s : State) : (deliver .audio s).control = s.control :=
  getPort_deliver_ne (a := .audio) (p := .control) (by decide) s

/-- A delivery puts the response in front of the earlier ones (R81). -/
theorem answered_deliver (a p : Port) (s : State) :
    (getPort (deliver a s) p).answered = (if p = a then s.resp.toList else []) ++ (getPort s p).answered := by
  by_cases hp : p = a
  · subst hp
    cases hr : s.resp with
    | none => simp [deliver_of_resp_none hr]
    | some x => simp [getPort_deliver p s x hr]
  · simp [getPort_deliver_ne hp, hp]

theorem commandCount_deliver (a p : Port) (s : State) :
    commandCount (deliver a s) p = commandCount s p + if p = a then undelivered s else 0 := by
  simp only [commandCount, waiting_deliver, answered_deliver, inProgress_deliver, undelivered]
  cases s.resp with
  | none => simp
  | some x =>
    by_cases hp : p = a
    · simp [hp]
      omega
    · simp [hp]

/-! ## Serving one command -/

/-- What serving one command of port `a` makes of a state, before the response is delivered: it moves no port's lists, and it leaves
the command answered or in progress, never both. -/
structure Serves (a : Port) (s u : State) : Prop where
  ports : ∀ p, getPort u p = getPort s p
  others : ∀ p, p ≠ a → inProgress u p = inProgress s p
  one : inProgress u a + undelivered u = 1

/-- On the audio port a command ends with a response or with a `BLOCK` in progress. -/
theorem serves_audio {s u : State} (haudio : u.audio = s.audio) (hcontrol : u.control = s.control)
    (hone : inProgress u .audio + undelivered u = 1) : Serves .audio s u where
  ports := getPort_congr haudio hcontrol
  others p hp := by
    cases p with
    | audio => exact absurd rfl hp
    | control => rfl
  one := hone

/-- A command that leaves the ports and a `BLOCK` in progress as they were, and a response, serves a port not in a `BLOCK`. -/
theorem serves_of_resp {a : Port} {s u : State} (haudio : u.audio = s.audio) (hcontrol : u.control = s.control)
    (hblk : u.blk = s.blk) (hidle : a = .audio → s.blk = none) (hresp : u.resp.isSome = true) : Serves a s u where
  ports := getPort_congr haudio hcontrol
  others p _ := by simp [inProgress, hblk]
  one := by
    cases a with
    | audio => simp [inProgress, undelivered, hblk, hidle, hresp]
    | control => simp [inProgress, undelivered, hresp]

/-- The next part of a `BLOCK` makes a load, or ends the `BLOCK` with a response (R230). -/
theorem serves_blockResume {b : BlockLoads} {s u : State} (h : blockResume b s = .next u) : Serves .audio s u := by
  rcases blockResume_cases h with ⟨b', q, -, rfl⟩ | ⟨p0, p1, p2, p3, p4, p5, p6, r, -, -, rfl⟩
  · exact serves_audio rfl rfl rfl
  · exact serves_audio rfl rfl rfl

/-- A command of a port that is not in a `BLOCK` is answered, or starts a `BLOCK` on the audio port (R69, R230). -/
theorem serves_exec {a : Port} {i : Instr} {s u : State} (hidle : a = .audio → s.blk = none)
    (hport : i = .init ∨ i = .block → a = .audio) (h : exec i s = .next u) : Serves a s u := by
  rcases exec_cases h with ⟨e, rfl⟩ | hans | ⟨rfl, rfl⟩
  · exact serves_of_resp rfl rfl rfl hidle rfl
  · obtain ⟨q0, q1, hok⟩ := hans.ok
    have hblk : u.blk = s.blk := by
      by_cases hinit : i = .init
      · rw [hans.init hinit, hidle (hport (.inl hinit))]
      · exact hans.blk hinit
    exact serves_of_resp hans.audio hans.control hblk hidle (by simp [hok])
  · obtain rfl := hport (.inr rfl)
    exact serves_audio rfl rfl rfl

/-- A word of a port is answered `E_ILLEGAL`, or is a command that the port accepts (R81, R90). -/
theorem serves_runCommand {a : Port} {w : PortCommand} {s u : State} (hidle : a = .audio → s.blk = none)
    (h : runCommand exec a w s = .next u) : Serves a s u := by
  unfold runCommand at h
  split at h
  · cases h
    exact serves_of_resp rfl rfl rfl hidle rfl
  · rename_i i hi
    refine serves_exec hidle (fun hib => ?_) h
    cases a with
    | audio => rfl
    | control =>
      rcases decode_control_cases hi with ⟨p, v, rfl⟩ | ⟨p, rfl⟩
      · simp at hib
      · simp at hib

/-! ## One port over one step -/

/-- Over a step a port's commands are taken from the front, its responses are added at the front, and none of either is lost (R81). -/
structure PortMoves (p : Port) (s t : State) : Prop where
  waiting : (getPort t p).waiting <:+ (getPort s p).waiting
  answered : (getPort s p).answered <:+ (getPort t p).answered
  count : commandCount t p = commandCount s p

/-- A port that a step leaves as it was. -/
theorem PortMoves.of_eq {p : Port} {s t : State} (hport : getPort t p = getPort s p) (hprog : inProgress t p = inProgress s p) :
    PortMoves p s t where
  waiting := by rw [hport]
  answered := by rw [hport]
  count := by rw [commandCount, commandCount, hport, hprog]

/-- Serving a command of one port leaves the other. -/
theorem Serves.portMoves_other {a p : Port} {s u : State} (h : Serves a s u) (hp : p ≠ a) : PortMoves p s (deliver a u) :=
  .of_eq ((getPort_deliver_ne hp u).trans (h.ports p)) ((inProgress_deliver a p u).trans (h.others p hp))

/-- Serving a command of a port moves it from those waiting or in progress to those answered or in progress. -/
theorem Serves.portMoves_own {a : Port} {s s' u : State} (h : Serves a s' u)
    (hw : (getPort s' a).waiting <:+ (getPort s a).waiting) (ha : (getPort s' a).answered = (getPort s a).answered)
    (hc : (getPort s' a).waiting.length + 1 = (getPort s a).waiting.length + inProgress s a) :
    PortMoves a s (deliver a u) where
  waiting := by rwa [waiting_deliver, h.ports]
  answered := by
    rw [answered_deliver, h.ports, ha]
    exact List.suffix_append _ _
  count := by
    have hone := h.one
    rw [commandCount_deliver, commandCount, h.ports, ha, commandCount, if_pos rfl]
    omega

theorem PortMoves.trans_eq {p : Port} {s s' t : State} (h : PortMoves p s' t) (hport : getPort s' p = getPort s p)
    (hprog : inProgress s' p = inProgress s p) : PortMoves p s t where
  waiting := hport ▸ h.waiting
  answered := hport ▸ h.answered
  count := h.count.trans (by rw [commandCount, commandCount, hport, hprog])

/-- A step leaves a port as it was, serves a part of the audio port's `BLOCK`, or serves the next waiting command of one port. -/
theorem step_portMoves {s t : State} (h : step s = .next t) (p : Port) : PortMoves p s t := by
  rcases stepWith_cases h with ⟨-, rfl⟩ | ⟨a, rest, -, ⟨b, u, -, hb, hu, rfl⟩ | ⟨-, -, rfl⟩ | ⟨hbusy, w, ws, u, hw, hu, rfl⟩⟩
  · exact .of_eq rfl rfl
  · have hserves := serves_blockResume hu
    by_cases hp : p = .audio
    · subst hp
      exact hserves.portMoves_own List.suffix_rfl rfl (by simp [inProgress, hb])
    · exact (hserves.portMoves_other hp).trans_eq (by simp) (by simp)
  · exact .of_eq (by simp) (by simp)
  · have hidle : portOfAgent a = .audio → s.blk = none := by
      intro ha
      cases a with
      | core => exact hbusy rfl
      | hostctl => cases ha
    have hserves := serves_runCommand (by simpa using hidle) hu
    by_cases hp : p = portOfAgent a
    · subst hp
      refine hserves.portMoves_own ?_ ?_ ?_
      · simp [hw]
      · simp
      · simp [hw, inProgress_eq_zero hidle]
    · exact (hserves.portMoves_other hp).trans_eq (by simp [getPort_setPort_ne hp]) (by simp)

/-- A step delivers every response it makes. -/
theorem step_resp_none {s t : State} (h : step s = .next t) (hs : s.resp = none) : t.resp = none := by
  rcases stepWith_cases h with ⟨-, rfl⟩ | ⟨a, rest, -, ⟨b, u, -, -, -, rfl⟩ | ⟨-, -, rfl⟩ | ⟨-, w, ws, u, -, -, rfl⟩⟩
  · exact hs
  · exact deliver_resp u .audio
  · exact hs
  · exact deliver_resp u (portOfAgent a)

end Sys2Proof.Machine

namespace Sys2Proof

open Machine

/-- Settles O8: every step moves both ports as `PortMoves` says and delivers the response it makes. -/
theorem everyCommandAnsweredOnce : Obligations.EveryCommandAnsweredOnce := by
  unfold Obligations.EveryCommandAnsweredOnce
  intro s t h
  have haudio := step_portMoves h .audio
  have hcontrol := step_portMoves h .control
  exact ⟨haudio.waiting, haudio.answered, hcontrol.waiting, hcontrol.answered, haudio.count, hcontrol.count, step_resp_none h⟩

end Sys2Proof
end

section
/-! Reads (R65), and what `CHPROC` reads and writes: its own channel and its own line (R62, R75, R171). -/

namespace Sys2Proof.Machine

/-! ## Reads -/

/-- `RDPAR` of a parameter answers its value (R259). -/
theorem exec_rdpar_of_param {s : State} {p : Selector} {q : Param} (hq : paramOfSel p = some q) :
    exec (.rdpar p) s = .next (respond (parLoad s.regs q) 0#64 s) := by
  simp [exec, execRdpar, hq]

/-- `RDST` of a register answers its value, a coefficient only while there is a rate (R261). -/
theorem exec_rdst_of_reg {s : State} {r : Selector} {n : RegName} (hn : regOfSel r = some n)
    (hrate : needsRate n = true → rateValid s.regs = true) :
    exec (.rdst r) s = .next (respond (regValue design s.regs n) 0#64 s) := by
  by_cases hk : needsRate n
  · simp [exec, execRdst, rdstWith, hn, hk, needRate_ready (hrate hk)]
  · simp [exec, execRdst, rdstWith, hn, hk]

/-- `RDDL` of a channel answers the cell and the size of its line (R172). -/
theorem exec_rddl_of_chan {s : State} {c : Selector} {ch : Chan} {k : DataWord} (hc : chanOfSel c = some ch) :
    exec (.rddl c k) s = .next (respond (dlRead arithF64 (getChan s.regs ch).dl (k.toNat : Int))
      (intResult (getChan s.regs ch).dl.length) s) := by
  simp [exec, execRddl, hc]

/-! ## One channel beside the other -/

/-- Replacing one channel leaves the other as it is (R75). -/
theorem getChan_setChan_ne {N : Type} {c d : Chan} (h : c ≠ d) (r : Regs N) (ch : ChannelState N) :
    getChan (setChan r c ch) d = getChan r d := by
  cases c with
  | zero => cases d with
    | zero => exact absurd rfl h
    | one => rfl
  | one => cases d with
    | zero => rfl
    | one => exact absurd rfl h

@[simp] theorem channelInputs_setChan {N : Type} (r : Regs N) (c : Chan) (ch : ChannelState N) :
    channelInputs (setChan r c ch) = channelInputs r := by simp [channelInputs]

@[simp] theorem blkValid_setChan {N : Type} (r : Regs N) (c : Chan) (ch : ChannelState N) :
    blkValid (setChan r c ch) = blkValid r := by simp [blkValid]

@[simp] theorem getChan_raise (e : FaultCode) (s : State) (c : Chan) : getChan (raise e s).regs c = getChan s.regs c := by
  cases c <;> rfl

/-! ## What `CHPROC` reads and writes -/

/-- What `CHPROC` computes, from all that it reads: readiness, the inputs of R210 and the state of its own channel. None where
`ifloor` has no value. -/
def chprocReply (ready : Bool) (g : ChannelInputs Num64) (ch : ChannelState Num64) (f : Fmt) (w : DataWord) :
    Option (ChannelState Num64 × Response) :=
  if ready then
    match decodeSample f w with
    | none => some (ch, ⟨faultSt .nonFinite, 0#64, 0#64⟩)
    | some x => (channelTransform arithF64 design g ch x).map fun o => (o.1, ⟨stOk, encodeSample f o.2, 0#64⟩)
  else some (ch, ⟨faultSt .notReady, 0#64, 0#64⟩)

/-- `CHPROC` writes its channel and its response, both from what `chprocReply` reads, and not the other channel (R75, R210). -/
theorem exec_chproc_eq_reply {s t : State} {c : Selector} {ch : Chan} {f : Fmt} {w : DataWord} (hc : chanOfSel c = some ch)
    (h : exec (.chproc c f w) s = .next t) :
    (∃ a, chprocReply (blkValid s.regs) (channelInputs s.regs) (getChan s.regs ch) f w = some (getChan t.regs ch, a) ∧
      t.resp = some a) ∧
    ∀ d, ch ≠ d → getChan t.regs d = getChan s.regs d := by
  rcases execChproc_cases h with ⟨hn, -⟩ | ⟨d, hd, hcase⟩
  · simp [hc] at hn
  obtain rfl : ch = d := Option.some.inj (hc.symm.trans hd)
  rcases hcase with ⟨hv, rfl⟩ | ⟨hv, hx, rfl⟩ | ⟨hv, x, r, out, hx, hr, rfl⟩
  · exact ⟨⟨_, by simp [chprocReply, hv], rfl⟩, fun d _ => getChan_raise _ s d⟩
  · exact ⟨⟨_, by simp [chprocReply, hv, hx], rfl⟩, fun d _ => getChan_raise _ s d⟩
  · obtain ⟨ch', htr, rfl⟩ := chProcess_eq_some hr
    exact ⟨⟨_, by simp [chprocReply, hv, hx, htr], rfl⟩, fun d hne => getChan_setChan_ne hne s.regs ch'⟩

/-- An `OK` answer carries the new state of the channel's transform (R215, R285). -/
theorem channelTransform_of_chprocReply {ready : Bool} {g : ChannelInputs Num64} {ch ch' : ChannelState Num64} {f : Fmt}
    {w : DataWord} {a : Response} (h : chprocReply ready g ch f w = some (ch', a)) (hok : a.st = stOk) :
    ∃ x out, channelTransform arithF64 design g ch x = some (ch', out) := by
  unfold chprocReply at h
  split at h
  · split at h
    · cases h
      exact absurd hok (faultSt_ne_ok .nonFinite)
    · rename_i x _
      obtain ⟨⟨ch1, out⟩, htr, heq⟩ := Option.map_eq_some_iff.mp h
      cases heq
      exact ⟨x, out, htr⟩
  · cases h
    exact absurd hok (faultSt_ne_ok .notReady)

/-! ## The line after a processed sample -/

/-- An injection changes cell 0 alone (R170). -/
theorem dlRead_delayInject_succ {N : Type} (A : Arith N) (limit : N) (dl : List N) (v : N) (k : Nat) (h : 0 < dl.length) :
    dlRead A (delayInject A limit dl v) ((k + 1 : Nat) : Int) = dlRead A dl ((k + 1 : Nat) : Int) := by
  rw [delayInject, dlRead_dlWrite A dl 0 (k + 1) _ h, if_neg (Nat.succ_ne_zero k)]

/-- The transform of a channel moves every kept cell of its line one place (R62, R171). -/
theorem channelTransform_shifts {N : Type} {A : Arith N} {cfg : Cfg N} {g : ChannelInputs N} {ch ch' : ChannelState N} {x out : N}
    (h : channelTransform A cfg g ch x = some (ch', out)) {k : Nat} (hk : k + 1 < g.stages) :
    dlRead A ch'.dl ((k + 1 : Nat) : Int) = dlRead A ch.dl (k : Int) := by
  obtain ⟨xp, a, yd, y, xfb, -, -, -, -, -, rfl, -⟩ := channelTransform_eq_some h
  have hlen : 0 < (dlPush ch.dl a.1 g.stages).length := by
    rw [dlPush_length]
    omega
  exact (dlRead_delayInject_succ A cfg.limit _ _ k hlen).trans (dlRead_dlPush_succ A ch.dl a.1 g.stages k hk)

end Sys2Proof.Machine

namespace Sys2Proof

open Machine

/-- Settles O30: the transform pushes one cell, which shifts the line, and injects into the new cell 0 alone. -/
theorem lineKeepsNewest : Obligations.LineKeepsNewest := by
  unfold Obligations.LineKeepsNewest
  intro s t c ch f w q hsel ht hok
  have hc : chanOfSel c = some ch := by
    simp only [List.mem_cons, Prod.mk.injEq, List.not_mem_nil, or_false] at hsel
    rcases hsel with ⟨rfl, rfl⟩ | ⟨rfl, rfl⟩ <;> rfl
  obtain ⟨⟨a, hreply, ha⟩, -⟩ := exec_chproc_eq_reply hc ht
  obtain rfl := Option.some.inj (ha.symm.trans hok)
  obtain ⟨x, out, htr⟩ := channelTransform_of_chprocReply hreply rfl
  exact ⟨channelTransform_length htr, fun k hk => channelTransform_shifts htr hk⟩

/-- Settles O28: `CHPROC` is a function of what it reads, and two states that differ in the other channel alone give it the same. -/
theorem channelsAreIndependent : Obligations.ChannelsAreIndependent := by
  unfold Obligations.ChannelsAreIndependent
  intro s s' t t' c ch other f w hsel hs' ht ht'
  obtain ⟨hc, hne⟩ : chanOfSel c = some ch ∧ ch ≠ other := by
    simp only [List.mem_cons, Prod.mk.injEq, List.not_mem_nil, or_false] at hsel
    rcases hsel with ⟨rfl, rfl, rfl⟩ | ⟨rfl, rfl, rfl⟩ <;> exact ⟨rfl, by decide⟩
  obtain ⟨⟨a, ha, hta⟩, hframe⟩ := exec_chproc_eq_reply hc ht
  obtain ⟨⟨a', ha', hta'⟩, -⟩ := exec_chproc_eq_reply hc ht'
  rw [hs', blkValid_setChan, channelInputs_setChan, getChan_setChan_ne hne.symm, ha] at ha'
  obtain ⟨hchan, rfl⟩ := Prod.mk.inj (Option.some.inj ha')
  exact ⟨hframe other hne, hchan, hta.trans hta'.symm⟩

/-- Settles O41, read by read: a read that does not fault writes its response only, from registers that it leaves as they were. -/
theorem readsChangeNothing : Obligations.ReadsChangeNothing := by
  unfold Obligations.ReadsChangeNothing
  intro i s t a hi ht hresp hst
  have fault {e} (h : t = raise e s) : False := by
    subst h
    obtain rfl := Option.some.inj hresp
    exact faultSt_ne_ok e hst
  have answer {q0 q1} (h : t = respond q0 q1 s) (hagain : exec i (respond q0 q1 s) = .next (respond q0 q1 s)) :
      t = { s with resp := some a } ∧ exec i t = .next t := by
    subst h
    obtain rfl := Option.some.inj hresp
    exact ⟨rfl, hagain⟩
  rcases hi with ⟨p, rfl⟩ | ⟨r, rfl⟩ | ⟨c, k, rfl⟩
  · rcases execRdpar_cases ht with ⟨-, h⟩ | ⟨q, hq, h⟩
    · exact (fault h).elim
    · exact answer h (exec_rdpar_of_param hq)
  · rcases execRdst_cases ht with ⟨-, h⟩ | ⟨n, hn, ⟨-, -, h⟩ | ⟨hrate, h⟩⟩
    · exact (fault h).elim
    · exact (fault h).elim
    · exact answer h (exec_rdst_of_reg hn hrate)
  · rcases execRddl_cases ht with ⟨-, h⟩ | ⟨ch, hc, h⟩
    · exact (fault h).elim
    · exact answer h (exec_rddl_of_chan hc)

end Sys2Proof
end

section
/-! A `BLOCK` step by step (R69, R70, R230; entry 8): eight steps of CORE, between which the other agent may store a parameter. -/

namespace Sys2Proof.Machine

/-! ## One step of each agent -/

/-- A run begins with one step (R7). -/
theorem run_succ_of_step {n : Nat} {s t : State} (h : step s = .next t) : core.run (n + 1) s = core.run n t := by
  have hcore : core.step s = .next t := h
  simp [Host.Core.run, hcore]

/-- CORE takes the next command of the audio port when no `BLOCK` is in progress (R69, R81). -/
theorem step_core_command {s u : State} {rest : List Agent} {w : PortCommand} {ws : List PortCommand} {i : Instr}
    (hs : s.sched = .core :: rest) (hb : s.blk = none) (hw : s.audio.waiting = w :: ws)
    (hi : decode .audio w.cmd w.d0 w.d1 = .ok i)
    (hu : exec i { s with sched := rest, audio := ⟨ws, s.audio.answered⟩ } = .next u) : step s = .next (deliver .audio u) := by
  rw [hb] at hu
  simp [step, stepWith, hs, agentStep, hb, takeCommand, hw, runCommand, hi, setPort, getPort, hu, answerOn]

/-- CORE goes on with a `BLOCK` in progress (R69, R70). -/
theorem step_core_block {s u : State} {rest : List Agent} {b : BlockLoads} (hs : s.sched = .core :: rest) (hb : s.blk = some b)
    (hu : blockResume b { s with sched := rest } = .next u) : step s = .next (deliver .audio u) := by
  rw [hb] at hu
  simp [step, stepWith, hs, agentStep, hb, hu, answerOn]

/-- HOSTCTL takes the next command of the control port at any time (R69, R81). -/
theorem step_hostctl_command {s u : State} {rest : List Agent} {w : PortCommand} {ws : List PortCommand} {i : Instr}
    (hs : s.sched = .hostctl :: rest) (hw : s.control.waiting = w :: ws) (hi : decode .control w.cmd w.d0 w.d1 = .ok i)
    (hu : exec i { s with sched := rest, control := ⟨ws, s.control.answered⟩ } = .next u) :
    step s = .next (deliver .control u) := by
  simp [step, stepWith, hs, agentStep, takeCommand, hw, runCommand, hi, setPort, getPort, hu, answerOn]

/-- A `BLOCK` with a rate makes its first load (R230). -/
theorem exec_block_of_rate {s : State} (h : rateValid s.regs = true) :
    exec .block s = .next { s with blk := some (.one (parLoad s.regs .sine)), resp := none } := by
  simp [exec, execBlock, needRate_ready h]

/-- A `WRPAR` of a legal value stores it (R257, R258). -/
theorem exec_wrpar_of_legal {s : State} {p : Selector} {q : Param} {v : DataWord} (hq : paramOfSel p = some q)
    (hv : arithF64.isLegal q v = true) :
    exec (.wrpar p v) s = .next (respond 0#64 0#64 { s with regs := parStore s.regs q v }) := by
  simp [exec, execWrpar, hq, hv]

/-! ## The loads -/

/-- The parameters in index order, the order in which a `BLOCK` loads them (R22, R70). -/
def paramOrder : List Param := [.sine, .freq, .duty, .len, .depth, .fb, .mix]

theorem exists_paramOrder {n : Nat} (h : n < 7) : ∃ q, paramOrder[n]? = some q :=
  ⟨paramOrder[n]'h, List.getElem?_eq_getElem h⟩

/-- The index of a parameter is its selector (R89). -/
theorem paramOfSel_of_paramOrder {n : Nat} {q : Param} (h : paramOrder[n]? = some q) : paramOfSel (BitVec.ofNat 8 n) = some q := by
  obtain ⟨hn, rfl⟩ := List.getElem?_eq_some_iff.mp h
  have all : ∀ i : Fin 7, paramOfSel (BitVec.ofNat 8 i) = some paramOrder[i] := by decide
  exact all ⟨n, hn⟩

/-- A parameter has one index. -/
theorem paramOrder_inj {i j : Nat} {q : Param} (hi : paramOrder[i]? = some q) (hj : paramOrder[j]? = some q) : i = j := by
  obtain ⟨hlt, -⟩ := List.getElem?_eq_some_iff.mp hi
  exact (List.getElem?_inj hlt (by decide)).mp (hi.trans hj.symm)

theorem paramOrder_ne {i j : Nat} {p q : Param} (hp : paramOrder[i]? = some p) (hq : paramOrder[j]? = some q) (h : i ≠ j) :
    p ≠ q := by
  rintro rfl
  exact h (paramOrder_inj hp hq)

/-- What a `BLOCK` that is to compute on `m` holds after the load of index `l`. -/
def loadsUpTo (m : Params Num64) : Nat → BlockLoads
  | 0 => .one m.sine
  | 1 => .two m.sine m.freq
  | 2 => .three m.sine m.freq m.duty
  | 3 => .four m.sine m.freq m.duty m.len
  | 4 => .five m.sine m.freq m.duty m.len m.depth
  | 5 => .six m.sine m.freq m.duty m.len m.depth m.fb
  | _ => .seven m.sine m.freq m.duty m.len m.depth m.fb m.mix

/-- The step of a `BLOCK` after the load of index `l` loads the parameter of the next index. -/
theorem blockResume_loadsUpTo {m : Params Num64} {s : State} {l : Nat} {q : Param} (hq : paramOrder[l + 1]? = some q)
    (hload : getParam m q = parLoad s.regs q) :
    blockResume (loadsUpTo m l) s = .next { s with blk := some (loadsUpTo m (l + 1)), resp := none } := by
  match l, hq with
  | 0, hq | 1, hq | 2, hq | 3, hq | 4, hq | 5, hq =>
    obtain rfl := Option.some.inj hq
    simp [blockResume, blockResumeWith, blockLoaded, loadsUpTo, ← hload, getParam]

/-- The last step of a `BLOCK` computes on all it has loaded, and answers (R230). -/
theorem blockResume_loadsUpTo_last {m : Params Num64} {s : State} {r : Regs Num64}
    (h : cacheBlock arithF64 design m s.regs = some r) :
    blockResume (loadsUpTo m 6) s = .next (respond (intResult r.stages) 0#64 { s with regs := r, blk := none }) := by
  simp [blockResume, blockResumeWith, loadsUpTo, h]

/-- `CACHE.BLOCK` neither reads nor writes the parameter registers (R231). -/
theorem cacheBlock_with_p {N : Type} {A : Arith N} {cfg : Cfg N} {m : Params N} {r r' : Regs N} (h : cacheBlock A cfg m r = some r')
    (ps : Params N) : cacheBlock A cfg m { r with p := ps } = some { r' with p := ps } := by
  obtain ⟨n, hn, rfl⟩ := cacheBlock_eq_some h
  simp [cacheBlock, hn]

/-! ## The eight steps -/

section Block
variable {w : PortCommand} {ws : List PortCommand} {m : Params Num64} {r0 r : Regs Num64}

/-- A state after `j` of the eight steps of a `BLOCK` that waits as `w` before `ws` and computes on `m`: the parameter registers
hold `ps`, the others those of `r0` until the last step and those of `r` after it. -/
inductive BlockAt (w : PortCommand) (ws : List PortCommand) (m : Params Num64) (r0 r : Regs Num64) (ps : Params Num64) :
    Nat → State → Prop where
  | waiting {t : State} (hblk : t.blk = none) (hwait : t.audio.waiting = w :: ws) (hregs : t.regs = { r0 with p := ps }) :
      BlockAt w ws m r0 r ps 0 t
  | loaded {t : State} {l : Nat} (hl : l < 7) (hblk : t.blk = some (loadsUpTo m l)) (hwait : t.audio.waiting = ws)
      (hregs : t.regs = { r0 with p := ps }) : BlockAt w ws m r0 r ps (l + 1) t
  | done {t : State} (hblk : t.blk = none) (hwait : t.audio.waiting = ws) (hregs : t.regs = { r with p := ps }) :
      BlockAt w ws m r0 r ps 8 t

/-- A step of CORE is the next step of the `BLOCK`, if the parameter it loads holds what the `BLOCK` is to compute on. -/
theorem BlockAt.core_step {ps : Params Num64} {j : Nat} {t : State} {rest : List Agent} (h : BlockAt w ws m r0 r ps j t)
    (hj : j < 8) (hw : decode .audio w.cmd w.d0 w.d1 = .ok .block) (hrate : rateValid r0 = true)
    (hr : cacheBlock arithF64 design m r0 = some r) (hs : t.sched = .core :: rest)
    (hload : ∀ q, paramOrder[j]? = some q → getParam m q = getParam ps q) :
    ∃ t', step t = .next t' ∧ BlockAt w ws m r0 r ps (j + 1) t' ∧ t'.sched = rest ∧ t'.control = t.control := by
  cases h with
  | waiting hblk hwait hregs =>
    have hready : rateValid t.regs = true := by simpa [hregs, rateValid] using hrate
    have hfirst : m.sine = parLoad t.regs .sine := by simpa [hregs, parLoad, getParam] using hload .sine rfl
    refine ⟨_, step_core_command hs hblk hwait hw (exec_block_of_rate hready), .loaded (l := 0) (by omega) ?_ ?_ ?_, ?_, ?_⟩
    · simp [loadsUpTo, hfirst]
    · simp
    · simp [hregs]
    · simp
    · simp
  | @loaded _ l hl hblk hwait hregs =>
    by_cases hlast : l = 6
    · subst hlast
      have hcache : cacheBlock arithF64 design m t.regs = some { r with p := ps } := by rw [hregs, cacheBlock_with_p hr ps]
      have hu := blockResume_loadsUpTo_last (s := { t with sched := rest }) hcache
      exact ⟨_, step_core_block hs hblk hu, .done (by simp) (by simpa using hwait) (by simp), by simp, by simp⟩
    · obtain ⟨q, hq⟩ := exists_paramOrder (show l + 1 < 7 by omega)
      have hu := blockResume_loadsUpTo (s := { t with sched := rest }) hq (by simpa [parLoad, hregs] using hload q hq)
      exact ⟨_, step_core_block hs hblk hu, .loaded (by omega) (by simp) (by simpa using hwait) (by simpa using hregs),
        by simp, by simp⟩
  | done => omega

/-- A store leaves the `BLOCK` where it is. -/
theorem BlockAt.store {ps : Params Num64} {j : Nat} {t : State} {rest : List Agent} {u : PortCommand} {us : List PortCommand}
    {p : Selector} {q : Param} {v : DataWord} (h : BlockAt w ws m r0 r ps j t) (hs : t.sched = .hostctl :: rest)
    (hu : t.control.waiting = u :: us) (hd : decode .control u.cmd u.d0 u.d1 = .ok (.wrpar p v)) (hq : paramOfSel p = some q)
    (hv : arithF64.isLegal q v = true) :
    ∃ t', step t = .next t' ∧ BlockAt w ws m r0 r (setParam ps q v) j t' ∧ t'.sched = rest ∧ t'.control.waiting = us := by
  refine ⟨_, step_hostctl_command hs hu hd (exec_wrpar_of_legal hq hv), ?_, by simp, by simp⟩
  cases h with
  | waiting hblk hwait hregs => exact .waiting (by simpa using hblk) (by simpa using hwait) (by simp [hregs, parStore])
  | loaded hl hblk hwait hregs => exact .loaded hl (by simpa using hblk) (by simpa using hwait) (by simp [hregs, parStore])
  | done hblk hwait hregs => exact .done (by simpa using hblk) (by simpa using hwait) (by simp [hregs, parStore])

/-- `a` steps of CORE are the next `a` steps of the `BLOCK`. -/
theorem BlockAt.core_run {ps : Params Num64} {j : Nat} {t : State} {rest : List Agent} (a : Nat) (h : BlockAt w ws m r0 r ps j t)
    (hj : j + a ≤ 8) (hw : decode .audio w.cmd w.d0 w.d1 = .ok .block) (hrate : rateValid r0 = true)
    (hr : cacheBlock arithF64 design m r0 = some r) (hs : t.sched = List.replicate a .core ++ rest)
    (hload : ∀ i q, j ≤ i → i < j + a → paramOrder[i]? = some q → getParam m q = getParam ps q) :
    ∃ t', (∀ n, core.run (a + n) t = core.run n t') ∧ BlockAt w ws m r0 r ps (j + a) t' ∧ t'.sched = rest ∧
      t'.control = t.control := by
  induction a generalizing j t with
  | zero => exact ⟨t, fun n => by rw [Nat.zero_add], h, by simpa using hs, rfl⟩
  | succ a ih =>
    obtain ⟨t1, hstep, hat, hsched, hcontrol⟩ := h.core_step (by omega) hw hrate hr hs fun q => hload j q le_rfl (by omega)
    obtain ⟨t2, hrun, hat', hsched', hcontrol'⟩ :=
      ih hat (by omega) hsched fun i q hi hlt => hload i q (by omega) (by omega)
    refine ⟨t2, fun n => ?_, by rwa [Nat.add_right_comm] at hat', hsched', hcontrol'.trans hcontrol⟩
    rw [Nat.add_right_comm, run_succ_of_step hstep, hrun]

theorem BlockAt.finished {ps : Params Num64} {t : State} (h : BlockAt w ws m r0 r ps 8 t) :
    t.blk = none ∧ t.audio.waiting = ws ∧ t.regs = { r with p := ps } := by
  cases h with
  | loaded hl => omega
  | done hblk hwait hregs => exact ⟨hblk, hwait, hregs⟩

end Block

/-- The parameters that a `BLOCK` computes on, when a store of parameter `n` falls after `k` of its steps. -/
def seenParams (ps : Params Num64) (k n : Nat) (q : Param) (v : Num64) : Params Num64 := if n < k then ps else setParam ps q v

/-- Before the store the `BLOCK` loads the old values: the stored parameter is not among them, or it is seen as it was (R70). -/
theorem getParam_seenParams_before {ps : Params Num64} {k n i : Nat} {q x : Param} {v : Num64} (hq : paramOrder[n]? = some q)
    (hx : paramOrder[i]? = some x) (hi : i < k) : getParam (seenParams ps k n q v) x = getParam ps x := by
  unfold seenParams
  split
  · rfl
  · rw [getParam_setParam, if_neg (paramOrder_ne hx hq (by omega))]

/-- After the store the `BLOCK` loads the new values: the stored parameter is not among them, or it is seen as stored (R70). -/
theorem getParam_seenParams_after {ps : Params Num64} {k n i : Nat} {q x : Param} {v : Num64} (hq : paramOrder[n]? = some q)
    (hx : paramOrder[i]? = some x) (hi : k ≤ i) : getParam (seenParams ps k n q v) x = getParam (setParam ps q v) x := by
  unfold seenParams
  split
  · rw [getParam_setParam, if_neg (paramOrder_ne hx hq (by omega))]
  · rfl

end Sys2Proof.Machine

namespace Sys2Proof

open Machine

/-- Settles O20: `k` steps of the `BLOCK` load the old values, the store leaves it where it is, and the other steps load the new
values. -/
theorem blockSeesConcurrentStore : Obligations.BlockSeesConcurrentStore := by
  unfold Obligations.BlockSeesConcurrentStore
  intro s k n q v w u ws us rest r hk hq hs hblk hrate hw hdw hu hdu hv hr
  change cacheBlock arithF64 design (seenParams s.regs.p k n q v) s.regs = some r at hr
  have hstart : BlockAt w ws (seenParams s.regs.p k n q v) s.regs r s.regs.p 0 s := .waiting hblk hw rfl
  obtain ⟨s1, hrun1, hat1, hsched1, hcontrol1⟩ := hstart.core_run k (by omega) hdw hrate hr hs
    fun i x _ hi hx => getParam_seenParams_before hq hx (by omega)
  obtain ⟨s2, hstep, hat2, hsched2, hcontrol2⟩ :=
    hat1.store hsched1 (by rw [hcontrol1, hu]) hdu (paramOfSel_of_paramOrder hq) hv
  obtain ⟨s3, hrun3, hat3, hsched3, hcontrol3⟩ := hat2.core_run (8 - k) (by omega) hdw hrate hr hsched2
    fun i x hi _ hx => getParam_seenParams_after hq hx (by omega)
  rw [show 0 + k + (8 - k) = 8 by omega] at hat3
  obtain ⟨hblk3, hwait3, hregs3⟩ := hat3.finished
  have hrun : core.run 9 s = .next s3 := calc
    core.run 9 s = core.run (k + (8 - k + 0 + 1)) s := by congr 1; omega
    _ = core.run (8 - k + 0 + 1) s1 := hrun1 _
    _ = core.run (8 - k + 0) s2 := run_succ_of_step hstep
    _ = .next s3 := hrun3 0
  exact ⟨s3, hrun, hregs3, hblk3, hsched3, hwait3, by rw [hcontrol3, hcontrol2]⟩

end Sys2Proof
end

section
/-! The decoder read as the table of R88: what each opcode decodes to, which words pass the check of their format, and that the
operand words are only carried along (R84, R91). -/

namespace Sys2Proof

/-! ## The fields of a command word (R82) -/

/-- The fields of a word put together are those it was put together from. -/
theorem fields_cmdWord (op : BitVec 8) (a : Selector) (f : BitVec 1) :
    opField (cmdWord op a f) = op ∧ aField (cmdWord op a f) = a ∧ zField (cmdWord op a f) = 0#15 ∧
      fField (cmdWord op a f) = f :=
  ⟨Laws.opField_cmdWord op a f, Laws.aField_cmdWord op a f, Laws.zField_cmdWord op a f, Laws.fField_cmdWord op a f⟩

/-- A word without reserved bits is put together from its three other fields. -/
theorem cmdWord_fields {cmd : CmdWord} (hz : zField cmd = 0#15) : cmdWord (opField cmd) (aField cmd) (fField cmd) = cmd := by
  unfold zField at hz
  unfold cmdWord opField aField fField
  rw [← hz]
  apply BitVec.eq_of_getLsbD_eq
  intro i hi
  simp only [BitVec.getLsbD_append, BitVec.getLsbD_extractLsb']
  grind

@[simp] theorem fBit_fmtOf (f : BitVec 1) : fBit (fmtOf f) = f := by
  revert f; decide

@[simp] theorem fmtOf_fBit (f : Fmt) : fmtOf (fBit f) = f := by
  cases f <;> rfl

/-- The flag has two values, so R91's "not 0" is R90's "is 1". -/
theorem fField_ne_zero_iff (cmd : CmdWord) : fField cmd ≠ 0#1 ↔ fField cmd = 1#1 := by
  generalize fField cmd = f
  revert f; decide

/-! ## Which words pass the check of their format (R83, R91) -/

theorem formatN_ok_iff {cmd : CmdWord} {i j : Instr} :
    formatN cmd i = .ok j ↔ fField cmd = 0#1 ∧ aField cmd = 0#8 ∧ i = j := by
  unfold formatN
  split_ifs <;> simp_all

theorem formatS_ok_iff {cmd : CmdWord} {range : Selector → Bool} {i j : Instr} :
    formatS cmd range i = .ok j ↔ fField cmd = 0#1 ∧ range (aField cmd) = true ∧ i = j := by
  unfold formatS
  split_ifs <;> simp_all

theorem formatF_ok_iff {cmd : CmdWord} {range : Selector → Bool} {i j : Instr} :
    formatF cmd range i = .ok j ↔ range (aField cmd) = true ∧ i = j := by
  unfold formatF
  split_ifs <;> simp_all

theorem formatN_fails_iff {cmd : CmdWord} {i : Instr} :
    (∃ e, formatN cmd i = .error e) ↔ fField cmd = 1#1 ∨ (aField cmd).toNat ≠ 0 := by
  have ha : (aField cmd).toNat ≠ 0 ↔ aField cmd ≠ 0#8 := by simp [BitVec.toNat_eq]
  rw [← fField_ne_zero_iff, ha]
  unfold formatN
  split_ifs <;> simp_all

theorem formatS_fails_iff {cmd : CmdWord} {range : Selector → Bool} {i : Instr} :
    (∃ e, formatS cmd range i = .error e) ↔ fField cmd = 1#1 ∨ range (aField cmd) = false := by
  rw [← fField_ne_zero_iff]
  unfold formatS
  split_ifs <;> simp_all

theorem formatF_fails_iff {cmd : CmdWord} {range : Selector → Bool} {i : Instr} :
    (∃ e, formatF cmd range i = .error e) ↔ range (aField cmd) = false := by
  unfold formatF
  split_ifs <;> simp_all

theorem isParamSel_eq_false {p : Selector} : isParamSel p = false ↔ 6 < p.toNat := by
  simp [isParamSel]

theorem isChanSel_eq_false {c : Selector} : isChanSel c = false ↔ 1 < c.toNat := by
  simp [isChanSel]

/-- The numbers outside the register map of R38 are those R286 lists. -/
theorem isRegSel_eq_false {r : Selector} : isRegSel r = false ↔
    r.toNat = 0x07 ∨ r.toNat = 0x17 ∨ (0x19 ≤ r.toNat ∧ r.toNat ≤ 0x1F) ∨ (0x29 ≤ r.toNat ∧ r.toNat ≤ 0x3F) ∨
      (0x4C ≤ r.toNat ∧ r.toNat ≤ 0x4F) ∨ 0x5C ≤ r.toNat := by
  simp only [isRegSel, Bool.or_eq_false_iff, Bool.and_eq_false_iff, decide_eq_false_iff_not]
  omega

/-! ## The table of R88 -/

/-- What a word without reserved bits decodes to on a port that accepts its opcode, one constructor per row of R88, and the
unassigned opcodes. -/
inductive OpcodeRow (cmd : CmdWord) (d0 d1 : DataWord) : BitVec 8 → Except Illegal Instr → Prop where
  | init : OpcodeRow cmd d0 d1 0x01#8 (formatN cmd .init)
  | setrate : OpcodeRow cmd d0 d1 0x02#8 (formatN cmd (.setrate d0))
  | wrpar : OpcodeRow cmd d0 d1 0x03#8 (formatS cmd isParamSel (.wrpar (aField cmd) d0))
  | rdpar : OpcodeRow cmd d0 d1 0x04#8 (formatS cmd isParamSel (.rdpar (aField cmd)))
  | block : OpcodeRow cmd d0 d1 0x05#8 (formatN cmd .block)
  | mod : OpcodeRow cmd d0 d1 0x06#8 (formatN cmd .mod)
  | chproc : OpcodeRow cmd d0 d1 0x07#8 (formatF cmd isChanSel (.chproc (aField cmd) (fmtOf (fField cmd)) d0))
  | frame : OpcodeRow cmd d0 d1 0x08#8 (formatF cmd (fun a => a == 0#8) (.frame (fmtOf (fField cmd)) d0 d1))
  | ostep : OpcodeRow cmd d0 d1 0x09#8 (formatN cmd .ostep)
  | onext : OpcodeRow cmd d0 d1 0x0A#8 (formatN cmd .onext)
  | snap : OpcodeRow cmd d0 d1 0x0B#8 (formatN cmd .snap)
  | restore : OpcodeRow cmd d0 d1 0x0C#8 (formatN cmd .restore)
  | rdst : OpcodeRow cmd d0 d1 0x0D#8 (formatS cmd isRegSel (.rdst (aField cmd)))
  | rddl : OpcodeRow cmd d0 d1 0x0E#8 (formatS cmd isChanSel (.rddl (aField cmd) d0))
  | unassigned {op : BitVec 8} (h : op.toNat = 0 ∨ 0x0F ≤ op.toNat) : OpcodeRow cmd d0 d1 op (.error .opcode)

/-- One entry of the decoder's lookup: the row of its opcode, or the entries after it. -/
theorem OpcodeRow.lookup {cmd : CmdWord} {d0 d1 : DataWord} {op k : BitVec 8} {hit miss : Except Illegal Instr}
    (hhit : OpcodeRow cmd d0 d1 k hit) (hmiss : op ≠ k → OpcodeRow cmd d0 d1 op miss) :
    OpcodeRow cmd d0 d1 op (if op = k then hit else miss) := by
  split
  · next heq => exact heq ▸ hhit
  · next hne => exact hmiss hne

/-- R91 in two parts: the checks of the reserved bits and of the port, then the row of the opcode. -/
theorem decode_opcodeRow {p : Port} {cmd : CmdWord} (d0 d1 : DataWord) (hz : zField cmd = 0#15)
    (hp : portAccepts p (opField cmd) = true) : OpcodeRow cmd d0 d1 (opField cmd) (decode p cmd d0 d1) := by
  unfold decode
  rw [if_neg (not_not.mpr hz)]
  dsimp only
  rw [hp]
  exact .lookup .init fun _ => .lookup .setrate fun _ => .lookup .wrpar fun _ => .lookup .rdpar fun _ =>
    .lookup .block fun _ => .lookup .mod fun _ => .lookup .chproc fun _ => .lookup .frame fun _ =>
    .lookup .ostep fun _ => .lookup .onext fun _ => .lookup .snap fun _ => .lookup .restore fun _ =>
    .lookup .rdst fun _ => .lookup .rddl fun _ => .unassigned (by bv_omega)

/-- A word with a reserved bit fails at once, whatever its port (R91 step 1). -/
theorem decode_of_reserved {p : Port} {cmd : CmdWord} (d0 d1 : DataWord) (hz : zField cmd ≠ 0#15) :
    decode p cmd d0 d1 = .error .reservedBits := by
  simp [decode, hz]

/-- An opcode the port does not accept fails (R91 step 2). -/
theorem decode_of_not_accepted {p : Port} {cmd : CmdWord} (d0 d1 : DataWord) (hz : zField cmd = 0#15)
    (hp : portAccepts p (opField cmd) = false) : decode p cmd d0 d1 = .error .port := by
  simp [decode, hz, hp]

/-- A word that decodes passed the checks of the reserved bits and of the port. -/
theorem checks_of_decode_ok {p : Port} {cmd : CmdWord} {d0 d1 : DataWord} {i : Instr} (h : decode p cmd d0 d1 = .ok i) :
    zField cmd = 0#15 ∧ portAccepts p (opField cmd) = true := by
  by_cases hz : zField cmd = 0#15
  · refine ⟨hz, ?_⟩
    by_contra hp
    rw [decode_of_not_accepted d0 d1 hz (Bool.eq_false_of_not_eq_true hp)] at h
    cases h
  · rw [decode_of_reserved d0 d1 hz] at h
    cases h

/-- Past the check of the port, the port no longer matters (R81). -/
theorem decode_eq_audio {p : Port} {cmd : CmdWord} (d0 d1 : DataWord) (hp : portAccepts p (opField cmd) = true) :
    decode p cmd d0 d1 = decode .audio cmd d0 d1 := by
  have haudio : portAccepts .audio (opField cmd) = true := rfl
  simp only [decode, hp, haudio]

/-! ## The operand words are only carried along (R84, R91) -/

/-- The command with the operand words it uses taken from `d0` and `d1`. -/
def Instr.withOperands (d0 d1 : DataWord) : Instr → Instr
  | .setrate _ => .setrate d0
  | .wrpar p _ => .wrpar p d0
  | .chproc c f _ => .chproc c f d0
  | .frame f _ _ => .frame f d0 d1
  | .rddl c _ => .rddl c d0
  | .init => .init
  | .rdpar p => .rdpar p
  | .block => .block
  | .mod => .mod
  | .ostep => .ostep
  | .onext => .onext
  | .snap => .snap
  | .restore => .restore
  | .rdst r => .rdst r

/-- The encoder sends the operand words of its command. -/
theorem withOperands_encode (i : Instr) : i.withOperands (encode i).d0 (encode i).d1 = i := by
  cases i <;> rfl

section Map
variable (cmd : CmdWord) (range : Selector → Bool) (i : Instr) (g : Instr → Instr)

theorem formatN_map : (formatN cmd i).map g = formatN cmd (g i) := by
  unfold formatN
  split_ifs <;> rfl

theorem formatS_map : (formatS cmd range i).map g = formatS cmd range (g i) := by
  unfold formatS
  split_ifs <;> rfl

theorem formatF_map : (formatF cmd range i).map g = formatF cmd range (g i) := by
  unfold formatF
  split_ifs <;> rfl

end Map

/-- Other operand words give the same answer, an error as it was and a command with the new words in it: no check reads them. -/
theorem decode_map_withOperands (p : Port) (cmd : CmdWord) (d0 d1 e0 e1 : DataWord) :
    (decode p cmd d0 d1).map (Instr.withOperands e0 e1) = decode p cmd e0 e1 := by
  simp only [decode, apply_ite (Except.map (Instr.withOperands e0 e1)), formatN_map, formatS_map, formatF_map]
  rfl

/-! ## The words of a command -/

/-- A well-formed command's word decodes to it, with the operand words presented, on a port that accepts its opcode. -/
theorem decode_encode {p : Port} {i : Instr} (hw : i.wellFormed = true) (hp : portAccepts p (opField (encode i).cmd) = true)
    (d0 d1 : DataWord) : decode p (encode i).cmd d0 d1 = .ok (i.withOperands d0 d1) := by
  rw [decode_eq_audio d0 d1 hp]
  cases i with
  | init | setrate | block | mod | ostep | onext | snap | restore =>
    simp [encode, decode, fields_cmdWord, portAccepts, formatN_ok_iff, Instr.withOperands]
  | wrpar | rdpar | rdst | rddl =>
    simpa [encode, decode, fields_cmdWord, portAccepts, formatS_ok_iff, Instr.withOperands, Instr.wellFormed] using hw
  | chproc => simpa [encode, decode, fields_cmdWord, portAccepts, formatF_ok_iff, Instr.withOperands, Instr.wellFormed] using hw
  | frame => simp [encode, decode, fields_cmdWord, portAccepts, formatF_ok_iff, Instr.withOperands]

/-- A word that decodes is the word of the command it decodes to, which is well-formed and holds the operand words presented. -/
theorem encode_of_decode_ok {p : Port} {cmd : CmdWord} {d0 d1 : DataWord} {i : Instr} (h : decode p cmd d0 d1 = .ok i) :
    i.wellFormed = true ∧ (encode i).cmd = cmd ∧ i.withOperands d0 d1 = i := by
  obtain ⟨hz, hp⟩ := checks_of_decode_ok h
  have hcmd := cmdWord_fields hz
  have hrow := decode_opcodeRow d0 d1 hz hp
  rw [h] at hrow
  generalize hop : opField cmd = op at hrow hcmd
  generalize hres : Except.ok i = res at hrow
  cases hrow with
  | init | setrate | block | mod | ostep | onext | snap | restore =>
    obtain ⟨hf, ha, rfl⟩ := formatN_ok_iff.mp hres.symm
    rw [hf, ha] at hcmd
    exact ⟨rfl, hcmd, rfl⟩
  | wrpar | rdpar | rdst | rddl =>
    obtain ⟨hf, ha, rfl⟩ := formatS_ok_iff.mp hres.symm
    rw [hf] at hcmd
    exact ⟨ha, hcmd, rfl⟩
  | chproc =>
    obtain ⟨ha, rfl⟩ := formatF_ok_iff.mp hres.symm
    exact ⟨ha, by simpa [encode] using hcmd, rfl⟩
  | frame =>
    obtain ⟨ha, rfl⟩ := formatF_ok_iff.mp hres.symm
    rw [beq_iff_eq.mp ha] at hcmd
    exact ⟨rfl, by simpa [encode] using hcmd, rfl⟩
  | unassigned => cases hres

/-- Which words decode to a command, on either port. -/
theorem decode_eq_ok_iff {p : Port} {cmd : CmdWord} {d0 d1 : DataWord} {i : Instr} :
    decode p cmd d0 d1 = .ok i ↔
      i.wellFormed = true ∧ (encode i).cmd = cmd ∧ i.withOperands d0 d1 = i ∧ portAccepts p (opField cmd) = true := by
  constructor
  · intro h
    obtain ⟨hw, hcmd, hops⟩ := encode_of_decode_ok h
    exact ⟨hw, hcmd, hops, (checks_of_decode_ok h).2⟩
  · rintro ⟨hw, rfl, hops, hp⟩
    rw [decode_encode hw hp, hops]

/-- The control port accepts the words of the parameter commands (R81). -/
theorem portAccepts_control_encode {i : Instr} (h : (∃ p v, i = .wrpar p v) ∨ ∃ p, i = .rdpar p) :
    portAccepts .control (opField (encode i).cmd) = true := by
  rcases h with ⟨p, v, rfl⟩ | ⟨p, rfl⟩
  · simp [encode, Laws.opField_cmdWord, portAccepts]
  · simp [encode, Laws.opField_cmdWord, portAccepts]

/-! ## The illegal words (R90) -/

/-- The words R90 lists, by the fields of the word. -/
def IsListedIllegal (p : Port) (cmd : CmdWord) : Prop :=
  let op := (opField cmd).toNat
  let a := (aField cmd).toNat
  (op = 0 ∨ 0x0F ≤ op) ∨
  zField cmd ≠ 0#15 ∨
  (fField cmd = 1#1 ∧ op ≠ 0x07 ∧ op ≠ 0x08) ∨
  (a ≠ 0 ∧ op ∈ [0x01, 0x02, 0x05, 0x06, 0x08, 0x09, 0x0A, 0x0B, 0x0C]) ∨
  (6 < a ∧ op ∈ [0x03, 0x04]) ∨
  (1 < a ∧ op ∈ [0x07, 0x0E]) ∨
  (op = 0x0D ∧ (a = 0x07 ∨ a = 0x17 ∨ (0x19 ≤ a ∧ a ≤ 0x1F) ∨ (0x29 ≤ a ∧ a ≤ 0x3F) ∨ (0x4C ≤ a ∧ a ≤ 0x4F) ∨ 0x5C ≤ a)) ∨
  (p = .control ∧ op ≠ 0x03 ∧ op ≠ 0x04)

theorem portAccepts_eq_false {p : Port} {op : BitVec 8} :
    portAccepts p op = false ↔ p = .control ∧ op.toNat ≠ 0x03 ∧ op.toNat ≠ 0x04 := by
  cases p with
  | audio => simp [portAccepts]
  | control =>
    simp only [portAccepts, Bool.or_eq_false_iff, beq_eq_false_iff_ne, true_and]
    bv_omega

/-- Decoding fails at the step of R91 that finds one of R90's clauses. -/
theorem decode_fails_iff (p : Port) (cmd : CmdWord) (d0 d1 : DataWord) :
    (∃ e, decode p cmd d0 d1 = .error e) ↔ IsListedIllegal p cmd := by
  by_cases hz : zField cmd = 0#15
  case neg => simp [decode_of_reserved d0 d1 hz, IsListedIllegal, hz]
  by_cases hp : portAccepts p (opField cmd) = true
  case neg =>
    have hp := Bool.eq_false_of_not_eq_true hp
    exact iff_of_true ⟨_, decode_of_not_accepted d0 d1 hz hp⟩ (by simp [IsListedIllegal, portAccepts_eq_false.mp hp])
  have hport : ¬ (p = .control ∧ (opField cmd).toNat ≠ 0x03 ∧ (opField cmd).toNat ≠ 0x04) := by
    rw [← portAccepts_eq_false, hp]
    decide
  have hrow := decode_opcodeRow d0 d1 hz hp
  simp only [IsListedIllegal, hz, hport]
  generalize decode p cmd d0 d1 = res at hrow
  generalize opField cmd = op at hrow
  cases hrow with
  | init | setrate | block | mod | ostep | onext | snap | restore => simp [formatN_fails_iff]
  | wrpar | rdpar => simp [formatS_fails_iff, isParamSel_eq_false]
  | rdst => simp [formatS_fails_iff, isRegSel_eq_false]
  | rddl => simp [formatS_fails_iff, isChanSel_eq_false]
  | chproc => simp [formatF_fails_iff, isChanSel_eq_false]
  | frame => simp [formatF_fails_iff, BitVec.toNat_eq]
  | unassigned h => simp [h]

end Sys2Proof

namespace Sys2Proof.Machine

/-- A word that fails to decode is answered `E_ILLEGAL`, whatever the reason (R90). -/
theorem runCommand_of_illegal {run : Meaning} {p : Port} {w : PortCommand} {e : Illegal} (s : State)
    (h : decode p w.cmd w.d0 w.d1 = .error e) : runCommand run p w s = .next (raise .illegal s) := by
  simp [runCommand, h]

/-- A word that decodes is run (R91 step 5). -/
theorem runCommand_of_decode {run : Meaning} {p : Port} {w : PortCommand} {i : Instr} (s : State)
    (h : decode p w.cmd w.d0 w.d1 = .ok i) : runCommand run p w s = run i s := by
  simp [runCommand, h]

/-- A port with a command waiting runs it on the state without it and takes the response (R81). -/
theorem takeCommand_of_waiting {run : Meaning} {p : Port} {s : State} {w : PortCommand} {ws : List PortCommand} {i : Instr}
    (hw : (getPort s p).waiting = w :: ws) (hi : decode p w.cmd w.d0 w.d1 = .ok i) :
    takeCommand run p s = answerOn p (run i (setPort s p ⟨ws, (getPort s p).answered⟩)) := by
  simp [takeCommand, hw, runCommand_of_decode _ hi]

end Sys2Proof.Machine

namespace Sys2Proof

open Machine

/-- Settles O2: the encoder sends the operand words that its word's decoding carries. -/
theorem decodeInvertsEncode : Obligations.DecodeInvertsEncode := by
  unfold Obligations.DecodeInvertsEncode
  intro i hi
  calc decodeAudio (encode i)
    _ = .ok (i.withOperands (encode i).d0 (encode i).d1) := decode_encode hi rfl _ _
    _ = .ok i := by rw [withOperands_encode]

/-- Settles O3: the word of a decoded command is known, and the audio port accepts every opcode. -/
theorem encodeInvertsDecode : Obligations.EncodeInvertsDecode := by
  unfold Obligations.EncodeInvertsDecode
  intro p cmd d0 d1 i h
  obtain ⟨hw, rfl, hops, -⟩ := decode_eq_ok_iff.mp h
  exact ⟨hw, rfl, decode_eq_ok_iff.mpr ⟨hw, rfl, hops, rfl⟩⟩

/-- Settles O4: the checks of R91 find R90's clauses, and every one of them has the response of `raise`. -/
theorem illegalWords : Obligations.IllegalWords := by
  unfold Obligations.IllegalWords
  exact ⟨decode_fails_iff, fun p w e s h => runCommand_of_illegal s h⟩

/-- Settles O5: decoding commutes with replacing the operand words. -/
theorem operandWordsDoNotDecode : Obligations.OperandWordsDoNotDecode := by
  unfold Obligations.OperandWordsDoNotDecode
  refine ⟨fun p cmd d0 d1 e0 e1 e => ?_, fun p cmd d0 d1 e0 e1 i j hi hj => ?_⟩
  · constructor
    · intro h
      rw [← decode_map_withOperands p cmd d0 d1 e0 e1, h]
      rfl
    · intro h
      rw [← decode_map_withOperands p cmd e0 e1 d0 d1, h]
      rfl
  · obtain ⟨-, -, hops⟩ := encode_of_decode_ok hi
    have hj' : (.ok (i.withOperands e0 e1) : Except Illegal Instr) = .ok j := by
      rw [← hj, ← decode_map_withOperands p cmd d0 d1 e0 e1, hi]
      rfl
    cases hj'
    cases i with
    | init | block | mod | ostep | onext | snap | restore | rdpar | rdst => rfl
    | setrate | wrpar | chproc | rddl =>
      cases hops
      exact ⟨rfl, rfl⟩
    | frame =>
      cases hops
      exact ⟨rfl, rfl, rfl⟩

/-- Settles O6: the two ports differ in the opcodes they accept and in nothing else. -/
theorem controlPortAcceptsParameterAccess : Obligations.ControlPortAcceptsParameterAccess := by
  unfold Obligations.ControlPortAcceptsParameterAccess
  intro cmd d0 d1 i
  constructor
  · intro h
    have haudio := decode_eq_audio d0 d1 (checks_of_decode_ok h).2
    exact ⟨haudio ▸ h, decode_control_cases h⟩
  · rintro ⟨h, hi⟩
    obtain ⟨hw, rfl, hops, -⟩ := decode_eq_ok_iff.mp h
    exact decode_eq_ok_iff.mpr ⟨hw, rfl, hops, portAccepts_control_encode hi⟩

/-- Settles O1: each word is the encoder's for its command. -/
theorem writtenWordsDecode : Obligations.WrittenWordsDecode := by
  unfold Obligations.WrittenWordsDecode
  intro d0 d1
  simp only [decode_eq_ok_iff]
  refine ⟨?_, ?_, ?_, ?_, ?_, ?_, ?_, ?_, ?_⟩ <;> exact ⟨rfl, rfl, rfl, rfl⟩

/-- Settles O7: the agent named next takes the first command of its port. -/
theorem stepRunsDecodedInstruction : Obligations.StepRunsDecodedInstruction := by
  unfold Obligations.StepRunsDecodedInstruction
  intro s rest w ws i
  constructor
  · intro hs hb hw hi
    have htake : step s = takeCommand exec .audio { s with sched := rest } := by
      simp [step, stepWith, hs, agentStep, hb]
    rw [htake]
    exact takeCommand_of_waiting (p := .audio) hw hi
  · intro hs hw hi
    have htake : step s = takeCommand exec .control { s with sched := rest } := by
      simp [step, stepWith, hs, agentStep]
    rw [htake]
    exact takeCommand_of_waiting (p := .control) hw hi

end Sys2Proof
end

section
/-! Exact values (R100, R101): a sign and a number of quanta, the numbers that have a pattern, and the rounding of a signed quotient. -/

namespace Sys2Proof.F64

/-! ## A number from its sign and its magnitude -/

/-- The integer of the given sign and magnitude. -/
def signed (neg : Bool) (n : Nat) : Int := if neg then -(n : Int) else n

theorem toInt_eq_signed (x : Num64) : toInt x = signed (signBit x) (quanta x) := rfl

theorem key_eq_signed (x : Num64) : key x = signed (signBit x) (magBits x) := rfl

@[simp] theorem signed_false (n : Nat) : signed false n = n := rfl

@[simp] theorem signed_true (n : Nat) : signed true n = -(n : Int) := rfl

@[simp] theorem signed_zero (s : Bool) : signed s 0 = 0 := by cases s <;> rfl

theorem abs_signed (s : Bool) (n : Nat) : |signed s n| = n := by cases s <;> simp

theorem signed_mul (s t : Bool) (m n : Nat) : signed s m * signed t n = signed (s != t) (m * n) := by
  cases s <;> cases t <;> simp

theorem signed_mul_natCast (s : Bool) (m n : Nat) : signed s m * n = signed s (m * n) := by
  simpa using signed_mul s false m n

/-- An integer is its sign and its absolute value. -/
theorem signed_natAbs (i : Int) : signed (decide (i < 0)) i.natAbs = i := by
  by_cases h : i < 0
  · rw [decide_eq_true h, signed_true]; omega
  · rw [decide_eq_false h, signed_false]; omega

/-- Two magnitudes read through the same increasing function keep the order of their signed values. -/
theorem signed_lt_iff {f : Nat → Nat} (hf : StrictMono f) (h0 : f 0 = 0) (s t : Bool) (m n : Nat) :
    signed s (f m) < signed t (f n) ↔ signed s m < signed t n := by
  have hmn := hf.lt_iff_lt (a := m) (b := n)
  have hnm := hf.lt_iff_lt (a := n) (b := m)
  have hm := hf.lt_iff_lt (a := 0) (b := m)
  have hn := hf.lt_iff_lt (a := 0) (b := n)
  rw [h0] at hm hn
  cases s <;> cases t <;> simp only [signed_false, signed_true] <;> omega

/-! ## The order of the values that are no NaN (R102) -/

/-- One value is at most another when neither is a NaN and their places are so ordered (R102). -/
theorem le_iff {a b : Num64} : le a b = true ↔ isNaN a = false ∧ isNaN b = false ∧ key a ≤ key b := by
  simp [le, and_assoc]

theorem le_refl_of_not_nan {a : Num64} (h : isNaN a = false) : le a a = true := le_iff.mpr ⟨h, h, Int.le_refl _⟩

theorem le_trans {a b c : Num64} (hab : le a b = true) (hbc : le b c = true) : le a c = true := by
  rw [le_iff] at *
  obtain ⟨ha, -, h1⟩ := hab
  obtain ⟨-, hc, h2⟩ := hbc
  exact ⟨ha, hc, Int.le_trans h1 h2⟩

/-- Negation turns the order around. -/
theorem neg_le_neg {a b : Num64} (h : le a b = true) : le (neg b) (neg a) = true := by
  obtain ⟨ha, hb, hk⟩ := le_iff.mp h
  exact le_iff.mpr ⟨by rwa [isNaN_neg], by rwa [isNaN_neg], by rw [key_neg, key_neg]; exact Int.neg_le_neg hk⟩

/-- Between a value and its negation lie the values of no larger magnitude. -/
theorem magBits_le_of_between {a c : Num64} (hc : signBit c = false) (hlo : le (neg c) a = true) (hhi : le a c = true) :
    magBits a ≤ magBits c := by
  obtain ⟨-, -, hlo⟩ := le_iff.mp hlo
  obtain ⟨-, -, hhi⟩ := le_iff.mp hhi
  rw [key_neg, key_eq_signed, key_eq_signed, hc, signed_false] at hlo
  rw [key_eq_signed, key_eq_signed, hc, signed_false] at hhi
  cases hs : signBit a <;> simp only [hs, signed_false, signed_true] at hlo hhi <;> omega

/-- The order of the patterns is the order of the exact values (R102). -/
theorem key_lt_key_iff (a b : Num64) : key a < key b ↔ toInt a < toInt b :=
  (signed_lt_iff (quantaOf_strictMono 52) (by decide) _ _ _ _).symm

/-- Finite values compare as their exact values do (R102). -/
theorem lt_iff_toInt_lt {a b : Num64} (ha : isFinite a = true) (hb : isFinite b = true) :
    lt a b = true ↔ toInt a < toInt b := by
  simp [lt, not_nan_of_finite ha, not_nan_of_finite hb, key_lt_key_iff]

/-- Finite values compare as their exact values do (R102). -/
theorem le_iff_toInt_le {a b : Num64} (ha : isFinite a = true) (hb : isFinite b = true) :
    le a b = true ↔ toInt a ≤ toInt b := by
  simp only [le_iff, not_nan_of_finite ha, not_nan_of_finite hb, ← not_lt, key_lt_key_iff, true_and]

@[simp] theorem toInt_zero : toInt 0#64 = 0 := by decide

/-! ## The numbers that have a pattern -/

/-- Up to the first binade, the pattern is the number of quanta. -/
theorem quantaOf_of_le {frac n : Nat} (hn : n ≤ 2 ^ (frac + 1)) : quantaOf frac n = n := by
  cases n with
  | zero => simp [quantaOf]
  | succ m => simpa using quantaOf_succ frac 0 m hn (.inl rfl)

/-- Twice a number that has a pattern has one. -/
theorem exists_quantaOf_double (frac mag : Nat) : ∃ mag', quantaOf frac mag' = quantaOf frac mag * 2 := by
  obtain ⟨e, m, rfl, hm, he⟩ := pattern_split frac mag
  rw [quantaOf_split frac e m hm he]
  by_cases hbig : 2 ^ frac ≤ m
  · exact ⟨(e + 1) * 2 ^ frac + m, by rw [quantaOf_split frac (e + 1) m hm (.inr hbig), Nat.pow_succ, Nat.mul_assoc]⟩
  · obtain rfl : e = 0 := he.resolve_right hbig
    refine ⟨m * 2, ?_⟩
    rw [quantaOf_of_le (by rw [Nat.pow_succ]; omega), Nat.pow_zero, Nat.mul_one]

/-- An integer of at most `frac + 1` bits, or the next power of two, has a pattern at every scale. -/
theorem exists_quantaOf {frac n : Nat} (hn : n ≤ 2 ^ (frac + 1)) (j : Nat) : ∃ mag, quantaOf frac mag = n * 2 ^ j := by
  induction j with
  | zero => exact ⟨n, by rw [quantaOf_of_le hn, Nat.pow_zero, Nat.mul_one]⟩
  | succ j ih =>
    obtain ⟨mag, hmag⟩ := ih
    obtain ⟨mag', hmag'⟩ := exists_quantaOf_double frac mag
    exact ⟨mag', by rw [hmag', hmag, Nat.pow_succ, Nat.mul_assoc]⟩

/-- The quanta of any pattern are an integer of at most `frac + 1` bits at some scale. -/
theorem quantaOf_eq_mul_two_pow (frac mag : Nat) : ∃ e m, quantaOf frac mag = m * 2 ^ e ∧ m < 2 ^ (frac + 1) := by
  obtain ⟨e, m, rfl, hm, he⟩ := pattern_split frac mag
  exact ⟨e, m, quantaOf_split frac e m hm he, hm⟩

/-- A remainder of two numbers that have patterns has one: it is a remainder at the scale of the divisor (R105). -/
theorem exists_quantaOf_mod (frac : Nat) {a b : Nat} (hb0 : 0 < b) (hba : b ≤ a) :
    ∃ mag, quantaOf frac mag = quantaOf frac a % quantaOf frac b := by
  obtain ⟨eb, mb, hb, hmb, heb⟩ := pattern_split frac b
  obtain ⟨ea, ma, ha, hma, hea⟩ := pattern_split frac a
  rw [ha, hb, quantaOf_split frac ea ma hma hea, quantaOf_split frac eb mb hmb heb]
  have hp : 0 < 2 ^ frac := Nat.two_pow_pos frac
  have h2 : 2 ^ (frac + 1) = 2 * 2 ^ frac := by rw [Nat.pow_succ]; omega
  have hpos : 0 < mb := by
    by_contra h0
    obtain rfl : eb = 0 := by omega
    omega
  have hscale : eb ≤ ea := by
    by_contra hlt
    have hnext : (ea + 1) * 2 ^ frac ≤ eb * 2 ^ frac := Nat.mul_le_mul_right _ (by omega)
    rw [Nat.add_mul] at hnext
    omega
  obtain ⟨d, rfl⟩ := Nat.exists_eq_add_of_le hscale
  have hmod : ma * 2 ^ (eb + d) % (mb * 2 ^ eb) = ma * 2 ^ d % mb * 2 ^ eb := by
    rw [Nat.pow_add, Nat.mul_comm (2 ^ eb), ← Nat.mul_assoc, Nat.mul_mod_mul_right]
  rw [hmod]
  exact exists_quantaOf (Nat.le_of_lt (Nat.lt_trans (Nat.mod_lt _ hpos) hmb)) eb

theorem mul_two_pow_lt {n k j l : Nat} (hn : n ≤ 2 ^ k) (hkj : k + j < l) : n * 2 ^ j < 2 ^ l :=
  calc n * 2 ^ j ≤ 2 ^ k * 2 ^ j := Nat.mul_le_mul_right _ hn
    _ = 2 ^ (k + j) := (Nat.pow_add 2 k j).symm
    _ < 2 ^ l := Nat.pow_lt_pow_right (by decide) hkj

/-- A binary64 number below the range's end is its own rounding: finite and exact (R105, R117, R120). -/
theorem ofRatio_exact (s : Bool) {mag n q : Nat} (hq : 0 < q) (hn : quantaOf 52 mag = n) (hlt : n < 2 ^ 2098) :
    isFinite (ofRatio s (n * q) q) = true ∧ quanta (ofRatio s (n * q) q) = n := by
  have hinf : quantaOf 52 infMag = 2 ^ 2098 := by decide +kernel
  have hmag : mag < infMag := by
    rw [← (quantaOf_strictMono 52).lt_iff_lt, hinf, hn]
    exact hlt
  subst hn
  have hbits : magBits (ofRatio s (quantaOf 52 mag * q) q) = mag := by
    rw [magBits_ofRatio, roundMag_exact 52 mag q hq, Nat.min_eq_left (Nat.le_of_lt hmag)]
  exact ⟨by simp only [isFinite, hbits, hmag, decide_true], by rw [quanta, hbits]⟩

/-! ## The rounding of a quotient (R101) -/

/-- The rounding goes above a pattern exactly when the exact value is past the middle between it and the next one, or at the middle
and the pattern is odd. -/
theorem lt_roundMag_iff {frac p q : Nat} (hf : 0 < frac) (hq : 0 < q) (k : Nat) :
    k < roundMag frac p q ↔
      (quantaOf frac k + quantaOf frac (k + 1)) * q < 2 * p ∨
        ((quantaOf frac k + quantaOf frac (k + 1)) * q = 2 * p ∧ k % 2 = 1) := by
  obtain ⟨e, m, hm, he, hlo, hhi, hr⟩ := roundMag_spec frac p q hq
  have hl := quantaOf_split frac e m hm he
  have hu := quantaOf_succ frac e m hm he
  have hmono := (quantaOf_strictMono frac).monotone
  have hkk : quantaOf frac k < quantaOf frac (k + 1) := quantaOf_strictMono frac (Nat.lt_succ_self k)
  rcases Nat.lt_trichotomy k (e * 2 ^ frac + m) with hlt | rfl | hgt
  · have hk1 : quantaOf frac (k + 1) ≤ m * 2 ^ e := hl ▸ hmono hlt
    have hmid : (quantaOf frac k + quantaOf frac (k + 1)) * q < 2 * (m * 2 ^ e) * q :=
      Nat.mul_lt_mul_of_pos_right (by omega) hq
    rw [Nat.mul_assoc] at hmid
    exact iff_of_true (by omega) (.inl (by omega))
  · have hpar : (e * 2 ^ frac + m) % 2 = m % 2 := by
      obtain ⟨f, rfl⟩ := Nat.exists_eq_succ_of_ne_zero (Nat.ne_of_gt hf)
      rw [Nat.pow_succ, ← Nat.mul_assoc]
      omega
    have hmid : (2 * m + 1) * 2 ^ e = m * 2 ^ e + (m + 1) * 2 ^ e := by ring
    rw [hl, hu, ← hmid, hpar]
    omega
  · have hk0 : (m + 1) * 2 ^ e ≤ quantaOf frac k := hu ▸ hmono hgt
    have hmid : 2 * ((m + 1) * 2 ^ e) * q < (quantaOf frac k + quantaOf frac (k + 1)) * q :=
      Nat.mul_lt_mul_of_pos_right (by omega) hq
    rw [Nat.mul_assoc] at hmid
    exact iff_of_false (by omega) (by omega)

/-- Where another representable value is as near as the rounding, the rounding is even. -/
theorem roundMag_even_of_tie {frac p q z : Nat} (hf : 0 < frac) (hq : 0 < q) (hz : z ≠ roundMag frac p q)
    (htie : |((quantaOf frac (roundMag frac p q) * q : Nat) : Int) - p| = |((quantaOf frac z * q : Nat) : Int) - p|) :
    roundMag frac p q % 2 = 0 := by
  generalize hr : roundMag frac p q = r at *
  have hmono : StrictMono (fun k => quantaOf frac k * q) := fun _ _ h =>
    Nat.mul_lt_mul_of_pos_right (quantaOf_strictMono frac h) hq
  have hmid := fun k => hr ▸ lt_roundMag_iff (p := p) hf hq k
  simp only [Nat.add_mul] at hmid
  rcases Nat.lt_or_gt_of_ne hz with hlt | hgt
  · -- from below: the middle under `r` is at most the exact value
    obtain ⟨k, rfl⟩ : ∃ k, r = k + 1 := Nat.exists_eq_succ_of_ne_zero (by omega)
    have hzk : quantaOf frac z * q ≤ quantaOf frac k * q := hmono.monotone (by omega)
    have hkr : quantaOf frac k * q < quantaOf frac (k + 1) * q := hmono (Nat.lt_succ_self k)
    have := (hmid k).mp (Nat.lt_succ_self k)
    rcases abs_eq_abs.mp htie with h | h <;> omega
  · -- from above: the middle over `r` is at least the exact value
    have hzr : quantaOf frac (r + 1) * q ≤ quantaOf frac z * q := hmono.monotone hgt
    have hrr : quantaOf frac r * q < quantaOf frac (r + 1) * q := hmono (Nat.lt_succ_self r)
    have := mt (hmid r).mpr (Nat.lt_irrefl r)
    rcases abs_eq_abs.mp htie with h | h <;> omega

/-- A value of the other sign, not zero, is farther from the exact value than zero is. -/
theorem abs_sub_lt_of_other_sign (s : Bool) {n : Nat} (hn : 0 < n) (p : Nat) :
    |((0 : Nat) : Int) - p| < |signed (!s) n - signed s p| := by
  have h0 : |((0 : Nat) : Int) - p| = p := by simp
  rw [h0, lt_abs]
  cases s <;> simp only [Bool.not_false, Bool.not_true, signed_false, signed_true] <;> omega

/-- With a sign, too: no representable value of either sign is nearer the exact one, and where another is equally near the
rounding is even (R101). -/
theorem signed_roundMag_nearest {frac p q : Nat} (hf : 0 < frac) (hq : 0 < q) (s t : Bool) (z : Nat) :
    |signed s (quantaOf frac (roundMag frac p q) * q) - signed s p| ≤ |signed t (quantaOf frac z * q) - signed s p| ∧
    (|signed s (quantaOf frac (roundMag frac p q) * q) - signed s p| = |signed t (quantaOf frac z * q) - signed s p| →
      signed t (quantaOf frac z) ≠ signed s (quantaOf frac (roundMag frac p q)) → roundMag frac p q % 2 = 0) := by
  have hsame : ∀ n : Nat, |signed s n - signed s p| = |(n : Int) - p| := by
    intro n
    cases s
    · rfl
    · rw [signed_true, signed_true, ← abs_neg]
      congr 1
      omega
  by_cases hsgn : signed t (quantaOf frac z) = signed s (quantaOf frac z)
  · rw [← signed_mul_natCast t, hsgn, signed_mul_natCast, hsame, hsame]
    exact ⟨roundMag_nearest frac p q z hq, fun htie hne => roundMag_even_of_tie hf hq (fun h => hne (by rw [h])) htie⟩
  · obtain rfl : t = !s := Bool.eq_not.mpr fun h => hsgn (by rw [h])
    have hz : 0 < quantaOf frac z := Nat.pos_of_ne_zero fun h => hsgn (by simp [h])
    have hzero := roundMag_nearest frac p q 0 hq
    rw [show quantaOf frac 0 * q = 0 by simp [quantaOf]] at hzero
    have hfar := lt_of_le_of_lt hzero (abs_sub_lt_of_other_sign s (Nat.mul_pos hz hq) p)
    rw [hsame]
    exact ⟨le_of_lt hfar, fun htie => absurd htie (ne_of_lt hfar)⟩

end Sys2Proof.F64
end

section
/-! The operators of R101 on finite operands, each the one rounding of its exact result: nearest, ties to even. -/

namespace Sys2Proof.F64

/-- What the rounding of an exact result to binary64 is, when finite: no finite value is nearer, and where another is equally near its
last bit is 0 (R101). -/
def IsRounded (r : Num64) (exact scale : Int) : Prop :=
  isFinite r = true → ∀ z : Num64, isFinite z = true →
    |toInt r * scale - exact| ≤ |toInt z * scale - exact| ∧
    (|toInt r * scale - exact| = |toInt z * scale - exact| → toInt z ≠ toInt r → r.getLsbD 0 = false)

/-- The last bit of a value is the last bit of its magnitude. -/
theorem getLsbD_zero_of_even {x : Num64} (h : magBits x % 2 = 0) : x.getLsbD 0 = false := by
  unfold magBits at h
  rw [BitVec.getLsbD, Nat.testBit_zero, decide_eq_false_iff_not]
  omega

/-- The exact result and the scale may both be negated. -/
theorem IsRounded.neg {r : Num64} {exact scale : Int} (h : IsRounded r exact scale) : IsRounded r (-exact) (-scale) := by
  have hneg : ∀ y : Num64, |toInt y * -scale - -exact| = |toInt y * scale - exact| := by
    intro y
    rw [← abs_neg]
    congr 1
    ring
  intro hr z hz
  rw [hneg, hneg]
  exact h hr z hz

/-- The rounding of a signed quotient of quanta. -/
theorem isRounded_ofRatio (s : Bool) (p : Nat) {q : Nat} (hq : 0 < q) : IsRounded (ofRatio s p q) (signed s p) q := by
  intro hr z _
  have hmag : magBits (ofRatio s p q) = roundMag 52 p q := by
    simp only [isFinite, magBits_ofRatio, decide_eq_true_eq] at hr ⊢
    omega
  have hquanta : quanta (ofRatio s p q) = quantaOf 52 (roundMag 52 p q) := by rw [quanta, hmag]
  rw [toInt_eq_signed (ofRatio s p q), toInt_eq_signed z, signBit_ofRatio, hquanta, signed_mul_natCast, signed_mul_natCast]
  obtain ⟨hnear, htie⟩ := signed_roundMag_nearest (p := p) (by decide : 0 < 52) hq s (signBit z) (magBits z)
  exact ⟨hnear, fun heq hne => getLsbD_zero_of_even (hmag ▸ htie heq hne)⟩

/-- A negative divisor is the scale with its sign turned. -/
theorem isRounded_ofRatio_signed (s t : Bool) (p : Nat) {q : Nat} (hq : 0 < q) :
    IsRounded (ofRatio (s != t) p q) (signed s p) (signed t q) := by
  cases t
  · simpa using isRounded_ofRatio s p hq
  · have hflip : signed s p = -signed (!s) p := by cases s <;> simp
    rw [Bool.bne_true, hflip, signed_true]
    exact (isRounded_ofRatio (!s) p hq).neg

/-- A zero is its own rounding. -/
theorem isRounded_pack_zero (s : Bool) : IsRounded (pack s 0) 0 1 := by
  have h : pack s 0 = ofRatio s 0 1 := by
    have hr : roundMag 52 0 1 = 0 := by decide
    rw [ofRatio, hr, Nat.zero_min]
  rw [h]
  simpa using isRounded_ofRatio s 0 one_pos

/-- A sum that is exactly zero is a zero; any other is rounded (R101, R109). -/
theorem isRounded_addFinite (a b : Num64) : IsRounded (addFinite a b) (toInt a + toInt b) 1 := by
  simp only [addFinite]
  split
  case isTrue h =>
    rw [h]
    exact isRounded_pack_zero _
  case isFalse =>
    have := isRounded_ofRatio (decide (toInt a + toInt b < 0)) (toInt a + toInt b).natAbs one_pos
    rwa [signed_natAbs] at this

/-- On finite operands both sums are the rounded sum (R101). -/
theorem addAs_finite (op : ArithOp) {a b : Num64} (ha : isFinite a = true) (hb : isFinite b = true) :
    addAs op a b = addFinite a b := by
  simp [addAs, not_nan_of_finite ha, not_nan_of_finite hb]

theorem isRounded_add {a b : Num64} (ha : isFinite a = true) (hb : isFinite b = true) :
    IsRounded (add a b) (toInt a + toInt b) 1 := by
  rw [add, addAs_finite _ ha hb]
  exact isRounded_addFinite a b

/-- A difference is the sum with the negated operand. -/
theorem isRounded_sub {a b : Num64} (ha : isFinite a = true) (hb : isFinite b = true) :
    IsRounded (sub a b) (toInt a - toInt b) 1 := by
  rw [sub, addAs_finite _ ha (by rwa [isFinite_neg]), Int.sub_eq_add_neg, ← toInt_neg]
  exact isRounded_addFinite a (neg b)

theorem one1074_cast : ((one1074 : Nat) : Int) = 2 ^ 1074 := Nat.cast_pow 2 1074

/-- A product has the sign of the signs and the magnitude of the magnitudes. -/
theorem isRounded_mul {a b : Num64} (ha : isFinite a = true) (hb : isFinite b = true) :
    IsRounded (mul a b) (toInt a * toInt b) (2 ^ 1074) := by
  rw [mul_finite ha hb, toInt_eq_signed a, toInt_eq_signed b, signed_mul, ← one1074_cast]
  exact isRounded_ofRatio _ _ one1074_pos

/-- A quotient by a nonzero value is the quotient of the magnitudes, with the sign of the signs. -/
theorem isRounded_div {a b : Num64} (ha : isFinite a = true) (hb : isFinite b = true) (hb0 : toInt b ≠ 0) :
    IsRounded (div a b) (toInt a * 2 ^ 1074) (toInt b) := by
  have hq : quanta b ≠ 0 := by
    intro h
    rw [toInt_eq_signed, h, signed_zero] at hb0
    exact hb0 rfl
  rw [div_finite ha hb (mt (quanta_eq_zero b).mpr hq)]
  rw [toInt_eq_signed a, toInt_eq_signed b, ← one1074_cast, signed_mul_natCast]
  exact isRounded_ofRatio_signed _ _ _ (Nat.pos_of_ne_zero hq)

end Sys2Proof.F64

namespace Sys2Proof

/-- Settles O45, operation by operation. -/
theorem operationsRoundToNearest : Obligations.OperationsRoundToNearest := by
  unfold Obligations.OperationsRoundToNearest
  intro a b ha hb r exact scale hop
  have hrounded : F64.IsRounded r exact scale := by
    rcases hop with ⟨rfl, rfl, rfl⟩ | ⟨rfl, rfl, rfl⟩ | ⟨rfl, rfl, rfl⟩ | ⟨rfl, hb0, rfl, rfl⟩
    · exact F64.isRounded_add ha hb
    · exact F64.isRounded_sub ha hb
    · exact F64.isRounded_mul ha hb
    · exact F64.isRounded_div ha hb hb0
  exact hrounded

end Sys2Proof
end

section
/-! The exact remainder (R105) and the two conversions of integers (R117). -/

namespace Sys2Proof.F64

/-- A value of at least 0 counts its quanta: it is positive, or a zero of either sign. -/
theorem toInt_eq_quanta {x : Num64} (h : 0 ≤ toInt x) : toInt x = quanta x := by
  rw [toInt_eq_signed] at h ⊢
  cases hs : signBit x
  · rfl
  · rw [hs, signed_true] at h
    rw [signed_true]
    omega

/-- The remainder of the quanta, where the divisor is not above the dividend, is itself a finite value (R105). -/
theorem ofRatio_mod_exact {a b : Num64} (hb : isFinite b = true) (hb0 : 0 < magBits b) (hba : magBits b ≤ magBits a) :
    isFinite (ofRatio false (quanta a % quanta b) 1) = true ∧
      toInt (ofRatio false (quanta a % quanta b) 1) = (quanta a % quanta b : Nat) := by
  obtain ⟨mag, hmag : quantaOf 52 mag = quanta a % quanta b⟩ := exists_quantaOf_mod 52 hb0 hba
  have hpos : 0 < quanta b := Nat.pos_of_ne_zero fun h => Nat.ne_of_gt hb0 ((quanta_eq_zero b).mp h)
  have hlt : quanta a % quanta b < 2 ^ 2098 := Nat.lt_trans (Nat.mod_lt _ hpos) (quanta_lt b hb)
  obtain ⟨hfin, hq⟩ := ofRatio_exact false one_pos hmag hlt
  rw [Nat.mul_one] at hfin hq
  exact ⟨hfin, by rw [toInt_eq_signed, signBit_ofRatio, hq, signed_false]⟩

/-- On the domain of R105 the remainder is finite and exact. -/
theorem fmod_exact {a b : Num64} (ha : isFinite a = true) (hb : isFinite b = true) (ha0 : 0 ≤ toInt a) (hb0 : 0 < toInt b) :
    isFinite (fmod a b) = true ∧ toInt (fmod a b) = toInt a % toInt b := by
  have h0 : isFinite 0#64 = true := by decide
  have hdom : (isFinite a && isFinite b && le 0#64 a && lt 0#64 b) = true := by
    simp only [ha, hb, (le_iff_toInt_le h0 ha).mpr (by simpa using ha0), (lt_iff_toInt_lt h0 hb).mpr (by simpa using hb0),
      Bool.and_self]
  simp only [fmod, not_nan_of_finite ha, not_nan_of_finite hb, Bool.or_self, Bool.false_eq_true, if_false, hdom, if_true]
  have hqa := toInt_eq_quanta ha0
  have hqb := toInt_eq_quanta (Int.le_of_lt hb0)
  split
  case isTrue hlt =>
    exact ⟨ha, (Int.emod_eq_of_lt ha0 ((lt_iff_toInt_lt ha hb).mp hlt)).symm⟩
  case isFalse hge =>
    rw [lt_iff_toInt_lt ha hb, hqa, hqb, Int.ofNat_lt, Nat.not_lt] at hge
    have hmag : magBits b ≤ magBits a := (quantaOf_strictMono 52).le_iff_le.mp hge
    have hmag0 : 0 < magBits b := by
      refine Nat.pos_of_ne_zero fun h => ?_
      rw [hqb, (quanta_eq_zero b).mpr h] at hb0
      exact absurd hb0 (by decide)
    rw [hqa, hqb, ← Int.natCast_emod]
    exact ofRatio_mod_exact hb hmag0 hmag

/-- `num` is exact up to `2^53` (R117). -/
theorem num_exact {i : Int} (hi : i.natAbs ≤ 2 ^ 53) : isFinite (num i) = true ∧ toInt (num i) = i * 2 ^ 1074 := by
  obtain ⟨mag, hmag⟩ := exists_quantaOf (frac := 52) hi 1074
  have hlt : i.natAbs * 2 ^ 1074 < 2 ^ 2098 := mul_two_pow_lt hi (by decide)
  obtain ⟨hfin, hq⟩ := ofRatio_exact (decide (i < 0)) one_pos hmag hlt
  rw [Nat.mul_one] at hfin hq
  refine ⟨hfin, ?_⟩
  calc toInt (num i) = signed (decide (i < 0)) (i.natAbs * 2 ^ 1074) := by
        rw [toInt_eq_signed, num, one1074, signBit_ofRatio, hq]
    _ = i * 2 ^ 1074 := by rw [← signed_mul_natCast, signed_natAbs, Nat.cast_pow, Nat.cast_ofNat]

/-- `ifloor` of a finite value is the largest integer not above it (R117). -/
theorem ifloor_eq_some_iff {a : Num64} (ha : isFinite a = true) (i : Int) :
    ifloor a = some i ↔ i * 2 ^ 1074 ≤ toInt a ∧ toInt a < (i + 1) * 2 ^ 1074 := by
  have hpos : (0 : Int) < one1074 := Int.natCast_pos.mpr one1074_pos
  rw [ifloor, if_pos ha, Option.some.injEq, ← one1074_cast, ← Int.le_ediv_iff_mul_le hpos, ← Int.ediv_lt_iff_lt_mul hpos]
  omega

end Sys2Proof.F64

namespace Sys2Proof

/-- Settles O46: the order and the remainder of the patterns are those of the exact values. -/
theorem fmodIsExact : Obligations.FmodIsExact := by
  unfold Obligations.FmodIsExact
  intro a b ha hb ha0 hb0
  have h0 : F64.isFinite 0#64 = true := by decide
  rw [F64.le_iff_toInt_le h0 ha, F64.toInt_zero] at ha0
  rw [F64.lt_iff_toInt_lt h0 hb, F64.toInt_zero] at hb0
  obtain ⟨hfin, hmod⟩ := F64.fmod_exact ha hb ha0 hb0
  refine ⟨hfin, hmod, ?_, ?_⟩
  · rw [F64.le_iff_toInt_le h0 hfin, F64.toInt_zero, hmod]
    exact Int.emod_nonneg _ (Int.ne_of_gt hb0)
  · rw [F64.lt_iff_toInt_lt hfin hb, hmod]
    exact Int.emod_lt_of_pos _ hb0

/-- Settles O47, conversion by conversion. -/
theorem integerConversions : Obligations.IntegerConversions := by
  unfold Obligations.IntegerConversions
  exact ⟨fun _ i ha => F64.ifloor_eq_some_iff ha i, fun _ hi => F64.num_exact hi⟩

end Sys2Proof
end

section
/-! The binary32 port (R120, R121, R86): the fields of a pattern, what it widens to, and the rounding of a value to it. -/

namespace Sys2Proof.F64

/-! ## Fields of a binary32 pattern -/

/-- The binary32 pattern of the given sign and magnitude pattern. -/
def pack32 (neg : Bool) (m : Nat) : Single := BitVec.ofNat 32 (if neg then m + 0x80000000 else m)

theorem magBits32_pack32 (s : Bool) {m : Nat} (hm : m < 0x80000000) : magBits32 (pack32 s m) = m := by
  unfold magBits32 pack32
  rw [BitVec.toNat_ofNat]
  cases s <;> simp only [Bool.false_eq_true, if_false, if_true] <;> omega

theorem msb_pack32 (s : Bool) {m : Nat} (hm : m < 0x80000000) : (pack32 s m).msb = s := by
  unfold pack32
  rw [BitVec.msb_eq_decide, BitVec.toNat_ofNat]
  cases s <;> simp only [Bool.false_eq_true, if_false, if_true, decide_eq_true_eq, decide_eq_false_iff_not] <;> omega

/-- A pattern is its sign and its magnitude. -/
theorem pack32_fields (w : Single) : pack32 w.msb (magBits32 w) = w := by
  apply BitVec.eq_of_toNat_eq
  have hw := w.isLt
  unfold pack32 magBits32
  rw [BitVec.msb_eq_decide, BitVec.toNat_ofNat]
  by_cases h : 2 ^ (32 - 1) ≤ w.toNat
  · rw [decide_eq_true h, if_pos rfl]; omega
  · rw [decide_eq_false h, if_neg Bool.false_ne_true]; omega

/-- The last bit of a pattern is the last bit of its magnitude. -/
theorem getLsbD_zero_of_even32 {w : Single} (h : magBits32 w % 2 = 0) : w.getLsbD 0 = false := by
  unfold magBits32 at h
  rw [BitVec.getLsbD, Nat.testBit_zero, decide_eq_false_iff_not]
  omega

/-! ## Widening (R120) -/

theorem quantum32_pos : 0 < quantum32 := Nat.two_pow_pos 925

/-- A pattern of an infinity or a NaN does not widen. -/
theorem ofSingle_eq_none {w : Single} (hw : infMag32 ≤ magBits32 w) : ofSingle w = none :=
  if_neg (Nat.not_lt.mpr hw)

/-- A finite pattern widens to the value of its sign and its quanta, exactly: all of them fit binary64. -/
theorem ofSingle_exact {w : Single} (hw : magBits32 w < infMag32) :
    ∃ x, ofSingle w = some x ∧ isFinite x = true ∧ signBit x = w.msb ∧
      quanta x = quantaOf 23 (magBits32 w) * quantum32 := by
  obtain ⟨e, m, hem, hm⟩ := quantaOf_eq_mul_two_pow 23 (magBits32 w)
  obtain ⟨mag, hmag⟩ := exists_quantaOf (frac := 52) (n := m) (by omega) (e + 925)
  have hrep : quantaOf 52 mag = quantaOf 23 (magBits32 w) * quantum32 := by
    rw [hmag, hem, quantum32, Nat.pow_add, Nat.mul_assoc]
  have hend : quantaOf 23 infMag32 = 2 ^ 277 := by decide +kernel
  have hle : quantaOf 23 (magBits32 w) ≤ 2 ^ 277 := hend ▸ (quantaOf_strictMono 23).monotone (Nat.le_of_lt hw)
  have hlt : quantaOf 23 (magBits32 w) * quantum32 < 2 ^ 2098 := by
    unfold quantum32
    exact mul_two_pow_lt hle (by decide)
  obtain ⟨hfin, hq⟩ := ofRatio_exact w.msb one_pos hrep hlt
  rw [Nat.mul_one] at hfin hq
  exact ⟨_, if_pos hw, hfin, signBit_ofRatio _ _ _, hq⟩

/-- Whatever a pattern widens to has the pattern's exact value. -/
theorem toInt_of_ofSingle {w : Single} {x : Num64} (h : ofSingle w = some x) :
    toInt x = signed w.msb (quantaOf 23 (magBits32 w) * quantum32) := by
  by_cases hw : magBits32 w < infMag32
  · obtain ⟨y, hy, -, hs, hq⟩ := ofSingle_exact hw
    obtain rfl : y = x := Option.some.inj (hy.symm.trans h)
    rw [toInt_eq_signed, hs, hq]
  · rw [ofSingle_eq_none (Nat.not_lt.mp hw)] at h
    cases h

/-! ## Rounding (R121) -/

/-- An infinity is not finite. -/
theorem not_finite_of_inf {x : Num64} (h : isInf x = true) : isFinite x = false := by
  simp only [isInf, isFinite, decide_eq_true_eq, decide_eq_false_iff_not] at *
  omega

/-- The magnitude pattern of the rounding to binary32 of a value that is no NaN. -/
def singleMag (x : Num64) : Nat := if isInf x then infMag32 else min (roundMag 23 (quanta x) quantum32) infMag32

theorem toSingle_eq_pack32 {x : Num64} (hx : isNaN x = false) : toSingle x = pack32 (signBit x) (singleMag x) := by
  simp only [toSingle, hx, Bool.false_eq_true, if_false]
  rfl

theorem singleMag_of_finite {x : Num64} (hx : isFinite x = true) :
    singleMag x = min (roundMag 23 (quanta x) quantum32) infMag32 := by
  simp [singleMag, not_nan_of_finite hx]

theorem singleMag_of_inf {x : Num64} (hx : isInf x = true) : singleMag x = infMag32 := if_pos hx

theorem singleMag_le (x : Num64) : singleMag x ≤ infMag32 := by
  unfold singleMag
  split
  · exact Nat.le_refl _
  · exact Nat.min_le_right _ _

theorem singleMag_lt (x : Num64) : singleMag x < 0x80000000 := Nat.lt_of_le_of_lt (singleMag_le x) (by decide)

/-- The rounding keeps the sign. -/
theorem msb_toSingle {x : Num64} (hx : isNaN x = false) : (toSingle x).msb = signBit x := by
  rw [toSingle_eq_pack32 hx, msb_pack32 _ (singleMag_lt x)]

theorem magBits32_toSingle {x : Num64} (hx : isNaN x = false) : magBits32 (toSingle x) = singleMag x := by
  rw [toSingle_eq_pack32 hx, magBits32_pack32 _ (singleMag_lt x)]

/-- Rounding what a finite pattern widened to gives the pattern back. -/
theorem toSingle_of_exact {w : Single} {x : Num64} (hw : magBits32 w < infMag32) (hx : isFinite x = true)
    (hs : signBit x = w.msb) (hq : quanta x = quantaOf 23 (magBits32 w) * quantum32) : toSingle x = w := by
  have hmag : singleMag x = magBits32 w := by
    rw [singleMag_of_finite hx, hq, roundMag_exact 23 _ _ quantum32_pos, Nat.min_eq_left (Nat.le_of_lt hw)]
  rw [toSingle_eq_pack32 (not_nan_of_finite hx).1, hs, hmag, pack32_fields]

/-- The middle above the largest finite pattern, as an integer. -/
theorem overflowMid_cast (k : Nat) : (((2 ^ 25 - 1) * 2 ^ k : Nat) : Int) = (2 ^ 25 - 1) * 2 ^ k := by
  push_cast
  norm_num

/-- A finite value rounds to an infinity from the middle above the largest finite pattern on; a tie there goes up, since that pattern
is odd. -/
theorem singleMag_eq_infMag32_iff {x : Num64} (hx : isFinite x = true) :
    singleMag x = infMag32 ↔ (2 ^ 25 - 1) * 2 ^ 1177 ≤ |toInt x| := by
  have hmid : (quantaOf 23 (infMag32 - 1) + quantaOf 23 (infMag32 - 1 + 1)) * quantum32 =
      2 * ((2 ^ 25 - 1) * 2 ^ 1177) := by decide +kernel
  have hodd : (infMag32 - 1) % 2 = 1 := by decide
  have hround := lt_roundMag_iff (p := quanta x) (by decide : 0 < 23) quantum32_pos (infMag32 - 1)
  rw [hmid] at hround
  have hpred : infMag32 - 1 < roundMag 23 (quanta x) quantum32 ↔ infMag32 ≤ roundMag 23 (quanta x) quantum32 := by
    unfold infMag32
    omega
  rw [toInt_eq_signed, abs_signed, ← overflowMid_cast, Int.ofNat_le, singleMag_of_finite hx, min_eq_right_iff, ← hpred, hround]
  generalize (2 ^ 25 - 1) * 2 ^ 1177 = mid
  omega

/-- A finite value rounds to a zero up to half the smallest subnormal; a tie there goes down, since zero is even. -/
theorem singleMag_eq_zero_iff {x : Num64} (hx : isFinite x = true) : singleMag x = 0 ↔ |toInt x| ≤ 2 ^ 924 := by
  have hmid : (quantaOf 23 0 + quantaOf 23 (0 + 1)) * quantum32 = 2 * 2 ^ 924 := by decide +kernel
  have hcast : ((2 ^ 924 : Nat) : Int) = 2 ^ 924 := Nat.cast_pow 2 924
  have hround := lt_roundMag_iff (p := quanta x) (by decide : 0 < 23) quantum32_pos 0
  rw [hmid] at hround
  rw [toInt_eq_signed, abs_signed, ← hcast, Int.ofNat_le, singleMag_of_finite hx]
  generalize (2 : Nat) ^ 924 = mid at *
  unfold infMag32
  omega

/-- A finite rounding is nearest: no finite pattern's value is nearer, and where another is equally near the last bit is 0. -/
theorem toSingle_nearest {x y : Num64} (hx : isFinite x = true) (hfin : singleMag x < infMag32) (hy : ofSingle (toSingle x) = some y)
    {v : Single} {z : Num64} (hz : ofSingle v = some z) :
    |toInt y - toInt x| ≤ |toInt z - toInt x| ∧
    (|toInt y - toInt x| = |toInt z - toInt x| → toInt z ≠ toInt y → (toSingle x).getLsbD 0 = false) := by
  have hnan := (not_nan_of_finite hx).1
  have hmag : singleMag x = roundMag 23 (quanta x) quantum32 := by
    rw [singleMag_of_finite hx] at hfin ⊢
    omega
  obtain ⟨hnear, htie⟩ :=
    signed_roundMag_nearest (p := quanta x) (by decide : 0 < 23) quantum32_pos (signBit x) v.msb (magBits32 v)
  rw [toInt_of_ofSingle hy, toInt_of_ofSingle hz, toInt_eq_signed x, msb_toSingle hnan, magBits32_toSingle hnan, hmag]
  refine ⟨hnear, fun heq hne => getLsbD_zero_of_even32 ?_⟩
  rw [magBits32_toSingle hnan, hmag]
  refine htie heq fun h => hne ?_
  rw [← signed_mul_natCast, h, signed_mul_natCast]

end Sys2Proof.F64

namespace Sys2Proof

/-- Settles O48: a binary32 pattern has an exact binary64 value, and the rounding keeps exact values. -/
theorem singleRoundTrip : Obligations.SingleRoundTrip := by
  unfold Obligations.SingleRoundTrip
  refine fun w => ⟨fun hw => ?_, F64.ofSingle_eq_none⟩
  obtain ⟨x, hx, hfin, hs, hq⟩ := F64.ofSingle_exact hw
  refine ⟨x, hx, hfin, F64.toSingle_of_exact hw hfin hs hq, ?_⟩
  have hquantum : ((F64.quantum32 : Nat) : Int) = 2 ^ 925 := Nat.cast_pow 2 925
  have hsign : ∀ n : Nat, F64.signed w.msb n = (if w.msb then -1 else 1) * (n : Int) := by
    intro n
    cases w.msb <;> simp
  rw [F64.toInt_of_ofSingle hx, ← F64.signed_mul_natCast, hquantum, hsign]
  rfl

/-- Settles O49: an infinity stays one; a finite value goes by its quanta. -/
theorem singleRoundsToNearest : Obligations.SingleRoundsToNearest := by
  unfold Obligations.SingleRoundsToNearest
  intro x hnan w
  have hmag : w.toNat % 0x80000000 = F64.singleMag x := F64.magBits32_toSingle hnan
  refine ⟨rfl, F64.msb_toSingle hnan, hmag ▸ F64.singleMag_le x, ?_⟩
  rw [hmag]
  rcases F64.finite_or_inf hnan with hx | hx
  · rw [(F64.not_nan_of_finite hx).2, hx]
    refine ⟨?_, ?_, fun hfin => ?_⟩
    · rw [or_iff_right Bool.false_ne_true]
      exact F64.singleMag_eq_infMag32_iff hx
    · rw [and_iff_right rfl]
      exact F64.singleMag_eq_zero_iff hx
    · obtain ⟨y, hy, -⟩ := F64.ofSingle_exact (w := w) (by rwa [F64.magBits32_toSingle hnan])
      exact ⟨y, hy, fun v z hz => F64.toSingle_nearest hx hfin hy hz⟩
  · rw [F64.singleMag_of_inf hx, hx, F64.not_finite_of_inf hx]
    exact ⟨iff_of_true rfl (.inl rfl), iff_of_false (by decide) fun h => Bool.false_ne_true h.1,
      fun h => absurd h (by decide)⟩

end Sys2Proof
end

section
/-! The shaper (R112): its properties S1 to S5, first on the magnitudes. -/

namespace Sys2Proof.Design

variable (raw : Num64 → Num64)

/-- Inside `[-1, 1]` (S4). -/
def InUnit (v : Num64) : Prop := F64.le F64.negOne v = true ∧ F64.le v F64.one = true

theorem InUnit.not_nan {v : Num64} (h : InUnit v) : F64.isNaN v = false := by
  obtain ⟨-, hv, -⟩ := F64.le_iff.mp h.1
  exact hv

theorem InUnit.neg {v : Num64} (h : InUnit v) : InUnit (F64.neg v) := by
  have hone : F64.neg F64.one = F64.negOne := by decide
  have hnegOne : F64.neg F64.negOne = F64.one := by decide
  exact ⟨hone ▸ F64.neg_le_neg h.2, hnegOne ▸ F64.neg_le_neg h.1⟩

theorem inUnit_zero : InUnit F64.zero := ⟨by decide, by decide⟩

theorem inUnit_one : InUnit F64.one := ⟨by decide, by decide⟩

theorem inUnit_unitBall (v : Num64) : InUnit (unitBall v) := by
  have h := orOne_legal (legal := fun v => arithF64.le arithF64.negOne v && arithF64.le v arithF64.one) (by decide) v
  rw [Bool.and_eq_true] at h
  exact h

/-- The later value is the old one, or a new one that is not below it. -/
theorem atLeast_cases (r c : Num64) : atLeast r c = r ∨ (atLeast r c = c ∧ F64.le r c = true) := by
  unfold atLeast
  split
  · exact .inl rfl
  · split
    · next h => exact .inr ⟨rfl, h⟩
    · exact .inl rfl

/-! ## The shaper on magnitudes -/

theorem inUnit_shapeUpTo (n : Nat) : InUnit (shapeUpTo raw n) := by
  induction n with
  | zero => exact inUnit_zero
  | succ n ih =>
    rw [shapeUpTo]
    rcases atLeast_cases (shapeUpTo raw n) (unitBall (raw (BitVec.ofNat 64 (n + 1)))) with h | ⟨h, -⟩
    · rwa [h]
    · rw [h]
      exact inUnit_unitBall _

theorem shapeUpTo_le_succ (n : Nat) : F64.le (shapeUpTo raw n) (shapeUpTo raw (n + 1)) = true := by
  rw [shapeUpTo]
  rcases atLeast_cases (shapeUpTo raw n) (unitBall (raw (BitVec.ofNat 64 (n + 1)))) with h | ⟨h, hle⟩
  · rw [h]
    exact F64.le_refl_of_not_nan (inUnit_shapeUpTo raw n).not_nan
  · rwa [h]

theorem shapeUpTo_mono {m n : Nat} (h : m ≤ n) : F64.le (shapeUpTo raw m) (shapeUpTo raw n) = true := by
  induction n, h using Nat.le_induction with
  | base => exact F64.le_refl_of_not_nan (inUnit_shapeUpTo raw m).not_nan
  | succ n _ ih => exact F64.le_trans ih (shapeUpTo_le_succ raw n)

theorem shapeMag_zero : shapeMag raw 0 = F64.zero := by
  rw [shapeMag, if_neg (by decide), if_pos (by decide), shapeUpTo]

theorem shapeMag_halfPi : shapeMag raw (F64.magBits F64.halfPi) = F64.one := if_pos rfl

theorem shapeMag_below {m : Nat} (h : m < F64.magBits F64.halfPi) : shapeMag raw m = shapeUpTo raw m := by
  rw [shapeMag, if_neg (Nat.ne_of_lt h), if_pos h]

/-- S4 on the magnitudes, in the three pieces of the definition. -/
theorem inUnit_shapeMag {m : Nat} (h : m < F64.infMag) : InUnit (shapeMag raw m) := by
  unfold shapeMag
  split
  · exact inUnit_one
  · split
    · exact inUnit_shapeUpTo raw m
    · exact inUnit_unitBall _

/-- S5 on the magnitudes: below `HALF_PI` by the sequence, at it since nothing exceeds 1. -/
theorem shapeMag_mono {m n : Nat} (hmn : m ≤ n) (hn : n ≤ F64.magBits F64.halfPi) :
    F64.le (shapeMag raw m) (shapeMag raw n) = true := by
  rcases Nat.lt_or_eq_of_le hn with hlt | rfl
  · rw [shapeMag_below raw (Nat.lt_of_le_of_lt hmn hlt), shapeMag_below raw hlt]
    exact shapeUpTo_mono raw hmn
  · rw [shapeMag_halfPi]
    exact (inUnit_shapeMag raw (Nat.lt_of_le_of_lt hmn (by decide))).2

theorem shapeMag_nonneg {m : Nat} (hm : m ≤ F64.magBits F64.halfPi) : F64.le F64.zero (shapeMag raw m) = true := by
  rw [← shapeMag_zero raw]
  exact shapeMag_mono raw (Nat.zero_le m) hm

/-! ## The shaper -/

theorem shape_of_pos {x : Num64} (h : F64.signBit x = false) : shape raw x = shapeMag raw (F64.magBits x) := by
  simp [shape, h]

theorem shape_of_neg {x : Num64} (h : F64.signBit x = true) : shape raw x = F64.neg (shapeMag raw (F64.magBits x)) := by
  simp [shape, h]

/-- S2, by the sign of the argument. -/
theorem shape_neg (x : Num64) : shape raw (F64.neg x) = F64.neg (shape raw x) := by
  cases h : F64.signBit x
  · rw [shape_of_neg raw (x := F64.neg x) (by simp [h]), shape_of_pos raw h, F64.magBits_neg]
  · rw [shape_of_pos raw (x := F64.neg x) (by simp [h]), shape_of_neg raw h, F64.magBits_neg, F64.neg_neg]

/-- S4. -/
theorem inUnit_shape {x : Num64} (h : F64.isFinite x = true) : InUnit (shape raw x) := by
  have hmag : InUnit (shapeMag raw (F64.magBits x)) := inUnit_shapeMag raw (of_decide_eq_true h)
  cases hs : F64.signBit x
  · rwa [shape_of_pos raw hs]
  · rw [shape_of_neg raw hs]
    exact hmag.neg

/-- S5, by the signs of the arguments: negative ones are mirrored, and a positive one comes before a negative one only when both are
zeros. -/
theorem shape_mono {a b : Num64} (hlo : F64.le (F64.neg F64.halfPi) a = true) (hab : F64.le a b = true)
    (hhi : F64.le b F64.halfPi = true) : F64.le (shape raw a) (shape raw b) = true := by
  have hpos : F64.signBit F64.halfPi = false := by decide
  have ha : F64.magBits a ≤ F64.magBits F64.halfPi := F64.magBits_le_of_between hpos hlo (F64.le_trans hab hhi)
  have hb : F64.magBits b ≤ F64.magBits F64.halfPi := F64.magBits_le_of_between hpos (F64.le_trans hlo hab) hhi
  have hzero : F64.le (F64.neg F64.zero) F64.zero = true := by decide
  obtain ⟨-, -, hkey⟩ := F64.le_iff.mp hab
  rw [F64.key_eq_signed, F64.key_eq_signed] at hkey
  cases hsa : F64.signBit a <;> cases hsb : F64.signBit b <;>
    simp only [hsa, hsb, F64.signed_false, F64.signed_true] at hkey
  case false.false =>
    rw [shape_of_pos raw hsa, shape_of_pos raw hsb]
    exact shapeMag_mono raw (by omega) hb
  case false.true =>
    have ha0 : F64.magBits a = 0 := by omega
    have hb0 : F64.magBits b = 0 := by omega
    rw [shape_of_pos raw hsa, shape_of_neg raw hsb, ha0, hb0, shapeMag_zero]
    decide
  case true.false =>
    rw [shape_of_neg raw hsa, shape_of_pos raw hsb]
    exact F64.le_trans (F64.neg_le_neg (shapeMag_nonneg raw ha)) (F64.le_trans hzero (shapeMag_nonneg raw hb))
  case true.true =>
    rw [shape_of_neg raw hsa, shape_of_neg raw hsb]
    exact F64.neg_le_neg (shapeMag_mono raw (by omega) ha)

end Sys2Proof.Design

namespace Sys2Proof

/-- Settles O22, property by property. -/
theorem shapeFunctionLaws : Obligations.ShapeFunctionLaws := by
  unfold Obligations.ShapeFunctionLaws
  have hzero : F64.signBit F64.zero = false := by decide
  have hhalfPi : F64.signBit F64.halfPi = false := by decide
  exact
    { zero := (Design.shape_of_pos Config.rawShapeFn hzero).trans (Design.shapeMag_zero _)
      odd := Design.shape_neg Config.rawShapeFn
      halfPi := (Design.shape_of_pos Config.rawShapeFn hhalfPi).trans (Design.shapeMag_halfPi _)
      bounded := fun _ ha => Design.inUnit_shape Config.rawShapeFn ha
      monotone := fun _ _ hlo hab hhi => Design.shape_mono Config.rawShapeFn hlo hab hhi }

end Sys2Proof
end

section
/-! The waveform unit in the reference arithmetic (R130 to R142): each shape in its two segments, the bound of every shape and of
the morph (P4), and the fully morphed symmetric triangle (P3). -/

namespace Sys2Proof.Machine

/-! ## The domain and the breakpoint -/

section Segments

variable {phase duty : ℝ}

/-- The domain of R130, in the reference arithmetic. -/
theorem waveDomain_arithReal :
    waveDomain arithReal phase duty = true ↔ 0 ≤ phase ∧ phase < 2 * Real.pi ∧ 0 ≤ duty ∧ duty ≤ 1 := by
  simp [waveDomain, and_assoc]

/-- The breakpoint lies in one period (R141). -/
theorem breakpoint_mem_period (h : waveDomain arithReal phase duty = true) :
    0 ≤ breakpoint arithReal duty ∧ breakpoint arithReal duty ≤ 2 * Real.pi := by
  obtain ⟨-, -, hd0, hd1⟩ := waveDomain_arithReal.mp h
  exact ⟨mul_nonneg Real.two_pi_pos.le hd0, mul_le_of_le_one_right Real.two_pi_pos.le hd1⟩

theorem breakpoint_half : breakpoint arithReal (1 / 2) = Real.pi := by
  simp only [breakpoint, arithReal_mul, arithReal_twoPi]
  ring

/-- A quotient evaluated where its divisor is positive is bounded by what the dividend is a multiple of. -/
theorem divReal_bounds {a b c : ℝ} (hb : 0 < b) (ha : 0 ≤ a) (hac : a ≤ c * b) : 0 ≤ divReal a b ∧ divReal a b ≤ c := by
  rw [divReal_of_ne a hb.ne']
  exact ⟨div_nonneg ha hb.le, (div_le_iff₀ hb).mpr hac⟩

/-! ## The two segments of each shape -/

theorem waveTri_rising (hb : phase < breakpoint arithReal duty) :
    waveTri arithReal phase duty = -1 + divReal (2 * phase) (breakpoint arithReal duty) := by
  simp [waveTri, hb]

theorem waveTri_falling (hb : breakpoint arithReal duty ≤ phase) :
    waveTri arithReal phase duty =
      1 - divReal (2 * (phase - breakpoint arithReal duty)) (2 * Real.pi - breakpoint arithReal duty) := by
  simp [waveTri, hb.not_gt]

theorem waveSaw_before (hb : phase < breakpoint arithReal duty) :
    waveSaw arithReal phase duty = -1 + divReal phase (breakpoint arithReal duty) := by
  simp [waveSaw, hb]

theorem waveSaw_after (hb : breakpoint arithReal duty ≤ phase) :
    waveSaw arithReal phase duty =
      divReal (phase - breakpoint arithReal duty) (2 * Real.pi - breakpoint arithReal duty) := by
  simp [waveSaw, hb.not_gt]

theorem waveMsaw_before (hb : phase < 2 * Real.pi - breakpoint arithReal duty) :
    waveMsaw arithReal phase duty = 1 - divReal phase (2 * Real.pi - breakpoint arithReal duty) := by
  simp [waveMsaw, hb]

theorem waveMsaw_after (hb : 2 * Real.pi - breakpoint arithReal duty ≤ phase) :
    waveMsaw arithReal phase duty =
      -divReal (phase - (2 * Real.pi - breakpoint arithReal duty)) (breakpoint arithReal duty) := by
  simp [waveMsaw, hb.not_gt]

theorem waveCtri_arithReal : waveCtri arithReal phase duty = 1 - 2 * |waveMsaw arithReal phase duty| := by
  simp [waveCtri]

theorem lfoMorph_arithReal (cfg : Cfg ℝ) (tri s : ℝ) :
    lfoMorph arithReal cfg tri s = cfg.shapeFn (Real.pi / 2 * tri) * s + tri * (1 - s) := by
  simp [lfoMorph, waveShaper]

/-! ## The bounds -/

/-- The branch taken makes the divisor positive (R132). -/
theorem abs_waveTri_le_one (h : waveDomain arithReal phase duty = true) : |waveTri arithReal phase duty| ≤ 1 := by
  obtain ⟨hp0, hp1, -, -⟩ := waveDomain_arithReal.mp h
  rw [abs_le]
  rcases lt_or_ge phase (breakpoint arithReal duty) with hb | hb
  · obtain ⟨hlo, hhi⟩ := divReal_bounds (a := 2 * phase) (c := 2) (hp0.trans_lt hb) (by linarith) (by linarith)
    rw [waveTri_rising hb]
    constructor <;> linarith
  · obtain ⟨hlo, hhi⟩ := divReal_bounds (a := 2 * (phase - breakpoint arithReal duty))
      (b := 2 * Real.pi - breakpoint arithReal duty) (c := 2) (by linarith) (by linarith) (by linarith)
    rw [waveTri_falling hb]
    constructor <;> linarith

theorem abs_waveSaw_le_one (h : waveDomain arithReal phase duty = true) : |waveSaw arithReal phase duty| ≤ 1 := by
  obtain ⟨hp0, hp1, -, -⟩ := waveDomain_arithReal.mp h
  rw [abs_le]
  rcases lt_or_ge phase (breakpoint arithReal duty) with hb | hb
  · obtain ⟨hlo, hhi⟩ := divReal_bounds (c := 1) (hp0.trans_lt hb) hp0 (by linarith)
    rw [waveSaw_before hb]
    constructor <;> linarith
  · obtain ⟨hlo, hhi⟩ := divReal_bounds (a := phase - breakpoint arithReal duty)
      (b := 2 * Real.pi - breakpoint arithReal duty) (c := 1) (by linarith) (by linarith) (by linarith)
    rw [waveSaw_after hb]
    constructor <;> linarith

/-- In the second segment `bm <= phase < TWO_PI` makes the breakpoint positive (R135). -/
theorem abs_waveMsaw_le_one (h : waveDomain arithReal phase duty = true) : |waveMsaw arithReal phase duty| ≤ 1 := by
  obtain ⟨hp0, hp1, -, -⟩ := waveDomain_arithReal.mp h
  rw [abs_le]
  rcases lt_or_ge phase (2 * Real.pi - breakpoint arithReal duty) with hb | hb
  · obtain ⟨hlo, hhi⟩ := divReal_bounds (c := 1) (hp0.trans_lt hb) hp0 (by linarith)
    rw [waveMsaw_before hb]
    constructor <;> linarith
  · obtain ⟨hlo, hhi⟩ := divReal_bounds (a := phase - (2 * Real.pi - breakpoint arithReal duty))
      (b := breakpoint arithReal duty) (c := 1) (by linarith) (by linarith) (by linarith)
    rw [waveMsaw_after hb]
    constructor <;> linarith

theorem abs_waveCtri_le_one (h : waveDomain arithReal phase duty = true) : |waveCtri arithReal phase duty| ≤ 1 := by
  have hle := abs_waveMsaw_le_one h
  have hnonneg := abs_nonneg (waveMsaw arithReal phase duty)
  rw [waveCtri_arithReal, abs_le]
  constructor <;> linarith

theorem abs_waveSqr_le_one : |waveSqr arithReal phase duty| ≤ 1 := by
  unfold waveSqr
  split <;> simp

theorem abs_waveMsqr_le_one : |waveMsqr arithReal phase duty| ≤ 1 := by
  unfold waveMsqr
  split <;> simp

/-- P4 for the shapes (R142), selector by selector. -/
theorem abs_waveValue_le_one (h : waveDomain arithReal phase duty = true) (cfg : Cfg ℝ) {sel : Nat} (hsel : sel ≤ 5) :
    |waveValue arithReal cfg sel phase duty| ≤ 1 := by
  simp only [waveValue, h, if_true]
  match sel, hsel with
  | 0, _ => exact abs_waveTri_le_one h
  | 1, _ => exact abs_waveCtri_le_one h
  | 2, _ => exact abs_waveSaw_le_one h
  | 3, _ => exact abs_waveMsaw_le_one h
  | 4, _ => exact abs_waveSqr_le_one
  | 5, _ => exact abs_waveMsqr_le_one

end Segments

/-- P4 for the morph (R142): it is a convex combination of the shaped and the plain triangle. -/
theorem abs_lfoMorph_le_one {cfg : Cfg ℝ} {tri s : ℝ} (hshape : |cfg.shapeFn (Real.pi / 2 * tri)| ≤ 1) (htri : |tri| ≤ 1)
    (hs0 : 0 ≤ s) (hs1 : s ≤ 1) : |lfoMorph arithReal cfg tri s| ≤ 1 := by
  have hmem : s • cfg.shapeFn (Real.pi / 2 * tri) + (1 - s) • tri ∈ Set.Icc (-1 : ℝ) 1 :=
    convex_Icc (-1) 1 (abs_le.mp hshape) (abs_le.mp htri) hs0 (sub_nonneg.mpr hs1) (add_sub_cancel s 1)
  rw [lfoMorph_arithReal, mul_comm _ s, mul_comm tri]
  exact abs_le.mpr hmem

/-! ## The fully morphed symmetric triangle -/

theorem lfoMorph_one (cfg : Cfg ℝ) (tri : ℝ) : lfoMorph arithReal cfg tri 1 = cfg.shapeFn (Real.pi / 2 * tri) := by
  simp [lfoMorph_arithReal]

/-- Scaled to a quarter period, the symmetric triangle is the phase up to a shift while it rises. -/
theorem halfPi_mul_waveTri_rising {phase : ℝ} (h : phase < Real.pi) :
    Real.pi / 2 * waveTri arithReal phase (1 / 2) = phase - Real.pi / 2 := by
  have hpi := Real.pi_ne_zero
  rw [waveTri_rising (breakpoint_half ▸ h), breakpoint_half, divReal_of_ne _ hpi]
  field_simp
  ring

/-- While it falls, it is the mirrored phase up to a shift. -/
theorem halfPi_mul_waveTri_falling {phase : ℝ} (h : Real.pi ≤ phase) :
    Real.pi / 2 * waveTri arithReal phase (1 / 2) = Real.pi / 2 - (phase - Real.pi) := by
  have hpi := Real.pi_ne_zero
  have hrest : 2 * Real.pi - Real.pi = Real.pi := by ring
  rw [waveTri_falling (breakpoint_half ▸ h), breakpoint_half, hrest, divReal_of_ne _ hpi]
  field_simp

/-- Both segments of the symmetric triangle lie on one sinusoid. -/
theorem sin_halfPi_mul_waveTri (phase : ℝ) : Real.sin (Real.pi / 2 * waveTri arithReal phase (1 / 2)) = -Real.cos phase := by
  rcases lt_or_ge phase Real.pi with h | h
  · rw [halfPi_mul_waveTri_rising h, Real.sin_sub_pi_div_two]
  · rw [halfPi_mul_waveTri_falling h, Real.sin_pi_div_two_sub, Real.cos_sub_pi]

end Sys2Proof.Machine

namespace Sys2Proof

open Machine

/-- Settles O55: each shape by its segments, and the morph as a convex combination of two bounded values. -/
theorem shapesAreBounded : Obligations.ShapesAreBounded := by
  unfold Obligations.ShapesAreBounded
  intro phase duty s hp0 hp1 hd0 hd1 hs0 hs1 cfg hsin
  have hdom : waveDomain arithReal phase duty = true := waveDomain_arithReal.mpr ⟨hp0, hp1, hd0, hd1⟩
  refine ⟨fun sel hsel => abs_waveValue_le_one hdom cfg hsel, abs_lfoMorph_le_one ?_ (abs_waveTri_le_one hdom) hs0 hs1⟩
  rw [hsin]
  exact Real.abs_sin_le_one _

/-- Settles O56: at full morph only the shaped triangle is left, a sine of the shifted phase on both segments. -/
theorem morphIsCosine : Obligations.MorphIsCosine := by
  unfold Obligations.MorphIsCosine
  intro phase cfg _ _ hsin
  rw [lfoMorph_one, hsin, sin_halfPi_mul_waveTri]

end Sys2Proof
end

section
/-! The oscillator (42_oscillator.md): its phase in binary64 and in the reference arithmetic, and the commands on it. -/

namespace Sys2Proof.F64

/-! ## The sign and the finiteness of a sum and of a quotient -/

/-- The rounding of a result that is not negative is not negative: 0 is nearer to the result than any negative value. -/
theorem IsRounded.toInt_nonneg {r : Num64} {exact scale : Int} (h : IsRounded r exact scale) (hr : isFinite r = true)
    (hexact : 0 ≤ exact) (hscale : 0 < scale) : 0 ≤ toInt r := by
  obtain ⟨hnear, -⟩ := h hr 0#64 (by decide)
  rw [toInt_zero, Int.zero_mul, Int.zero_sub, abs_neg, abs_of_nonneg hexact] at hnear
  have hprod : 0 ≤ toInt r * scale := by linarith [(abs_le.mp hnear).1]
  exact nonneg_of_mul_nonneg_left hprod hscale

/-- An infinity of either sign is not finite. -/
theorem not_finite_inf (s : Bool) : isFinite (inf s) = false := by cases s <;> decide

theorem not_nan_of_inf {x : Num64} (h : isInf x = true) : isNaN x = false := by
  simp only [isInf, isNaN, decide_eq_true_eq, decide_eq_false_iff_not] at *
  omega

/-- A finite sum has finite operands: an infinity or a NaN among them stays in the sum (R110). -/
theorem finite_of_add {a b : Num64} (h : isFinite (add a b) = true) : isFinite a = true ∧ isFinite b = true := by
  have hnan : ¬ (isNaN a = true ∨ isNaN b = true) := fun hn => by simp [not_finite_of_nan (isNaN_add hn)] at h
  obtain ⟨ha, hb⟩ := not_or.mp hnan
  rw [Bool.not_eq_true] at ha hb
  rcases finite_or_inf ha with hfa | hia
  · rcases finite_or_inf hb with hfb | hib
    · exact ⟨hfa, hfb⟩
    · simp [add, addAs, ha, hb, hib, (not_nan_of_finite hfa).2, not_finite_of_inf hib] at h
  · cases hcancel : isInf b && (signBit a != signBit b)
    · simp [add, addAs, ha, hb, hia, hcancel, not_finite_of_inf hia] at h
    · simp [add, addAs, ha, hb, hia, hcancel, not_finite_of_nan (isNaN_nan _ _ _)] at h

/-- A quotient of an infinity is an infinity or a NaN (R110). -/
theorem not_finite_div_of_inf {a b : Num64} (ha : isInf a = true) (hb : isNaN b = false) : isFinite (div a b) = false := by
  cases hib : isInf b
  · simp [div, not_nan_of_inf ha, hb, ha, hib, not_finite_inf]
  · simp [div, not_nan_of_inf ha, hb, ha, hib, not_finite_of_nan (isNaN_nan _ _ _)]

/-- A finite value by an infinity is a zero (R110). -/
theorem toInt_div_inf {a b : Num64} (ha : isFinite a = true) (hb : isInf b = true) : toInt (div a b) = 0 := by
  have hdiv : div a b = pack (signBit a != signBit b) 0 := by simp [div, not_nan_of_finite ha, hb, not_nan_of_inf hb]
  rw [hdiv]
  cases signBit a != signBit b <;> decide

/-- A sum of values of at least 0, when finite, is at least 0. -/
theorem toInt_add_nonneg {a b : Num64} (ha : 0 ≤ toInt a) (hb : 0 ≤ toInt b) (h : isFinite (add a b) = true) :
    0 ≤ toInt (add a b) := by
  obtain ⟨hfa, hfb⟩ := finite_of_add h
  exact (isRounded_add hfa hfb).toInt_nonneg h (Int.add_nonneg ha hb) one_pos

/-- A quotient of a value of at least 0 by a positive one, when finite, is at least 0. -/
theorem toInt_div_nonneg {a b : Num64} (ha : le 0#64 a = true) (hb : lt 0#64 b = true) (h : isFinite (div a b) = true) :
    0 ≤ toInt (div a b) := by
  have h0 : isFinite 0#64 = true := by decide
  obtain ⟨-, hna, -⟩ := le_iff.mp ha
  obtain ⟨hnb, -, -⟩ := (lt_zero_iff b).mp hb
  rcases finite_or_inf hna with hfa | hia
  · rcases finite_or_inf hnb with hfb | hib
    · rw [le_iff_toInt_le h0 hfa, toInt_zero] at ha
      rw [lt_iff_toInt_lt h0 hfb, toInt_zero] at hb
      exact (isRounded_div hfa hfb (Int.ne_of_gt hb)).toInt_nonneg h (Int.mul_nonneg ha (by positivity)) hb
    · rw [toInt_div_inf hfa hib]
  · rw [not_finite_div_of_inf hia hnb] at h
    cases h

end Sys2Proof.F64

namespace Sys2Proof

/-! ## The phase after several steps, in the reference arithmetic -/

/-- A remainder is not negative. -/
theorem fmodReal_nonneg {a m : ℝ} (ha : 0 ≤ a) (hm : 0 < m) : 0 ≤ fmodReal a m := by
  rw [fmodReal_of_domain ha hm, mul_comm]
  exact Int.sub_floor_div_mul_nonneg a hm

/-- What R157 is derived from: a reduction before the last one changes nothing. -/
theorem fmodReal_fmodReal_add {a b m : ℝ} (ha : 0 ≤ a) (hb : 0 ≤ b) (hm : 0 < m) :
    fmodReal (fmodReal a m + b) m = fmodReal (a + b) m := by
  have hquot : (a - m * ⌊a / m⌋ + b) / m = (a + b) / m - (⌊a / m⌋ : ℤ) := by
    field_simp
    ring
  rw [fmodReal_of_domain (add_nonneg (fmodReal_nonneg ha hm) hb) hm, fmodReal_of_domain (add_nonneg ha hb) hm,
    fmodReal_of_domain ha hm, hquot, Int.floor_sub_intCast, Int.cast_sub]
  ring

end Sys2Proof

namespace Sys2Proof.Machine

/-- `N` steps write only the phase, which is the sum of the increments reduced once (R157). -/
theorem oscStep_iterate {r : Regs ℝ} (hphase : r.oscPhase = 0) (hw : 0 ≤ r.oscW) (hrate : 0 < r.rate) (N : Nat) :
    (oscStep arithReal)^[N] r = { r with oscPhase := fmodReal (N * (r.oscW / r.rate)) (2 * Real.pi) } := by
  have hinc : 0 ≤ r.oscW / r.rate := div_nonneg hw hrate.le
  induction N with
  | zero =>
    have hstart : fmodReal ((0 : Nat) * (r.oscW / r.rate)) (2 * Real.pi) = r.oscPhase := by
      simp [fmodReal_of_domain le_rfl Real.two_pi_pos, hphase]
    rw [hstart, Function.iterate_zero_apply]
  | succ N ih =>
    have hsum : (N : ℝ) * (r.oscW / r.rate) + r.oscW / r.rate = (N + 1 : Nat) * (r.oscW / r.rate) := by
      push_cast
      ring
    have hnext : nextPhase arithReal (fmodReal (N * (r.oscW / r.rate)) (2 * Real.pi)) r.oscW r.rate =
        fmodReal ((N + 1 : Nat) * (r.oscW / r.rate)) (2 * Real.pi) := by
      simp only [nextPhase, arithReal_fmod, arithReal_add, arithReal_div, arithReal_twoPi, divReal_of_ne _ hrate.ne']
      rw [fmodReal_fmodReal_add (by positivity) hinc Real.two_pi_pos, hsum]
    rw [Function.iterate_succ_apply', ih, oscStep, hnext]

/-! ## The commands of the oscillator -/

/-- A command that needs a rate and has none answers `E_NOTREADY` (R293). -/
theorem needRate_refused {s : State} {k : State → Host.Outcome State Fault Refusal} (h : rateValid s.regs = false) :
    needRate s k = .next (raise .notReady s) := by
  simp [needRate, h]

/-- With a rate `OSTEP` is `OSC.STEP` and answers two zero words (R153). -/
theorem execOstep_ready {s : State} (h : rateValid s.regs = true) :
    execOstep s = .next (respond 0#64 0#64 { s with regs := oscStep arithF64 s.regs }) :=
  needRate_ready h

/-- With a rate `ONEXT` is `OSC.STEP` and answers the waveform at the phase before it (R152, R154). -/
theorem execOnext_ready {s : State} (h : rateValid s.regs = true) :
    execOnext s = .next (respond (waveValue arithF64 design wsel s.regs.oscPhase s.regs.oscDuty) 0#64
      { s with regs := oscStep arithF64 s.regs }) := by
  rw [execOnext, onextWith, needRate_ready h, oscNext]

/-- Without a rate `OSTEP` changes nothing but the sticky flag (R153, R293). -/
theorem execOstep_refused {s : State} (h : rateValid s.regs = false) : execOstep s = .next (raise .notReady s) :=
  needRate_refused h

/-- Without a rate `ONEXT` changes nothing but the sticky flag (R154, R293). -/
theorem execOnext_refused {s : State} (h : rateValid s.regs = false) : execOnext s = .next (raise .notReady s) := by
  rw [execOnext, onextWith, needRate_refused h]

/-- The selector is hardwired to the triangle (R33); on the domain of R130 the value is R132's. -/
theorem waveValue_wsel {N : Type} (A : Arith N) (cfg : Cfg N) {phase duty : N} (h : waveDomain A phase duty = true) :
    waveValue A cfg wsel phase duty = waveTri A phase duty := by
  simp [waveValue, wsel, waveShape, h]

end Sys2Proof.Machine

namespace Sys2Proof

open Machine

/-- Settles O37: the sum before the reduction is finite and at least 0, so the remainder of R105 is in `[0, TWO_PI)`, also when the
old phase was not below `TWO_PI`. -/
theorem phaseStaysReduced : Obligations.PhaseStaysReduced := by
  unfold Obligations.PhaseStaysReduced
  intro phase w rate hphase _ hw hrate hsum
  have h0 : F64.isFinite 0#64 = true := by decide
  obtain ⟨hfphase, hfinc⟩ := F64.finite_of_add hsum
  rw [F64.le_iff_toInt_le h0 hfphase, F64.toInt_zero] at hphase
  have hsum0 : F64.le 0#64 (F64.add phase (F64.div w rate)) = true := by
    rw [F64.le_iff_toInt_le h0 hsum, F64.toInt_zero]
    exact F64.toInt_add_nonneg hphase (F64.toInt_div_nonneg hw hrate hfinc) hsum
  obtain ⟨-, -, hge, hlt⟩ := fmodIsExact _ F64.twoPi hsum (by decide) hsum0 (by decide)
  exact ⟨hge, hlt⟩

/-- Settles O38: the phase is the sum of the increments reduced once, whose remainder is the exact one. -/
theorem phaseAfterSteps : Obligations.PhaseAfterSteps := by
  unfold Obligations.PhaseAfterSteps
  intro r N hphase hw hrate
  rw [oscStep_iterate hphase hw hrate]
  exact fmodReal_of_domain (by positivity) Real.two_pi_pos

/-- Settles O33: the word is the encoder's for `OSTEP`, and the rate decides between the step and `E_NOTREADY`. -/
theorem ostepAdvancesPhase : Obligations.OstepAdvancesPhase := by
  unfold Obligations.OstepAdvancesPhase
  refine ⟨fun d0 d1 => decode_eq_ok_iff.mpr ⟨rfl, rfl, rfl, rfl⟩, fun s => ⟨fun h => ?_, fun h => ?_⟩⟩
  · exact execOstep_ready h
  · exact execOstep_refused h

/-- Settles O34: the word is the encoder's for `ONEXT`; the value is the waveform unit's, which on its domain is the triangle. -/
theorem onextReturnsTriangle : Obligations.OnextReturnsTriangle := by
  unfold Obligations.OnextReturnsTriangle
  refine ⟨fun d0 d1 => decode_eq_ok_iff.mpr ⟨rfl, rfl, rfl, rfl⟩, fun s => ⟨fun h => ?_, fun h => ?_⟩⟩
  · refine ⟨_, execOnext_ready h, fun hp0 hp1 hd0 hd1 => ?_⟩
    have hdom : waveDomain arithF64 s.regs.oscPhase s.regs.oscDuty = true := by
      simp only [waveDomain, Bool.and_eq_true]
      exact ⟨⟨⟨hp0, hp1⟩, hd0⟩, hd1⟩
    exact waveValue_wsel arithF64 design hdom
  · exact execOnext_refused h

/-- Settles O35: the word is the encoder's for `SNAP`, and the command has one outcome. -/
theorem snapSavesPhase : Obligations.SnapSavesPhase := by
  unfold Obligations.SnapSavesPhase
  exact ⟨fun d0 d1 => decode_eq_ok_iff.mpr ⟨rfl, rfl, rfl, rfl⟩, fun s => rfl⟩

/-- Settles O36: the word is the encoder's for `RESTORE`, and the command has one outcome. -/
theorem restoreSetsPhase : Obligations.RestoreSetsPhase := by
  unfold Obligations.RestoreSetsPhase
  exact ⟨fun d0 d1 => decode_eq_ok_iff.mpr ⟨rfl, rfl, rfl, rfl⟩, fun s => rfl⟩

end Sys2Proof
end

section
/-! The delay line (43_delay_line.md): the interpolated read in the reference arithmetic, at an integer tap (R168) and at any tap
(R173), and the observation command `RDDL` (R172). -/

namespace Sys2Proof.Machine

/-! ## The line after a push -/

/-- Each kept cell of the line after a push is a cell of the line with the pushed value in front (R62). -/
theorem dlRead_dlPush {N : Type} (A : Arith N) (dl : List N) (v : N) {n k : Nat} (h : k < n) :
    dlRead A (dlPush dl v n) (k : Int) = (v :: dl).getD k A.zero := by
  cases k with
  | zero => exact dlRead_dlPush_zero A dl v n h
  | succ k => exact dlRead_dlPush_succ A dl v n k h

/-! ## The read in the reference arithmetic -/

/-- The read always answers: it mixes two neighbouring cells by the fractional part of the tap (R167). -/
theorem delayRead_arithReal (dl : List ℝ) (t : ℝ) :
    delayRead arithReal dl t =
      some (dlRead arithReal dl ⌊t⌋ * (1 - Int.fract t) + dlRead arithReal dl (⌊t⌋ + 1) * Int.fract t) := rfl

/-- At an integer tap the read answers one cell exactly (R167). -/
theorem delayRead_natCast (dl : List ℝ) (k : Nat) : delayRead arithReal dl (k : ℝ) = some (dlRead arithReal dl (k : Int)) := by
  simp [delayRead_arithReal]

/-- At an integer tap below `n` the delay answers one cell of the pushed line, 0 beyond its end (R166, R167). -/
theorem delayLine_natCast (dl : List ℝ) (x : ℝ) {n k : Nat} (h : k < n) :
    delayLine arithReal dl (k : ℝ) x n = some ((x :: dl).take n, (x :: dl).getD k 0) := by
  rw [delayLine, delayRead_natCast, dlRead_dlPush arithReal dl x h, Option.map_some, dlPush, arithReal_zero]

/-- What bounds every cell bounds every read, inside the line or not (R61). -/
theorem abs_dlRead_le {dl : List ℝ} {M : ℝ} (hM : 0 ≤ M) (hcells : ∀ v ∈ dl, |v| ≤ M) (i : Int) : |dlRead arithReal dl i| ≤ M := by
  rcases dlRead_mem_or_zero arithReal dl i with hcell | hzero
  · exact hcells _ hcell
  · rwa [hzero, arithReal_zero, abs_zero]

/-- A convex combination of two values is bounded by what bounds both. -/
theorem abs_mix_le {a b f M : ℝ} (hf0 : 0 ≤ f) (hf1 : f ≤ 1) (ha : |a| ≤ M) (hb : |b| ≤ M) : |a * (1 - f) + b * f| ≤ M :=
  calc |a * (1 - f) + b * f| ≤ |a| * (1 - f) + |b| * f := by
        simpa only [abs_mul, abs_of_nonneg hf0, abs_of_nonneg (sub_nonneg.mpr hf1)] using abs_add_le (a * (1 - f)) (b * f)
    _ ≤ M * (1 - f) + M * f := by
        have := sub_nonneg.mpr hf1
        gcongr
    _ = M := by ring

/-! ## The selector of a channel -/

/-- Selectors 0 and 1 name the channels (R89). -/
theorem chanOfSel_of_mem {c : Selector} {ch : Chan} (h : (c, ch) ∈ [(0#8, Chan.zero), (1#8, Chan.one)]) :
    chanOfSel c = some ch := by
  simp only [List.mem_cons, Prod.mk.injEq, List.not_mem_nil, or_false] at h
  rcases h with ⟨rfl, rfl⟩ | ⟨rfl, rfl⟩ <;> rfl

end Sys2Proof.Machine

namespace Sys2Proof

open Machine

/-- The word of `RDDL` for a channel, as R172 writes it, is the encoder's. -/
theorem encode_rddl_cmd {c : Selector} {ch : Chan} (hc : chanOfSel c = some ch) (i : DataWord) :
    (encode (.rddl c i)).cmd = 0x0E000000#32 ||| (c.zeroExtend 32 <<< 16) := by
  rcases chanOfSel_eq_some hc with ⟨-, rfl⟩ | ⟨-, rfl⟩ <;> rfl

/-- Settles O57: both taps are integers below `n`, so each answers one cell of the pushed line; beyond its end that is 0. -/
theorem delayLineTaps : Obligations.DelayLineTaps := by
  unfold Obligations.DelayLineTaps
  intro dl x n hn
  constructor
  · exact_mod_cast delayLine_natCast dl x (k := 0) hn
  · have hlast := delayLine_natCast dl x (n := n) (k := n - 1) (by omega)
    rw [Nat.cast_pred hn] at hlast
    rw [hlast]
    split
    next => rfl
    next hshort => rw [List.getD_eq_default _ _ (by rw [List.length_cons]; omega)]

/-- Settles O58: the read mixes two reads with weights that add to 1, and each is a cell or 0. The weights are in `[0, 1]` whatever
the tap. -/
theorem delayReadIsConvex : Obligations.DelayReadIsConvex := by
  unfold Obligations.DelayReadIsConvex
  intro dl t M _ hM hcells
  exact ⟨_, delayRead_arithReal dl t,
    abs_mix_le (Int.fract_nonneg t) (Int.fract_lt_one t).le (abs_dlRead_le hM hcells _) (abs_dlRead_le hM hcells _)⟩

/-- Settles O40: the word is the encoder's for `RDDL`, and the answer is the read of R61, inside the line and beyond its end. -/
theorem rddlReadsCell : Obligations.RddlReadsCell := by
  unfold Obligations.RddlReadsCell
  intro s c ch i hsel
  have hc := chanOfSel_of_mem hsel
  refine ⟨fun d1 => decode_eq_ok_iff.mpr ⟨?_, encode_rddl_cmd hc i, rfl, ?_⟩, ?_⟩
  · rw [Instr.wellFormed, ← chanOfSel_isSome, hc, Option.isSome_some]
  · rw [← encode_rddl_cmd hc i]
    rfl
  · rw [exec_rddl_of_chan hc]
    split
    next hin =>
      rw [dlRead_inside _ _ _ hin]
      rfl
    next hout =>
      rw [dlRead_outside _ _ _ (.inr (by omega))]
      rfl

end Sys2Proof
end

section
/-! The filter coefficients and the one-pole stages (44_filters.md) in the reference arithmetic: the stability of R190 and R195, and
the geometric decay of R191. -/

namespace Sys2Proof.Machine

/-! ## The coefficient of a one-pole stage -/

/-- With `g = 1 / (2 * tau * RATE)` the coefficient is `g / (1 + g)`: both divisions of R190 are by positive numbers. -/
theorem filterCoef1_arithReal {tau rate : ℝ} (htau : 0 < tau) (hrate : 0 < rate) :
    filterCoef1 arithReal tau rate = 1 / (2 * tau * rate) / (1 + 1 / (2 * tau * rate)) := by
  have hprod : 2 * tau * rate ≠ 0 := by positivity
  have hsum : 1 + 1 / (2 * tau * rate) ≠ 0 := by positivity
  simp only [filterCoef1, arithReal_div, arithReal_add, arithReal_mul, arithReal_one, arithReal_two, divReal_of_ne _ hprod,
    divReal_of_ne _ hsum]

/-- Every time constant and every rate gives a stable one-pole stage (R190). -/
theorem filterCoef1_arithReal_bounds {tau rate : ℝ} (htau : 0 < tau) (hrate : 0 < rate) :
    0 < filterCoef1 arithReal tau rate ∧ filterCoef1 arithReal tau rate < 1 := by
  rw [filterCoef1_arithReal htau hrate]
  have hg : 0 < 1 / (2 * tau * rate) := by positivity
  exact ⟨div_pos hg (by positivity), (div_lt_one (by positivity)).mpr (lt_one_add _)⟩

/-! ## The coefficients of the two-pole stage -/

/-- The coefficients of R195 as functions of `KK` and `KQ`. -/
noncomputable def twoPoleCoefs (KK KQ : ℝ) : Coef2 ℝ where
  b0 := KK / (1 + KQ + KK)
  a1 := 2 * (KK - 1) / (1 + KQ + KK)
  a2 := (1 - KQ + KK) / (1 + KQ + KK)

/-- All divisions of R195 are by positive numbers, so its coefficients are the exact ones. -/
theorem filterCoef2_arithReal {w0 q rate : ℝ} (hw0 : 0 < w0) (hq : 0 < q) (hrate : 0 < rate) :
    filterCoef2 arithReal w0 q rate = twoPoleCoefs (w0 / (2 * rate) * (w0 / (2 * rate))) (w0 / (2 * rate) / q) := by
  have hrate2 : 2 * rate ≠ 0 := by positivity
  have hnorm : 1 + w0 / (2 * rate) / q + w0 / (2 * rate) * (w0 / (2 * rate)) ≠ 0 := by positivity
  simp only [filterCoef2, twoPoleCoefs, arithReal_div, arithReal_add, arithReal_sub, arithReal_mul, arithReal_one, arithReal_two,
    divReal_of_ne _ hrate2, divReal_of_ne _ hq.ne', divReal_of_ne _ hnorm]

section TwoPole
variable {KK KQ : ℝ} (hKK : 0 < KK) (hKQ : 0 < KQ)
include hKK hKQ

theorem twoPoleCoefs_b0_bounds : 0 < (twoPoleCoefs KK KQ).b0 ∧ (twoPoleCoefs KK KQ).b0 < 1 := by
  have hnorm : 0 < 1 + KQ + KK := by positivity
  exact ⟨div_pos hKK hnorm, (div_lt_one hnorm).mpr (by linarith)⟩

theorem abs_twoPoleCoefs_a2_lt : |(twoPoleCoefs KK KQ).a2| < 1 := by
  have hnorm : 0 < 1 + KQ + KK := by positivity
  rw [twoPoleCoefs, abs_div, abs_of_pos hnorm, div_lt_one hnorm, abs_lt]
  constructor <;> linarith

theorem one_add_twoPoleCoefs_a2 : 1 + (twoPoleCoefs KK KQ).a2 = 2 * (1 + KK) / (1 + KQ + KK) := by
  have hnorm : 1 + KQ + KK ≠ 0 := by positivity
  rw [twoPoleCoefs]
  field_simp
  ring

/-- Over the common denominator this is `|KK - 1| < 1 + KK`. -/
theorem abs_twoPoleCoefs_a1_lt : |(twoPoleCoefs KK KQ).a1| < 1 + (twoPoleCoefs KK KQ).a2 := by
  have hnorm : 0 < 1 + KQ + KK := by positivity
  rw [one_add_twoPoleCoefs_a2 hKK hKQ, twoPoleCoefs, abs_div, abs_of_pos hnorm, div_lt_div_iff_of_pos_right hnorm, abs_lt]
  constructor <;> linarith

/-- The denominator of the transfer function at zero frequency is its numerator there. -/
theorem one_add_twoPoleCoefs_a1_add_a2 :
    1 + (twoPoleCoefs KK KQ).a1 + (twoPoleCoefs KK KQ).a2 = 4 * (twoPoleCoefs KK KQ).b0 := by
  rw [add_right_comm, one_add_twoPoleCoefs_a2 hKK hKQ, twoPoleCoefs]
  ring

end TwoPole

/-! ## The one-pole stages -/

theorem filterLp1_arithReal (S G x : ℝ) : filterLp1 arithReal S G x = ((x - S) * G + S, (x - S) * G + S + (x - S) * G) := rfl

theorem filterHp1_arithReal (S G x : ℝ) :
    filterHp1 arithReal S G x = (x - ((x - S) * G + S), (x - S) * G + S + (x - S) * G) := rfl

/-- One sample moves the state towards the input: the distance is multiplied by the pole `1 - 2G` (R191). -/
theorem filterLp1_state_sub (S G x : ℝ) : (filterLp1 arithReal S G x).2 - x = (1 - 2 * G) * (S - x) := by
  rw [filterLp1_arithReal]
  ring

/-- Both kinds of stage update the state alike (R187). -/
theorem filterHp1_state (S G x : ℝ) : (filterHp1 arithReal S G x).2 = (filterLp1 arithReal S G x).2 := rfl

/-- The distance of the low-pass output from the input is the fixed part `1 - G` of the state's. -/
theorem filterLp1_output_sub (S G x : ℝ) : (filterLp1 arithReal S G x).1 - x = (1 - G) * (S - x) := by
  rw [filterLp1_arithReal]
  ring

/-- A map that multiplies the distance from `x` by `r` does so by `r ^ N` in `N` rounds. -/
theorem iterate_sub_eq_pow_mul {f : ℝ → ℝ} {r x : ℝ} (hf : ∀ S, f S - x = r * (S - x)) (S : ℝ) (N : Nat) :
    f^[N] S - x = r ^ N * (S - x) := by
  induction N with
  | zero => rw [Function.iterate_zero_apply, pow_zero, one_mul]
  | succ N ih => rw [Function.iterate_succ_apply', hf, ih, pow_succ', mul_assoc]

/-- The pole of a stage with `0 < G < 1` lies in `(-1, 1)`, so its powers vanish (R191). -/
theorem tendsto_pole_pow {G : ℝ} (hG0 : 0 < G) (hG1 : G < 1) :
    Filter.Tendsto (fun N : Nat => (1 - 2 * G) ^ N) Filter.atTop (nhds 0) :=
  tendsto_pow_atTop_nhds_zero_of_abs_lt_one (abs_lt.mpr ⟨by linarith, by linarith⟩)

/-- Fed a constant, the low-pass output tends to it: gain 1 at zero frequency (R191). -/
theorem tendsto_filterLp1_output (S x : ℝ) {G : ℝ} (hG0 : 0 < G) (hG1 : G < 1) :
    Filter.Tendsto (fun N : Nat => (filterLp1 arithReal ((fun S => (filterLp1 arithReal S G x).2)^[N] S) G x).1)
      Filter.atTop (nhds x) := by
  have hdist : ∀ N : Nat, (filterLp1 arithReal ((fun S => (filterLp1 arithReal S G x).2)^[N] S) G x).1 - x =
      (1 - G) * ((1 - 2 * G) ^ N * (S - x)) := fun N => by
    rw [filterLp1_output_sub, iterate_sub_eq_pow_mul (filterLp1_state_sub · G x)]
  rw [← tendsto_sub_nhds_zero_iff]
  simp only [hdist]
  simpa using ((tendsto_pole_pow hG0 hG1).mul_const (S - x)).const_mul (1 - G)

end Sys2Proof.Machine

namespace Sys2Proof

open Machine

/-- Settles O52: the exact coefficients are quotients by a positive common denominator, so each bound is one on the numerators. -/
theorem coefficientsAreStable : Obligations.CoefficientsAreStable := by
  unfold Obligations.CoefficientsAreStable
  refine ⟨fun tau rate htau hrate => filterCoef1_arithReal_bounds htau hrate, fun w0 q rate hw0 hq hrate => ?_⟩
  have hKK : 0 < w0 / (2 * rate) * (w0 / (2 * rate)) := by positivity
  have hKQ : 0 < w0 / (2 * rate) / q := by positivity
  obtain ⟨hb0_pos, hb0_lt⟩ := twoPoleCoefs_b0_bounds hKK hKQ
  rw [filterCoef2_arithReal hw0 hq hrate]
  refine ⟨hb0_pos, hb0_lt, abs_twoPoleCoefs_a2_lt hKK hKQ, abs_twoPoleCoefs_a1_lt hKK hKQ, ?_⟩
  rw [one_add_twoPoleCoefs_a1_add_a2 hKK hKQ]
  exact div_self (by positivity)

/-- Settles O53: each sample multiplies the distance from the input by the pole, which lies in `(-1, 1)`. -/
theorem onePoleDecays : Obligations.OnePoleDecays := by
  unfold Obligations.OnePoleDecays
  intro S G x hG0 hG1
  refine ⟨iterate_sub_eq_pow_mul (filterLp1_state_sub · G x) S, ?_, tendsto_filterLp1_output S x hG0 hG1, ?_⟩
  · simp only [filterHp1_state]
    exact iterate_sub_eq_pow_mul (filterLp1_state_sub · G x) S
  · rw [filterLp1_arithReal, filterHp1_arithReal]
    exact add_sub_cancel _ x

end Sys2Proof
end

section
/-! The Channel (45_channel.md): the seven steps of `CHPROC` (R214, R215), the order of the two channels (R75, R215), and the delay of
the feedback loop (R216). -/

namespace Sys2Proof.Machine

/-! ## `CHPROC` completes -/

/-- A finite value has a floor, on the hardware (R117). -/
theorem ifloor_arithF64 {t : Num64} (h : F64.isFinite t = true) : arithF64.ifloor t = some (F64.toInt t / 2 ^ 1074) := by
  rw [← F64.one1074_cast]
  exact if_pos h

/-- At a finite tap the hardware's read answers: it mixes two neighbouring cells by the fractional part of the tap (R167). -/
theorem delayRead_arithF64 (dl : List Num64) {t : Num64} (h : F64.isFinite t = true) :
    let i : Int := F64.toInt t / 2 ^ 1074
    let frac := F64.sub t (F64.num i)
    delayRead arithF64 dl t =
      some (F64.add (F64.mul (dlRead arithF64 dl i) (F64.sub F64.one frac)) (F64.mul (dlRead arithF64 dl (i + 1)) frac)) := by
  simp only [delayRead, ifloor_arithF64 h]
  rfl

/-- With a prepared block and a sample, `CHPROC` writes its channel's transform and answers its output (R215). -/
theorem exec_chproc_of_transform {s : State} {c : Selector} {ch : Chan} {f : Fmt} {w : DataWord} {x out : Num64}
    {ch' : ChannelState Num64} (hc : chanOfSel c = some ch) (hv : blkValid s.regs = true) (hx : decodeSample f w = some x)
    (htr : channelTransform arithF64 design (channelInputs s.regs) (getChan s.regs ch) x = some (ch', out)) :
    exec (.chproc c f w) s = .next (respond (encodeSample f out) 0#64 { s with regs := setChan s.regs ch ch' }) := by
  simp only [exec, execChproc, chprocWith, hc, chprocOn, needBlock_ready hv, hx, chProcess, htr, Option.map_some]

/-! ## One channel after the other -/

/-- The flag that `CHPROC` sets: of a refusal before the channel is read, or none (R215, R290). -/
def chprocFlags (ready : Bool) (f : Fmt) (w : DataWord) : BitVec 16 :=
  if ready then
    if decodeSample f w = none then flagMask .errNonFinite else 0#16
  else flagMask .errNotReady

/-- `CHPROC` adds to the flags and writes its own channel, and no other register (R75, R215, R290). -/
theorem exec_chproc_regs {s t : State} {c : Selector} {ch : Chan} {f : Fmt} {w : DataWord} (hc : chanOfSel c = some ch)
    (h : exec (.chproc c f w) s = .next t) :
    t.regs = setChan { s.regs with status := s.regs.status ||| chprocFlags (blkValid s.regs) f w } ch (getChan t.regs ch) ∧
    blkValid t.regs = blkValid s.regs := by
  have hself : ∀ r : Regs Num64, r = setChan r ch (getChan r ch) := fun r => by cases ch <;> rfl
  rcases execChproc_cases h with ⟨hn, -⟩ | ⟨d, hd, hcase⟩
  · simp [hc] at hn
  obtain rfl : ch = d := Option.some.inj (hc.symm.trans hd)
  rcases hcase with ⟨hv, rfl⟩ | ⟨hv, hx, rfl⟩ | ⟨hv, x, r, out, hx, hr, rfl⟩
  · rw [show chprocFlags (blkValid s.regs) f w = flagMask .errNotReady by simp [chprocFlags, hv]]
    exact ⟨hself (raise .notReady s).regs, blkValid_raise _ s⟩
  · rw [show chprocFlags (blkValid s.regs) f w = flagMask .errNonFinite by simp [chprocFlags, hv, hx]]
    exact ⟨hself (raise .nonFinite s).regs, blkValid_raise _ s⟩
  · obtain ⟨ch', -, rfl⟩ := chProcess_eq_some hr
    rw [show chprocFlags (blkValid s.regs) f w = 0#16 by simp [chprocFlags, hv, hx], BitVec.or_zero, respond_regs,
      getChan_setChan_same]
    exact ⟨rfl, blkValid_setChan _ _ _⟩

/-- `CHPROC` leaves the global registers of R210 as they are. -/
theorem exec_chproc_channelInputs {s t : State} {c : Selector} {ch : Chan} {f : Fmt} {w : DataWord} (hc : chanOfSel c = some ch)
    (h : exec (.chproc c f w) s = .next t) : channelInputs t.regs = channelInputs s.regs := by
  rw [(exec_chproc_regs hc h).1, channelInputs_setChan]
  rfl

section Pair
variable {s t u v : State} {c d : Selector} {i j : Chan} {f f' : Fmt} {w w' : DataWord} (hc : chanOfSel c = some i)
  (hd : chanOfSel d = some j) (ht : exec (.chproc c f w) s = .next t) (hv : exec (.chproc d f' w') t = .next v)
include hc hd ht hv

/-- What `CHPROC` on one channel computes is the same after `CHPROC` on the other: nothing that it reads has changed (R75). -/
theorem exec_chproc_after_other (hij : i ≠ j) (hu : exec (.chproc d f' w') s = .next u) :
    getChan v.regs j = getChan u.regs j ∧ v.resp = u.resp := by
  obtain ⟨-, hframe⟩ := exec_chproc_eq_reply hc ht
  obtain ⟨⟨a, ha, hva⟩, -⟩ := exec_chproc_eq_reply hd hv
  obtain ⟨⟨b, hb, hub⟩, -⟩ := exec_chproc_eq_reply hd hu
  rw [(exec_chproc_regs hc ht).2, exec_chproc_channelInputs hc ht, hframe j hij, hb] at ha
  obtain ⟨hchan, rfl⟩ := Prod.mk.inj (Option.some.inj ha)
  exact ⟨hchan.symm, hva.trans hub.symm⟩

/-- Two `CHPROC` write their channels and add the flags of both (R75, R290). -/
theorem exec_chproc_pair_regs :
    v.regs = setChan (setChan { s.regs with status := s.regs.status |||
      (chprocFlags (blkValid s.regs) f w ||| chprocFlags (blkValid s.regs) f' w') } i (getChan t.regs i)) j (getChan v.regs j) := by
  obtain ⟨hregs, hready⟩ := exec_chproc_regs hc ht
  obtain ⟨hregs', -⟩ := exec_chproc_regs hd hv
  generalize getChan t.regs i = ci at hregs ⊢
  rw [hready, hregs, setChan_status, BitVec.or_assoc] at hregs'
  refine hregs'.trans ?_
  cases i <;> rfl

end Pair

/-- Writes to two channels commute. -/
theorem setChan_comm {N : Type} {i j : Chan} (h : i ≠ j) (r : Regs N) (ci cj : ChannelState N) :
    setChan (setChan r i ci) j cj = setChan (setChan r j cj) i ci := by
  cases i <;> cases j
  · exact absurd rfl h
  · rfl
  · rfl
  · exact absurd rfl h

/-! ## The feedback loop -/

/-- A write to cell 0 leaves the older cells (R68). -/
theorem tail_delayInject {N : Type} (A : Arith N) (limit : N) (dl : List N) (v : N) : (delayInject A limit dl v).tail = dl.tail := by
  cases dl <;> rfl

end Sys2Proof.Machine

namespace Sys2Proof

open Machine

/-- Settles O29: each channel computes the same before and after the other, and both orders set the same flags. -/
theorem channelOrderDoesNotMatter : Obligations.ChannelOrderDoesNotMatter := by
  unfold Obligations.ChannelOrderDoesNotMatter
  intro s a b a' b' f w0 w1 ha hb ha' hb'
  have h0 : chanOfSel 0#8 = some .zero := rfl
  have h1 : chanOfSel 1#8 = some .one := rfl
  have hne : Chan.zero ≠ Chan.one := by decide
  obtain ⟨hchan1, hresp1⟩ := exec_chproc_after_other h0 h1 ha hb hne ha'
  obtain ⟨hchan0, hresp0⟩ := exec_chproc_after_other h1 h0 ha' hb' hne.symm ha
  refine ⟨?_, hresp0.symm, hresp1⟩
  rw [exec_chproc_pair_regs h0 h1 ha hb, exec_chproc_pair_regs h1 h0 ha' hb', hchan0, hchan1, setChan_comm hne,
    BitVec.or_comm (chprocFlags _ f w0)]

/-- Settles O32: the output and the old cells are made before the feedback path is read, which writes its filter's state and cell 0. -/
theorem feedbackIsHeardLater : Obligations.FeedbackIsHeardLater := by
  unfold Obligations.FeedbackIsHeardLater
  intro g ch c1 c2 x bFb fbS limit o1 o2 h1 h2
  obtain ⟨xp, a, yd, y, xfb, rfl, rfl, hyd, rfl, -, rfl, rfl⟩ := channelTransform_eq_some h1
  obtain ⟨xp', a', yd', y', xfb', rfl, rfl, hyd', rfl, -, rfl, rfl⟩ := channelTransform_eq_some h2
  obtain rfl : yd = yd' := Option.some.inj (hyd.symm.trans hyd')
  exact ⟨rfl, by rw [tail_delayInject, tail_delayInject]; rfl⟩

/-- Settles O25: at a finite tap the line is read, so the transform has one outcome, whose steps are those of R214. -/
theorem chprocTransformsChannel : Obligations.ChprocTransformsChannel := by
  unfold Obligations.ChprocTransformsChannel
  intro s c ch f w x hsel hv hx htap
  obtain ⟨⟨ch', out⟩, htr⟩ := channelTransform_isSome (cfg := design) (g := channelInputs s.regs) (ifloor_arithF64 htap)
    (getChan s.regs ch) x
  have hexec := exec_chproc_of_transform (chanOfSel_of_mem hsel) hv hx htr
  obtain ⟨xp, a, yd, y, xfb, rfl, rfl, hread, rfl, rfl, rfl, rfl⟩ := channelTransform_eq_some htr
  obtain rfl := Option.some.inj ((delayRead_arithF64 _ htap).symm.trans hread)
  exact hexec

end Sys2Proof
end

section
/-! `SAT` (45_channel.md R211, R212): in binary64, odd bit for bit and inside the limit, and in the reference arithmetic. -/

namespace Sys2Proof.F64

/-! ## Signs and magnitudes through the operations of `SAT` -/

/-- Finite and above 0, by the fields of the pattern. -/
theorem isPositive_iff {x : Num64} : arithF64.isPositive x = true ↔ isFinite x = true ∧ signBit x = false ∧ magBits x ≠ 0 := by
  rw [Arith.isPositive, Bool.and_eq_true]
  exact and_congr_right fun hfin => (lt_zero_iff x).trans (and_iff_right (not_nan_of_finite hfin).1)

/-- The rounding is of the magnitude, so it commutes with negation (R101, R102). -/
theorem neg_ofRatio (s : Bool) (p q : Nat) : neg (ofRatio s p q) = ofRatio (!s) p q := ext_fields (by simp) (by simp)

theorem mul_neg_right {a b : Num64} (ha : isFinite a = true) (hb : isFinite b = true) : mul a (neg b) = neg (mul a b) := by
  rw [mul_finite ha hb, mul_finite ha (by rwa [isFinite_neg]), neg_ofRatio, signBit_neg, quanta_neg, Bool.bne_not]

theorem div_neg_left {a b : Num64} (ha : isFinite a = true) (hb : isFinite b = true) (hb0 : magBits b ≠ 0) :
    div (neg a) b = neg (div a b) := by
  rw [div_finite ha hb hb0, div_finite (by rwa [isFinite_neg]) hb hb0, neg_ofRatio, signBit_neg, quanta_neg, Bool.not_bne]

@[simp] theorem abs_neg_bits (x : Num64) : abs (neg x) = abs x := ext_fields (by simp) (by simp)

/-- The magnitude pattern orders the quanta. -/
theorem quanta_le_quanta {a b : Num64} (h : magBits a ≤ magBits b) : quanta a ≤ quanta b := (quantaOf_strictMono 52).monotone h

theorem quanta_one : quanta one = one1074 := by decide +kernel

/-- Values of no larger magnitude lie between a value and its negation. -/
theorem between_of_magBits_le {a c : Num64} (hc : signBit c = false) (hfin : isFinite c = true) (h : magBits a ≤ magBits c) :
    le (neg c) a = true ∧ le a c = true := by
  obtain ⟨hcn, -⟩ := not_nan_of_finite hfin
  have han : isNaN a = false := by
    simp only [isNaN, decide_eq_false_iff_not] at hcn ⊢
    omega
  have hkey : -(magBits c : Int) ≤ key a ∧ key a ≤ magBits c := by
    rw [key_eq_signed, ← abs_le, abs_signed]
    exact_mod_cast h
  have hkc : key c = magBits c := by rw [key_eq_signed, hc, signed_false]
  exact ⟨le_iff.mpr ⟨by rwa [isNaN_neg], han, by rw [key_neg, hkc]; exact hkey.1⟩, le_iff.mpr ⟨han, hcn, by rw [hkc]; exact hkey.2⟩⟩

/-- A quotient of finite values is at most 1 in magnitude when the divisor is the larger. -/
theorem magBits_div_le_one {a b : Num64} (ha : isFinite a = true) (hb : isFinite b = true) (hb0 : magBits b ≠ 0)
    (h : magBits a ≤ magBits b) : magBits (div a b) ≤ magBits one := by
  rw [div_finite ha hb hb0, magBits_ofRatio]
  refine Nat.le_trans (Nat.min_le_left _ _) (roundMag_le (Nat.pos_of_ne_zero (mt (quanta_eq_zero b).mp hb0)) ?_)
  rw [← quanta, quanta_one, Nat.mul_comm]
  exact Nat.mul_le_mul_left _ (quanta_le_quanta h)

/-- A product with a factor of at most 1 is no larger than the other factor. -/
theorem magBits_mul_le {a b : Num64} (ha : isFinite a = true) (hb : isFinite b = true) (h : magBits b ≤ magBits one) :
    magBits (mul a b) ≤ magBits a := by
  rw [mul_finite ha hb, magBits_ofRatio]
  refine Nat.le_trans (Nat.min_le_left _ _) (roundMag_le one1074_pos ?_)
  rw [← quanta, ← quanta_one]
  exact Nat.mul_le_mul_left _ (quanta_le_quanta h)

/-- The divisor `1 + |u|` of `SAT` (R211) is finite for every finite `u`, also for the largest: 1 is far below half a step there. It
is no smaller than `u` and no smaller than 1. -/
theorem one_add_abs {u : Num64} (hu : isFinite u = true) :
    isFinite (add one (abs u)) = true ∧ magBits (add one (abs u)) ≠ 0 ∧ magBits u ≤ magBits (add one (abs u)) := by
  have hmag : magBits u < infMag := by simpa [isFinite] using hu
  have hq : quanta (abs u) = quanta u := by rw [quanta, magBits_abs, quanta]
  have hone : 0 < quanta one := quanta_one ▸ one1074_pos
  have hsum : add one (abs u) = ofRatio false (quanta one + quanta u) 1 := by
    rw [add_finite_pos (by decide) (by simpa [isFinite] using hu) (by decide) (signBit_abs u) (by omega), hq]
  have htop : quanta u ≤ quantaOf 52 (infMag - 1) := (quantaOf_strictMono 52).monotone (by omega)
  have hstep : 2 * quanta one + quantaOf 52 (infMag - 1) < quantaOf 52 (infMag - 1 + 1) := by decide +kernel
  have hover : ¬ infMag - 1 < roundMag 52 (quanta one + quanta u) 1 := by
    rw [lt_roundMag_iff (by decide) one_pos]
    omega
  have hge_one : magBits one ≤ roundMag 52 (quanta one + quanta u) 1 := le_roundMag one_pos (by rw [← quanta]; omega)
  have hge : magBits u ≤ roundMag 52 (quanta one + quanta u) 1 := le_roundMag one_pos (by rw [← quanta]; omega)
  have hbits : magBits (add one (abs u)) = roundMag 52 (quanta one + quanta u) 1 := by
    rw [hsum, magBits_ofRatio]
    exact Nat.min_eq_left ((Nat.not_lt.mp hover).trans (Nat.sub_le _ _))
  have hmag_one : 0 < magBits one := by decide
  exact ⟨decide_eq_true (by omega), by omega, by omega⟩

end Sys2Proof.F64

namespace Sys2Proof.Machine

open F64

/-! ## `SAT` in binary64 -/

theorem saturate_arithF64 (limit v : Num64) :
    saturate arithF64 limit v = mul limit (div (div v limit) (add one (abs (div v limit)))) := rfl

/-- `u / (1 + |u|)` is at most 1 in magnitude, so finite (R211). -/
theorem magBits_softSign_le {u : Num64} (hu : isFinite u = true) :
    magBits (div u (add one (abs u))) ≤ magBits one ∧ isFinite (div u (add one (abs u))) = true := by
  obtain ⟨hfin, hne, hle⟩ := one_add_abs hu
  have hone : magBits (div u (add one (abs u))) ≤ magBits one := magBits_div_le_one hu hfin hne hle
  have : magBits one < infMag := by decide
  exact ⟨hone, decide_eq_true (by omega)⟩

/-! ## `SAT` in the reference arithmetic -/

/-- For a positive limit both divisions of R211 are by positive numbers, and `SAT` is one fraction. -/
theorem saturate_arithReal {limit : ℝ} (hl : 0 < limit) (v : ℝ) : saturate arithReal limit v = limit * v / (limit + |v|) := by
  have hpos : 0 < 1 + |v / limit| := by positivity
  have hsum : 0 < limit + |v| := by positivity
  simp only [saturate, arithReal_div, arithReal_mul, arithReal_add, arithReal_one, arithReal_abs, divReal_of_ne _ hl.ne',
    divReal_of_ne _ hpos.ne']
  rw [abs_div, abs_of_pos hl]
  field_simp

/-- Of two values the smaller, weighted with the magnitude of the other, is not the larger. -/
theorem mul_abs_le_mul_abs {a b : ℝ} (h : a ≤ b) : a * |b| ≤ b * |a| := by
  rcases le_total 0 a with ha | ha
  · rw [abs_of_nonneg ha, abs_of_nonneg (ha.trans h), mul_comm]
  · calc a * |b| ≤ b * -a := by linarith [mul_le_mul_of_nonpos_left (neg_abs_le b) ha]
      _ = b * |a| := by rw [abs_of_nonpos ha]

/-- `SAT` is strictly increasing: crosswise the fractions differ by `LIMIT * (b - a)` and a term that is not negative (R212). -/
theorem strictMono_saturate {limit : ℝ} (hl : 0 < limit) : StrictMono (saturate arithReal limit) := by
  intro a b hab
  rw [saturate_arithReal hl, saturate_arithReal hl, div_lt_div_iff₀ (by positivity) (by positivity)]
  calc limit * a * (limit + |b|) = limit * (limit * a + a * |b|) := by ring
    _ < limit * (limit * b + b * |a|) :=
        mul_lt_mul_of_pos_left (add_lt_add_of_lt_of_le (mul_lt_mul_of_pos_left hab hl) (mul_abs_le_mul_abs hab.le)) hl
    _ = limit * b * (limit + |a|) := by ring

/-- The factor of `SAT` on the magnitude is `LIMIT / (LIMIT + |v|)`: what it takes away is `v^2 / (LIMIT + |v|)` (R212). -/
theorem abs_sub_abs_saturate {limit : ℝ} (hl : 0 < limit) (v : ℝ) :
    |v| - |saturate arithReal limit v| = v ^ 2 / (limit + |v|) := by
  have hsum : 0 < limit + |v| := by positivity
  rw [saturate_arithReal hl, abs_div, abs_mul, abs_of_pos hl, abs_of_pos hsum, ← sq_abs v]
  field_simp
  ring

end Sys2Proof.Machine

namespace Sys2Proof

open Machine

/-- Settles O50: a sign passes through each operation of `SAT`; the inner quotient is at most 1 in magnitude, so the product with the
limit is no larger than the limit. -/
theorem saturationOddAndBounded : Obligations.SaturationOddAndBounded := by
  unfold Obligations.SaturationOddAndBounded
  intro limit v hlimit hv hu
  obtain ⟨hlf, hls, hl0⟩ := F64.isPositive_iff.mp hlimit
  obtain ⟨hdf, hd0, -⟩ := F64.one_add_abs hu
  obtain ⟨hle, hfin⟩ := magBits_softSign_le hu
  simp only [saturate_arithF64]
  constructor
  · rw [F64.div_neg_left hv hlf hl0, F64.abs_neg_bits, F64.div_neg_left hu hdf hd0, F64.mul_neg_right hlf hfin]
  · exact F64.between_of_magBits_le hls hlf (F64.magBits_mul_le hlf hfin hle)

/-- Settles O51: `SAT` is `LIMIT * v / (LIMIT + |v|)`, and what it takes off the magnitude of `v` is 0 only for `v = 0`. -/
theorem saturationReal : Obligations.SaturationReal := by
  unfold Obligations.SaturationReal
  intro limit hl
  refine ⟨fun v => abs_lt.mp (abs_saturate_lt hl v), strictMono_saturate hl, fun v => ?_, fun v => ?_⟩
  · rw [saturate_arithReal hl, saturate_arithReal hl, abs_neg, mul_neg, neg_div]
  · have hloss := abs_sub_abs_saturate hl v
    have hsum : 0 < limit + |v| := by positivity
    constructor
    · rw [← sub_nonneg, hloss]
      positivity
    · rw [eq_comm, ← sub_eq_zero, hloss, div_eq_zero_iff, or_iff_left hsum.ne', sq_eq_zero_iff]

end Sys2Proof

end

section
/-! `MOD` and `FRAME` (46_cache_modulation.md): the seven steps of `MOD.TAP` (R238, R239), the clamp of the tap, the frame as three
commands (R244), and the sample format beside the state (R245). -/

namespace Sys2Proof.F64

/-- Of two values that are no NaN one is at most the other (R102). -/
theorem le_of_lt_eq_false {a b : Num64} (ha : isNaN a = false) (hb : isNaN b = false) (h : lt a b = false) : le b a = true := by
  rw [lt, ha, hb, Bool.not_false, Bool.true_and, Bool.true_and, decide_eq_false_iff_not, Int.not_lt] at h
  exact le_iff.mpr ⟨hb, ha, h⟩

theorem clamp_arithF64 (t lo hi : Num64) : arithF64.clamp t lo hi = if lt t lo then lo else if lt hi t then hi else t := rfl

/-- A clamp that is no NaN is between its ends (R118). -/
theorem clamp_between {t lo hi : Num64} (hlo : isNaN lo = false) (hhi : isNaN hi = false) (hle : le lo hi = true)
    (ht : isNaN (arithF64.clamp t lo hi) = false) :
    le lo (arithF64.clamp t lo hi) = true ∧ le (arithF64.clamp t lo hi) hi = true := by
  rw [clamp_arithF64] at ht ⊢
  split_ifs at ht ⊢ with hbelow habove
  · exact ⟨le_refl_of_not_nan hlo, hle⟩
  · exact ⟨hle, le_refl_of_not_nan hhi⟩
  · exact ⟨le_of_lt_eq_false ht hlo (by simpa using hbelow), le_of_lt_eq_false hhi ht (by simpa using habove)⟩

@[simp] theorem isNaN_num (i : Int) : isNaN (num i) = false := isNaN_ofRatio _ _ _

/-- A number of at least 0 is at least 0, also where it rounds to an infinity. -/
theorem zero_le_num {i : Int} (hi : 0 ≤ i) : le 0#64 (num i) = true := by
  have hsign : signBit (num i) = false := by rw [num, signBit_ofRatio, decide_eq_false (by omega)]
  have hkey : key 0#64 = 0 := by decide
  exact le_iff.mpr ⟨by decide, isNaN_num i, by rw [hkey, key_eq_signed, hsign, signed_false]; exact Int.natCast_nonneg _⟩

/-- What widens from a finite binary32 pattern is finite (R120). -/
theorem finite_of_ofSingle {w : Single} {x : Num64} (h : ofSingle w = some x) : isFinite x = true := by
  by_cases hw : magBits32 w < infMag32
  · obtain ⟨y, hy, hfin, -, -⟩ := ofSingle_exact hw
    obtain rfl : y = x := Option.some.inj (hy.symm.trans h)
    exact hfin
  · rw [ofSingle_eq_none (Nat.not_lt.mp hw)] at h
    cases h

end Sys2Proof.F64

namespace Sys2Proof.Machine

/-! ## `MOD` -/

/-- A command that needs a prepared block and has none answers `E_NOTREADY` (R293). -/
theorem needBlock_refused {s : State} {k : State → Host.Outcome State Fault Refusal} (h : blkValid s.regs = false) :
    needBlock s k = .next (raise .notReady s) := by
  simp [needBlock, h]

/-- With a prepared block `MOD` is `MOD.TAP` and answers the tap and the morphed value (R239). -/
theorem exec_mod_ready {s : State} (h : blkValid s.regs = true) :
    exec .mod s = .next (respond (modTap arithF64 design s.regs).1.cTap (modTap arithF64 design s.regs).2
      { s with regs := (modTap arithF64 design s.regs).1 }) := by
  rw [exec, execMod, modWith, needBlock_ready h]

/-- Without a prepared block `MOD` changes nothing but the sticky flag (R239, R293). -/
theorem exec_mod_refused {s : State} (h : blkValid s.regs = false) : exec .mod s = .next (raise .notReady s) := by
  rw [exec, execMod, modWith, needBlock_refused h]

/-- The tap is the clamp of the second low-pass's output to the line (R238, step 7). -/
theorem modTap_cTap_eq_clamp {N : Type} (A : Arith N) (cfg : Cfg N) (r : Regs N) :
    ∃ t, (modTap A cfg r).1.cTap = A.clamp t A.zero (A.num ((r.stages : Int) - 1)) :=
  ⟨_, rfl⟩

/-! ## `FRAME` -/

/-- At a finite tap the transform of either channel completes (R117, R214). -/
theorem exists_channelTransform {r : Regs Num64} (h : F64.isFinite r.cTap = true) (c : Chan) (x : Num64) :
    ∃ ch out, channelTransform arithF64 design (channelInputs r) (getChan r c) x = some (ch, out) := by
  obtain ⟨⟨ch, out⟩, htr⟩ := channelTransform_isSome (g := channelInputs r) (ifloor_arithF64 h) (getChan r c) x
  exact ⟨ch, out, htr⟩

/-- A channel's transform on the registers (R214). -/
theorem chProcess_of_transform {N : Type} {A : Arith N} {cfg : Cfg N} {c : Chan} {x out : N} {r : Regs N} {ch : ChannelState N}
    (h : channelTransform A cfg (channelInputs r) (getChan r c) x = some (ch, out)) :
    chProcess A cfg c x r = some (setChan r c ch, out) := by
  rw [chProcess, h, Option.map_some]

/-- The three steps of a frame, each complete (R244). -/
theorem frameRegs_of_chProcess {N : Type} {A : Arith N} {cfg : Cfg N} {x0 x1 o0 o1 : N} {r r0 r1 : Regs N}
    (h0 : chProcess A cfg .zero x0 (modTap A cfg r).1 = some (r0, o0)) (h1 : chProcess A cfg .one x1 r0 = some (r1, o1)) :
    frameRegs A cfg x0 x1 r = some (r1, o0, o1) := by
  simp only [frameRegs, h0, h1]

/-- With a prepared block and two samples, `FRAME` writes the registers of its three steps and answers both outputs (R244). -/
theorem exec_frame_of_frameRegs {s : State} {f : Fmt} {w0 w1 : DataWord} {x0 x1 o0 o1 : Num64} {r : Regs Num64}
    (hv : blkValid s.regs = true) (hx0 : decodeSample f w0 = some x0) (hx1 : decodeSample f w1 = some x1)
    (hr : frameRegs arithF64 design x0 x1 s.regs = some (r, o0, o1)) :
    exec (.frame f w0 w1) s = .next (respond (encodeSample f o0) (encodeSample f o1) { s with regs := r }) := by
  simp only [exec, execFrame, frameWith, needBlock_ready hv, hx0, hx1, hr]

/-! ## The sample format -/

/-- `CHPROC` of a selector above 1 is an illegal command (R286). -/
theorem eq_raise_of_exec_chproc {s t : State} {c : Selector} {f : Fmt} {w : DataWord} (hc : chanOfSel c = none)
    (h : exec (.chproc c f w) s = .next t) : t = raise .illegal s := by
  rcases execChproc_cases h with ⟨-, ht⟩ | ⟨ch, hch, -⟩
  · exact ht
  · rw [hc] at hch
    cases hch

/-- The new state of the channel depends on the value of the sample, not on its word or its format (R245). -/
theorem chprocReply_fst_congr {f f' : Fmt} {w w' : DataWord} (h : decodeSample f w = decodeSample f' w') (ready : Bool)
    (g : ChannelInputs Num64) (ch : ChannelState Num64) :
    (chprocReply ready g ch f w).map Prod.fst = (chprocReply ready g ch f' w').map Prod.fst := by
  unfold chprocReply
  rw [h]
  cases ready with
  | false => rfl
  | true =>
    cases decodeSample f' w' with
    | none => rfl
    | some x => simp only [if_true, Option.map_map, Function.comp_def]

/-- Two `CHPROC` on one state whose samples have the same value, or are both refused, leave the same registers (R245). -/
theorem exec_chproc_regs_congr {s t t' : State} {c : Selector} {f f' : Fmt} {w w' : DataWord}
    (h : decodeSample f w = decodeSample f' w') (ht : exec (.chproc c f w) s = .next t)
    (ht' : exec (.chproc c f' w') s = .next t') : t.regs = t'.regs := by
  cases hc : chanOfSel c with
  | none => rw [eq_raise_of_exec_chproc hc ht, eq_raise_of_exec_chproc hc ht']
  | some ch =>
    obtain ⟨⟨a, ha, -⟩, -⟩ := exec_chproc_eq_reply hc ht
    obtain ⟨⟨a', ha', -⟩, -⟩ := exec_chproc_eq_reply hc ht'
    have hflags : chprocFlags (blkValid s.regs) f w = chprocFlags (blkValid s.regs) f' w' := by rw [chprocFlags, chprocFlags, h]
    have hchan : getChan t.regs ch = getChan t'.regs ch := by
      have hfst := chprocReply_fst_congr h (blkValid s.regs) (channelInputs s.regs) (getChan s.regs ch)
      rw [ha, ha'] at hfst
      exact Option.some.inj hfst
    rw [(exec_chproc_regs hc ht).1, (exec_chproc_regs hc ht').1, hflags, hchan]

end Sys2Proof.Machine

namespace Sys2Proof

open Machine

/-- Settles O23: the word is the encoder's for `MOD`, and the prepared block decides between `MOD.TAP`, whose steps are those of R238,
and `E_NOTREADY`. -/
theorem modAdvancesModulation : Obligations.ModAdvancesModulation := by
  unfold Obligations.ModAdvancesModulation
  refine ⟨fun d0 d1 => decode_eq_ok_iff.mpr ⟨rfl, rfl, rfl, rfl⟩, fun s => ⟨fun h => ?_, fun h => ?_⟩⟩
  · exact exec_mod_ready h
  · exact exec_mod_refused h

/-- Settles O24: the ends of the clamp are 0 and a number of at least 0, so it keeps every tap that is no NaN between them. -/
theorem tapIsClamped : Obligations.TapIsClamped := by
  unfold Obligations.TapIsClamped
  intro s t hstages hv ht hnan
  obtain rfl := Host.Outcome.next.inj ((exec_mod_ready hv).symm.trans ht)
  obtain ⟨u, htap⟩ := modTap_cTap_eq_clamp arithF64 design s.regs
  simp only [respond_regs, htap] at hnan ⊢
  exact F64.clamp_between (by decide) (F64.isNaN_num _) (F64.zero_le_num (by omega)) hnan

/-- Settles O27: a channel's transform keeps the tap finite and the block prepared, so each command completes, and `FRAME` runs the
same three operations on the registers. -/
theorem frameIsModThenChannels : Obligations.FrameIsModThenChannels := by
  unfold Obligations.FrameIsModThenChannels
  intro s f w0 w1 x0 x1 hv hx0 hx1 htap
  obtain ⟨ch0, out0, htr0⟩ := exists_channelTransform htap .zero x0
  obtain ⟨ch1, out1, htr1⟩ := exists_channelTransform (r := setChan (modTap arithF64 design s.regs).1 .zero ch0) htap .one x1
  have hframe := frameRegs_of_chProcess (chProcess_of_transform htr0) (chProcess_of_transform htr1)
  exact ⟨_, _, _, _, _, exec_mod_ready hv, exec_chproc_of_transform rfl hv hx0 htr0, exec_chproc_of_transform rfl hv hx1 htr1,
    rfl, rfl, exec_frame_of_frameRegs hv hx0 hx1 hframe⟩

/-- Settles O31: the widened sample is finite, so in binary64 it is read as itself, and both commands work on one value. -/
theorem formatDoesNotTouchState : Obligations.FormatDoesNotTouchState := by
  unfold Obligations.FormatDoesNotTouchState
  intro s t t' c w x hx ht ht'
  exact exec_chproc_regs_congr (hx.trans (decodeSample_binary64 x (F64.finite_of_ofSingle hx)).symm) ht ht'

end Sys2Proof
end

section
/-! The Cache (46_cache_modulation.md): the eight steps of an uninterrupted `BLOCK` (R230 to R235; entry 8), and smoothing in the
reference arithmetic (R232, R236). -/

namespace Sys2Proof.Machine

/-! ## The loads and the computation -/

/-- The machine `s` with a `BLOCK` in progress that has made the load of index `l`, and the agents to come. -/
def loading (s : State) (l : Nat) (agents : List Agent) : State :=
  { s with blk := some (loadsUpTo s.regs.p l), resp := none, sched := agents }

/-- A step of CORE makes the next load and nothing else (R70). -/
theorem step_loading {s : State} {l : Nat} {rest : List Agent} (hl : l < 6) :
    step (loading s l (.core :: rest)) = .next (loading s (l + 1) rest) := by
  obtain ⟨q, hq⟩ := exists_paramOrder (show l + 1 < 7 by omega)
  rw [step_core_block rfl rfl (blockResume_loadsUpTo hq rfl), deliver_of_resp_none rfl]
  rfl

/-- `j` steps of CORE make the next `j` loads (R70). -/
theorem run_loading {s : State} {l j n : Nat} {rest : List Agent} (hj : l + j ≤ 6) :
    core.run (j + n) (loading s l (List.replicate j .core ++ rest)) = core.run n (loading s (l + j) rest) := by
  induction j generalizing l with
  | zero => rw [Nat.zero_add]; rfl
  | succ j ih =>
    rw [Nat.add_right_comm, List.replicate_succ, List.cons_append, run_succ_of_step (step_loading (by omega)), ih (by omega),
      Nat.add_right_comm, Nat.add_assoc]

/-- After the seventh load a step of CORE is `CACHE.BLOCK` on the parameters, and its response goes to the audio port (R81, R230). -/
theorem step_loading_last {s : State} {r : Regs Num64} {rest : List Agent}
    (hr : cacheBlock arithF64 design s.regs.p s.regs = some r) :
    step (loading s 6 (.core :: rest)) = .next { s with
      regs := r, blk := none, resp := none, sched := rest
      audio := ⟨s.audio.waiting, ⟨stOk, intResult r.stages, 0#64⟩ :: s.audio.answered⟩ } := by
  have hu := blockResume_loadsUpTo_last (s := loading s 6 rest) hr
  rw [step_core_block rfl rfl hu]
  rfl

/-- A finite product `RATE * T_MAX` has a floor, which gives the stage count (R117, R234). -/
theorem stageCount_of_finite {rate : Num64} (h : F64.isFinite (F64.mul rate design.tMax) = true) :
    stageCount arithF64 design rate =
      some (max 1 (min (F64.toInt (F64.mul rate design.tMax) / 2 ^ 1074) (design.dlCap : Int))).toNat :=
  congrArg (Option.map fun i => (max 1 (min i (design.dlCap : Int))).toNat) (ifloor_arithF64 h)

/-- An infinity or a NaN has no floor, on the hardware (R110, R117). -/
theorem ifloor_arithF64_eq_none {t : Num64} (h : F64.isFinite t = false) : arithF64.ifloor t = none :=
  if_neg (by simp [h])

/-- Where the product is not finite there is no stage count (R110, R117). -/
theorem stageCount_of_not_finite {rate : Num64} (h : F64.isFinite (F64.mul rate design.tMax) = false) :
    stageCount arithF64 design rate = none :=
  congrArg (Option.map fun i => (max 1 (min i (design.dlCap : Int))).toNat) (ifloor_arithF64_eq_none h)

/-! ## Smoothing in the reference arithmetic -/

theorem smooth_arithReal (k c target : ℝ) : smooth arithReal k c target = c + (target - c) * k := rfl

/-- One block keeps the part `1 - k` of the distance from the target (R236). -/
theorem smooth_sub (k c target : ℝ) : smooth arithReal k c target - target = (1 - k) * (c - target) := by
  rw [smooth_arithReal]
  ring

/-- A smoothed value lies between the old value and the target, so `[0, 1]` is kept (R236). -/
theorem smooth_mem_unit {k c target : ℝ} (hk : k ∈ Set.Icc (0 : ℝ) 1) (hc : c ∈ Set.Icc (0 : ℝ) 1)
    (ht : target ∈ Set.Icc (0 : ℝ) 1) : smooth arithReal k c target ∈ Set.Icc (0 : ℝ) 1 := by
  rw [smooth_arithReal, mul_comm]
  exact (convex_Icc 0 1).add_smul_sub_mem hc ht hk

end Sys2Proof.Machine

namespace Sys2Proof

open Machine

/-- Settles O19: `BLOCK` makes the first load, six steps of CORE the others, and the seventh is `CACHE.BLOCK` on them; that has no
value only where the stage count has none. -/
theorem blockCompletes : Obligations.BlockCompletes := by
  unfold Obligations.BlockCompletes
  refine ⟨fun s rest hs hv hfin => ?_, fun s p0 p1 p2 p3 p4 p5 p6 hinf => ?_⟩
  · intro floor stages
    have hcount : stageCount arithF64 design s.regs.rate = some stages := stageCount_of_finite hfin
    obtain ⟨r, hr⟩ : ∃ r, cacheBlock arithF64 design s.regs.p s.regs = some r :=
      ⟨_, by rw [cacheBlock, hcount, Option.map_some]⟩
    obtain ⟨n, hn, hregs⟩ := cacheBlock_eq_some hr
    obtain rfl : n = stages := Option.some.inj (hn.symm.trans hcount)
    have hstart : { s with blk := some (.one s.regs.p.sine), resp := none } =
        loading s 0 (List.replicate 6 .core ++ .core :: rest) := by
      rw [loading, ← show s.sched = List.replicate 6 .core ++ .core :: rest from hs]
      rfl
    refine ⟨_, exec_block_of_rate hv, rfl, ?_⟩
    calc core.run 7 _ = core.run (6 + 1) (loading s 0 (List.replicate 6 .core ++ .core :: rest)) := congrArg (core.run 7) hstart
      _ = core.run (0 + 1) (loading s 6 (.core :: rest)) := run_loading (n := 1) (by omega)
      _ = core.run 0 _ := run_succ_of_step (step_loading_last hr)
      _ = _ := by rw [hregs]; rfl
  · simp only [blockResume, blockResumeWith, cacheBlock, stageCount_of_not_finite hinf, Option.map_none]

/-- Settles O54: the iterate of the map that keeps `1 - k` of the distance keeps `(1 - k) ^ N` of it, and maps `[0, 1]` to itself. -/
theorem smoothingApproachesTarget : Obligations.SmoothingApproachesTarget := by
  unfold Obligations.SmoothingApproachesTarget
  intro k c target hk0 hk1
  refine ⟨iterate_sub_eq_pow_mul (fun c => smooth_sub k c target) c, fun hc0 hc1 ht0 ht1 N => ?_, fun h => ?_⟩
  · have hmaps : Set.MapsTo (fun c => smooth arithReal k c target) (Set.Icc 0 1) (Set.Icc 0 1) :=
      fun _ hc => smooth_mem_unit ⟨hk0.le, hk1⟩ hc ⟨ht0, ht1⟩
    exact hmaps.iterate N ⟨hc0, hc1⟩
  · rw [← sub_eq_zero, smooth_sub, h, sub_self, zero_mul]

end Sys2Proof
end

section
/-! The commands of the lifecycle and of the parameters (47_host_commands.md): each with its word, its answer and its refusals (R255 to
R259), and the readiness flags over all commands (R262). -/

namespace Sys2Proof.Machine

/-! ## Legal values on the hardware (R256, R258) -/

theorem isPositive_arithF64 {v : Num64} : arithF64.isPositive v = true ↔ F64.isFinite v = true ∧ F64.lt 0#64 v = true := by
  rw [Arith.isPositive, Bool.and_eq_true]
  rfl

theorem isBetween_arithF64 {lo hi v : Num64} :
    arithF64.isBetween lo hi v = true ↔ F64.isFinite v = true ∧ F64.le lo v = true ∧ F64.le v hi = true := by
  rw [Arith.isBetween, Bool.and_eq_true, Bool.and_eq_true, and_assoc]
  rfl

/-! ## The commands, branch by branch -/

/-- A `SETRATE` of a finite rate above 0 is accepted (R256). -/
theorem exec_setrate_of_positive {s : State} {v : DataWord} (hv : arithF64.isPositive v = true) :
    exec (.setrate v) s = .next (respond 0#64 0#64 { s with regs := acceptRate v s.regs }) := by
  simp [exec, execSetrate, hv]

/-- A `SETRATE` of any other rate is refused (R256, R288). -/
theorem exec_setrate_refused {s : State} {v : DataWord} (hv : arithF64.isPositive v = false) :
    exec (.setrate v) s = .next (raise .badRate s) := by
  simp [exec, execSetrate, hv]

/-- A `WRPAR` of a value outside the parameter's legal set is refused (R257, R289). -/
theorem exec_wrpar_refused {s : State} {p : Selector} {q : Param} {v : DataWord} (hq : paramOfSel p = some q)
    (hv : arithF64.isLegal q v = false) : exec (.wrpar p v) s = .next (raise .range s) := by
  simp [exec, execWrpar, hq, hv]

/-- A selector of 0 to 6 names a parameter (R89). -/
theorem exists_paramOfSel {p : Selector} (h : isParamSel p = true) : ∃ q, paramOfSel p = some q :=
  Option.isSome_iff_exists.mp ((paramOfSel_isSome p).trans h)

/-- Storing what a parameter register holds leaves the registers as they are (R66). -/
theorem parStore_parLoad {N : Type} (r : Regs N) (q : Param) : parStore r q (parLoad r q) = r := by
  cases q <;> rfl

/-! ## The readiness flags (R262) -/

/-- After reset there is neither a rate nor a prepared block (R40). -/
theorem ready_reset : rateValid State.reset.regs = false ∧ blkValid State.reset.regs = false := ⟨rfl, rfl⟩

/-- No command but `INIT` and `SETRATE` moves a readiness flag; `exec` of `BLOCK` is its first load (entry 8). -/
theorem ready_of_exec {i : Instr} {s t : State} (h : exec i s = .next t) (hinit : i ≠ .init) (hrate : ∀ v, i ≠ .setrate v) :
    rateValid t.regs = rateValid s.regs ∧ blkValid t.regs = blkValid s.regs := by
  rcases exec_writes h with ⟨e, rfl⟩ | ⟨hi, -⟩ | ⟨-, -, rfl⟩ | ⟨q0, q1, r, hw, rfl⟩
  · exact ⟨rateValid_raise e s, blkValid_raise e s⟩
  · exact absurd hi hinit
  · exact ⟨rfl, rfl⟩
  · rcases hw.keepsSettings with ⟨v, hi, -⟩ | ⟨p, q, v, -, -, rfl⟩ | hk
    · exact absurd hi (hrate v)
    · exact ⟨rfl, rfl⟩
    · exact ⟨congrArg (getFlag · .rateValid) hk.status, congrArg (getFlag · .blkValid) hk.status⟩

end Sys2Proof.Machine

namespace Sys2Proof

open Machine

/-- The words of the parameter commands, as R257 and R259 write them, are the encoder's. -/
theorem encode_parameter_cmd {k : Nat} (hk : k < 7) (v : DataWord) :
    (encode (.wrpar (BitVec.ofNat 8 k) v)).cmd = 0x03000000#32 ||| BitVec.ofNat 32 (k * 65536) ∧
    (encode (.rdpar (BitVec.ofNat 8 k))).cmd = 0x04000000#32 ||| BitVec.ofNat 32 (k * 65536) := by
  have all : ∀ j : Fin 7,
      cmdWord 0x03#8 (BitVec.ofNat 8 j) 0#1 = 0x03000000#32 ||| BitVec.ofNat 32 (j * 65536) ∧
      cmdWord 0x04#8 (BitVec.ofNat 8 j) 0#1 = 0x04000000#32 ||| BitVec.ofNat 32 (j * 65536) := by decide
  exact all ⟨k, hk⟩

/-- A parameter command decodes on both ports (R81). -/
theorem decode_parameter_command {i : Instr} (hi : (∃ p v, i = .wrpar p v) ∨ ∃ p, i = .rdpar p) (hw : i.wellFormed = true)
    (port : Port) (d0 d1 : DataWord) : decode port (encode i).cmd d0 d1 = .ok (i.withOperands d0 d1) := by
  refine decode_encode hw ?_ d0 d1
  cases port with
  | audio => rfl
  | control => exact portAccepts_control_encode hi

/-- The index of a parameter is a selector the decoder lets through (R89, R90). -/
theorem isParamSel_of_paramOrder {k : Nat} {q : Param} (h : paramOrder[k]? = some q) : isParamSel (BitVec.ofNat 8 k) = true := by
  rw [← paramOfSel_isSome, paramOfSel_of_paramOrder h, Option.isSome_some]

/-- Settles O13: the word is the encoder's for `INIT`, whose opcode the control port does not accept, and the command has one
outcome. -/
theorem initRestoresReset : Obligations.InitRestoresReset := by
  unfold Obligations.InitRestoresReset
  refine ⟨fun d0 d1 i => ⟨decode_eq_ok_iff.mpr ⟨rfl, rfl, rfl, rfl⟩, fun h => ?_⟩, fun s => rfl⟩
  have haccepts := (checks_of_decode_ok h).2
  exact absurd haccepts (by decide)

/-- Settles O14: the word is the encoder's for `SETRATE`, and the rate decides between the two branches. -/
theorem setrateStoresOrRefuses : Obligations.SetrateStoresOrRefuses := by
  unfold Obligations.SetrateStoresOrRefuses
  refine ⟨fun r d1 => decode_eq_ok_iff.mpr ⟨rfl, rfl, rfl, rfl⟩, fun r s => ?_⟩
  rw [← isPositive_arithF64]
  refine ⟨fun hv => ?_, fun hv => ?_⟩
  · exact exec_setrate_of_positive hv
  · exact exec_setrate_refused (Bool.eq_false_of_not_eq_true hv)

/-- Settles O15: a fault and an answer that is no rate leave both flags, and the last step of a `BLOCK`, which alone ends it, sets
`BLK_VALID` only. -/
theorem lifecycleFlags : Obligations.LifecycleFlags := by
  unfold Obligations.LifecycleFlags
  refine ⟨fun i s t h => ?_, fun b s t h => ?_⟩
  · cases i with
    | init =>
      have hregs : t.regs = State.reset.regs := by
        rw [execInit_cases h]
        rfl
      obtain ⟨hrate, hblk⟩ := ready_reset
      rw [hregs, hrate, hblk]
    | setrate v =>
      simp only [← isPositive_arithF64]
      rcases execSetrate_cases h with ⟨hv, rfl⟩ | ⟨hv, rfl⟩
      · simp [hv]
      · simp [hv]
    | wrpar | rdpar | block | mod | chproc | frame | ostep | onext | snap | restore | rdst | rddl =>
      obtain ⟨hrate, hblk⟩ := ready_of_exec h (by simp) (by simp)
      rw [hrate, hblk]
  · rcases blockResume_cases h with ⟨b', q, -, rfl⟩ | ⟨p0, p1, p2, p3, p4, p5, p6, r, -, hr, rfl⟩
    · exact ⟨rfl, by simp⟩
    · obtain ⟨n, -, rfl⟩ := cacheBlock_eq_some hr
      simp [rateValid, blkValid, getFlag_setFlag]

/-- Settles O16: the index names its parameter, the word is the encoder's, and legality decides between the store and `E_RANGE`. -/
theorem wrparStoresOrRefuses : Obligations.WrparStoresOrRefuses := by
  unfold Obligations.WrparStoresOrRefuses
  intro k q v s hk legal
  have hq : paramOfSel (BitVec.ofNat 8 k) = some q := paramOfSel_of_paramOrder hk
  obtain ⟨hlt, -⟩ := List.getElem?_eq_some_iff.mp hk
  have hlegal : legal ↔ arithF64.isLegal q v = true := by
    cases q with
    | freq => exact isPositive_arithF64.symm
    | sine | duty | len | depth | mix | fb => exact isBetween_arithF64.symm
  refine ⟨fun port d1 => ?_, fun hv => ?_, fun hv => ?_⟩
  · rw [← (encode_parameter_cmd hlt v).1]
    exact decode_parameter_command (.inl ⟨_, _, rfl⟩) (isParamSel_of_paramOrder hk) port v d1
  · exact ⟨setParam s.regs.p q v, exec_wrpar_of_legal hq (hlegal.mp hv), fun q' => getParam_setParam s.regs.p q q' v⟩
  · exact exec_wrpar_refused hq (Bool.eq_false_of_not_eq_true (hv ∘ hlegal.mpr))

/-- Settles O17: the index names its parameter, and the word is the encoder's. -/
theorem rdparReadsParameter : Obligations.RdparReadsParameter := by
  unfold Obligations.RdparReadsParameter
  intro k q s hk
  obtain ⟨hlt, -⟩ := List.getElem?_eq_some_iff.mp hk
  refine ⟨fun port d0 d1 => ?_, exec_rdpar_of_param (paramOfSel_of_paramOrder hk)⟩
  rw [← (encode_parameter_cmd hlt d0).2]
  exact decode_parameter_command (.inr ⟨_, rfl⟩) (isParamSel_of_paramOrder hk) port d0 d1

/-- Settles O18: `RDPAR` answers the legal value of its parameter, and storing that value where it came from changes nothing. -/
theorem parameterRoundTrip : Obligations.ParameterRoundTrip := by
  unfold Obligations.ParameterRoundTrip
  intro p s t a hp hlegal ht ha
  obtain ⟨q, hq⟩ := exists_paramOfSel hp
  obtain rfl := Host.Outcome.next.inj ((exec_rdpar_of_param hq).symm.trans ht)
  obtain rfl := Option.some.inj ha
  rw [exec_wrpar_of_legal hq (hlegal q), respond_regs, parStore_parLoad]
  rfl

end Sys2Proof
end

section
/-! `RDST` on the map of R38 (R261): the numbers that name a register, and what each answers. -/

namespace Sys2Proof.Machine

/-- The registers below the channels that are words of the state or constants, with their numbers; `RATE` and `STATUS` stand apart
(R38). -/
def storedRegs : List (Nat × RegName) :=
  [(0x00, .par .sine), (0x01, .par .freq), (0x02, .par .duty), (0x03, .par .len), (0x04, .par .depth), (0x05, .par .fb),
    (0x06, .par .mix), (0x09, .stages), (0x0A, .cDepth), (0x0B, .cLen), (0x0C, .cTap), (0x0D, .bSine), (0x0E, .bFb),
    (0x0F, .bMix), (0x10, .oscW), (0x11, .oscDuty), (0x12, .oscPhase), (0x13, .oscSnap), (0x14, .wsel), (0x15, .lfoS),
    (0x16, .fdS)]

/-- The derived coefficients with their numbers (R36, R38). -/
def coefRegs : List (Nat × RegName) :=
  [(0x20, .coef .gIn), (0x21, .coef .gChp), (0x22, .coef .gClp), (0x23, .coef .b0), (0x24, .coef .a1), (0x25, .coef .a2),
    (0x26, .coef .gFb), (0x27, .coef .gLfo), (0x28, .coef .gFd)]

/-- The registers of a channel with their offsets from its base (R38). -/
def chanRegs : List (Nat × ChanReg) :=
  [(0x0, .inS), (0x1, .f1HpS), (0x2, .f1LpS), (0x3, .f1Z1), (0x4, .f1Z2), (0x5, .f2HpS), (0x6, .f2LpS), (0x7, .f2Z1),
    (0x8, .f2Z2), (0x9, .fbS), (0xA, .dlTap), (0xB, .dlN)]

/-- The number of a channel's first register (R38). -/
def chanBase : Chan → Nat
  | .zero => 0x40
  | .one => 0x50

theorem regOfSel_storedRegs : ∀ x ∈ storedRegs, regOfSel (BitVec.ofNat 8 x.1) = some x.2 ∧ needsRate x.2 = false := by decide

theorem regOfSel_coefRegs : ∀ x ∈ coefRegs, regOfSel (BitVec.ofNat 8 x.1) = some x.2 := by decide

theorem regOfSel_chanRegs (c : Chan) : ∀ x ∈ chanRegs, regOfSel (BitVec.ofNat 8 (chanBase c + x.1)) = some (.chan c x.2) := by
  cases c <;> decide

/-- A register that needs no rate is read in any state (R261). -/
theorem exec_rdst_of_stored {s : State} {r : Selector} {n : RegName} (hn : regOfSel r = some n) (hk : needsRate n = false) :
    exec (.rdst r) s = .next (respond (regValue design s.regs n) 0#64 s) :=
  exec_rdst_of_reg hn fun h => absurd (hk.symm.trans h) Bool.false_ne_true

end Sys2Proof.Machine

namespace Sys2Proof

open Machine

/-- Settles O39: each row of the statement pairs the number of a register of the map with that register's value. -/
theorem rdstReadsMap : Obligations.RdstReadsMap := by
  unfold Obligations.RdstReadsMap
  intro s r ans
  refine ⟨?_, exec_rdst_of_stored (n := .rate) rfl rfl, exec_rdst_of_stored (n := .status) rfl rfl, ?_, fun hrate => ?_⟩
  · have hmap : ∀ nv ∈ storedRegs.map fun x => (x.1, regValue design r x.2), exec (.rdst (BitVec.ofNat 8 nv.1)) s = ans nv.2 := by
      refine List.forall_mem_map.mpr fun x hx => ?_
      obtain ⟨hn, hk⟩ := regOfSel_storedRegs x hx
      exact exec_rdst_of_stored hn hk
    exact hmap
  · have hchan (c : Chan) : ∀ nv ∈ chanRegs.map fun x => (x.1, chanRegValue (getChan r c) x.2),
        exec (.rdst (BitVec.ofNat 8 (chanBase c + nv.1))) s = ans nv.2 :=
      List.forall_mem_map.mpr fun x hx => exec_rdst_of_stored (regOfSel_chanRegs c x hx) rfl
    exact List.forall_mem_cons.mpr ⟨hchan .zero, List.forall_mem_singleton.mpr (hchan .one)⟩
  · have hcoef : ∀ nv ∈ coefRegs.map fun x => (x.1, regValue design r x.2), exec (.rdst (BitVec.ofNat 8 nv.1)) s = ans nv.2 :=
      List.forall_mem_map.mpr fun x hx => exec_rdst_of_reg (regOfSel_coefRegs x hx) fun _ => hrate
    exact hcoef

end Sys2Proof
end

section
/-! The faults (60_exceptions.md): what a refused command changes (R290), which flag each command needs (R293), and the non-finite
samples and taps (R110, R294). -/

namespace Sys2Proof.Machine

/-! ## Codes and flags -/

/-- The codes of R285 with the masks of their flags (R37). -/
theorem faultSt_flagMask_mem (e : FaultCode) :
    (faultSt e, flagMask (faultFlag e)) ∈
      [(1#8, 0x0100#16), (2#8, 0x0200#16), (3#8, 0x0400#16), (4#8, 0x0800#16), (5#8, 0x1000#16)] := by
  cases e <;> decide

/-! ## Illegal selectors (R286) -/

/-- A selector outside its range names nothing, so `exec` of its command answers `E_ILLEGAL` (R286, entry 17). -/
theorem exec_of_not_wellFormed {i : Instr} (s : State) (h : i.wellFormed = false) : exec i s = .next (raise .illegal s) := by
  cases i with
  | init | setrate | block | mod | frame | ostep | onext | snap | restore => exact absurd h (by simp [Instr.wellFormed])
  | wrpar p v =>
    have hp : paramOfSel p = none := by simpa using (paramOfSel_isSome p).trans h
    simp [exec, execWrpar, hp]
  | rdpar p =>
    have hp : paramOfSel p = none := by simpa using (paramOfSel_isSome p).trans h
    simp [exec, execRdpar, hp]
  | chproc c f w =>
    have hc : chanOfSel c = none := by simpa using (chanOfSel_isSome c).trans h
    simp [exec, execChproc, chprocWith, hc]
  | rdst r =>
    have hr : regOfSel r = none := by simpa using (regOfSel_isSome r).trans h
    simp [exec, execRdst, rdstWith, hr]
  | rddl c k =>
    have hc : chanOfSel c = none := by simpa using (chanOfSel_isSome c).trans h
    simp [exec, execRddl, hc]

/-- Selectors 0 and 1 name a channel (R89). -/
theorem exists_chanOfSel {c : Selector} (h : c.toNat ≤ 1) : ∃ ch, chanOfSel c = some ch :=
  Option.isSome_iff_exists.mp ((chanOfSel_isSome c).trans (decide_eq_true h))

/-- A number of the map names a register (R38). -/
theorem exists_regOfSel {r : Selector} (h : isRegSel r = true) : ∃ n, regOfSel r = some n :=
  Option.isSome_iff_exists.mp ((regOfSel_isSome r).trans h)

/-! ## Readiness (R293) -/

/-- The registers that need a rate are those numbered 0x20 to 0x28 (R36, R38). -/
theorem any_needsRate_regOfSel (r : Selector) :
    (regOfSel r).any needsRate = decide (0x20 ≤ r.toNat ∧ r.toNat ≤ 0x28) := by
  revert r; decide +kernel

/-- Without a rate `BLOCK` loads nothing (R230, R293). -/
theorem exec_block_refused {s : State} (h : rateValid s.regs = false) : exec .block s = .next (raise .notReady s) := by
  rw [exec, execBlock, needRate_refused h]

/-- Without a rate `RDST` of a coefficient has no value to answer (R261, R293). -/
theorem exec_rdst_refused {s : State} {r : Selector} {n : RegName} (hn : regOfSel r = some n) (hk : needsRate n = true)
    (h : rateValid s.regs = false) : exec (.rdst r) s = .next (raise .notReady s) := by
  simp [exec, execRdst, rdstWith, hn, hk, needRate_refused h]

/-- Without a prepared block `CHPROC` does not read its sample (R215, R293). -/
theorem exec_chproc_refused {s : State} {c : Selector} {ch : Chan} (hc : chanOfSel c = some ch) (f : Fmt) (w : DataWord)
    (h : blkValid s.regs = false) : exec (.chproc c f w) s = .next (raise .notReady s) := by
  simp [exec, execChproc, chprocWith, hc, chprocOn, needBlock_refused h]

/-- Without a prepared block `FRAME` does not read its samples (R244, R293). -/
theorem exec_frame_refused {s : State} (f : Fmt) (w0 w1 : DataWord) (h : blkValid s.regs = false) :
    exec (.frame f w0 w1) s = .next (raise .notReady s) := by
  simp [exec, execFrame, frameWith, needBlock_refused h]

/-- The command completes, with a response other than `E_NOTREADY`. -/
def CompletesReady (o : Host.Outcome State Fault Refusal) : Prop :=
  ∃ t a, o = .next t ∧ t.resp = some a ∧ a.st ≠ faultSt .notReady

theorem completesReady_respond (q0 q1 : DataWord) (s : State) : CompletesReady (.next (respond q0 q1 s)) :=
  ⟨_, _, rfl, rfl, (faultSt_ne_ok .notReady).symm⟩

theorem completesReady_raise {e : FaultCode} (he : e ≠ .notReady) (s : State) : CompletesReady (.next (raise e s)) :=
  ⟨_, _, rfl, rfl, fun h => he (faultSt_injective _ _ h)⟩

/-- The commands that need no flag (R293). -/
def NeedsNothing : Instr → Prop
  | .init | .setrate _ | .wrpar _ _ | .rdpar _ | .snap | .restore | .rddl _ _ => True
  | .rdst r => ¬(0x20 ≤ r.toNat ∧ r.toNat ≤ 0x28)
  | .block | .mod | .chproc _ _ _ | .frame _ _ _ | .ostep | .onext => False

/-- A command that needs no flag is answered in any state, by its result or by a fault of its word or its operand (R293). -/
theorem completesReady_exec {i : Instr} (s : State) (h : NeedsNothing i) : CompletesReady (exec i s) := by
  by_cases hw : i.wellFormed = true
  case neg =>
    rw [exec_of_not_wellFormed s (Bool.eq_false_of_not_eq_true hw)]
    exact completesReady_raise (by decide) s
  cases i with
  | init | snap | restore => exact completesReady_respond _ _ _
  | setrate v =>
    cases hv : arithF64.isPositive v with
    | true =>
      rw [exec_setrate_of_positive hv]
      exact completesReady_respond _ _ _
    | false =>
      rw [exec_setrate_refused hv]
      exact completesReady_raise (by decide) s
  | wrpar p v =>
    obtain ⟨q, hq⟩ := exists_paramOfSel hw
    cases hv : arithF64.isLegal q v with
    | true =>
      rw [exec_wrpar_of_legal hq hv]
      exact completesReady_respond _ _ _
    | false =>
      rw [exec_wrpar_refused hq hv]
      exact completesReady_raise (by decide) s
  | rdpar p =>
    obtain ⟨q, hq⟩ := exists_paramOfSel hw
    rw [exec_rdpar_of_param hq]
    exact completesReady_respond _ _ _
  | rdst r =>
    obtain ⟨n, hn⟩ := exists_regOfSel hw
    have hk := any_needsRate_regOfSel r
    rw [hn, decide_eq_false h] at hk
    rw [exec_rdst_of_stored hn hk]
    exact completesReady_respond _ _ _
  | rddl c k =>
    obtain ⟨ch, hc⟩ := exists_chanOfSel (of_decide_eq_true hw)
    rw [exec_rddl_of_chan hc]
    exact completesReady_respond _ _ _
  | block | mod | chproc | frame | ostep | onext => exact h.elim

/-! ## Samples and taps that are not finite (R110, R294) -/

/-- With a prepared block `CHPROC` refuses a sample that is no number (R215, R294). -/
theorem exec_chproc_nonFinite {s : State} {c : Selector} {ch : Chan} {f : Fmt} {w : DataWord} (hc : chanOfSel c = some ch)
    (hv : blkValid s.regs = true) (hx : decodeSample f w = none) : exec (.chproc c f w) s = .next (raise .nonFinite s) := by
  simp [exec, execChproc, chprocWith, hc, chprocOn, needBlock_ready hv, hx]

/-- With a prepared block `FRAME` refuses two samples of which one is no number (R244, R294). -/
theorem exec_frame_nonFinite {s : State} {f : Fmt} {w0 w1 : DataWord} (hv : blkValid s.regs = true)
    (hx : decodeSample f w0 = none ∨ decodeSample f w1 = none) : exec (.frame f w0 w1) s = .next (raise .nonFinite s) := by
  rw [exec, execFrame, frameWith, needBlock_ready hv]
  rcases hx with hx | hx
  · simp [hx]
  · cases decodeSample f w0 with
    | none => rfl
    | some x0 => simp [hx]

/-- Where the tap has no floor the read of the line has no value, so a channel's transform has none (R110, R117). -/
theorem chProcess_of_no_floor {N : Type} {A : Arith N} {cfg : Cfg N} {r : Regs N} (h : A.ifloor r.cTap = none) (c : Chan) (x : N) :
    chProcess A cfg c x r = none := by
  have htap : A.ifloor (channelInputs r).cTap = none := h
  simp only [chProcess, channelTransform, delayLine, delayRead, htap, Option.map_none]

/-- A frame whose first transform has no value has none (R244). -/
theorem frameRegs_of_no_floor {N : Type} {A : Arith N} {cfg : Cfg N} {r : Regs N} (h : A.ifloor (modTap A cfg r).1.cTap = none)
    (x0 x1 : N) : frameRegs A cfg x0 x1 r = none := by
  simp only [frameRegs, chProcess_of_no_floor h]

/-- `CHPROC` on a tap that is an infinity or a NaN stops (R110, entry 4). -/
theorem exec_chproc_faults {s : State} {c : Selector} {ch : Chan} {f : Fmt} {w : DataWord} {x : Num64}
    (hc : chanOfSel c = some ch) (hv : blkValid s.regs = true) (hx : decodeSample f w = some x)
    (htap : F64.isFinite s.regs.cTap = false) : exec (.chproc c f w) s = .fault .floorOfNonFinite := by
  simp only [exec, execChproc, chprocWith, hc, chprocOn, needBlock_ready hv, hx,
    chProcess_of_no_floor (ifloor_arithF64_eq_none htap)]

/-- `FRAME` whose own tap is an infinity or a NaN stops (R110, entry 4). -/
theorem exec_frame_faults {s : State} {f : Fmt} {w0 w1 : DataWord} {x0 x1 : Num64} (hv : blkValid s.regs = true)
    (hx0 : decodeSample f w0 = some x0) (hx1 : decodeSample f w1 = some x1)
    (htap : F64.isFinite (modTap arithF64 design s.regs).1.cTap = false) :
    exec (.frame f w0 w1) s = .fault .floorOfNonFinite := by
  simp only [exec, execFrame, frameWith, needBlock_ready hv, hx0, hx1, frameRegs_of_no_floor (ifloor_arithF64_eq_none htap)]

end Sys2Proof.Machine

namespace Sys2Proof

open Machine

/-- Settles O9: of all that a command can do, only a fault answers a status other than `OK`. -/
theorem faultSetsOnlyItsFlag : Obligations.FaultSetsOnlyItsFlag := by
  unfold Obligations.FaultSetsOnlyItsFlag
  intro i s t a h ha hst
  rcases exec_writes h with ⟨e, rfl⟩ | ⟨-, rfl⟩ | ⟨-, -, rfl⟩ | ⟨q0, q1, r, -, rfl⟩
  · exact ⟨_, _, faultSt_flagMask_mem e, rfl⟩
  · obtain rfl := Option.some.inj ha
    exact absurd rfl hst
  · cases ha
  · obtain rfl := Option.some.inj ha
    exact absurd rfl hst

/-- Settles O10, row by row of R293: each gated command checks its flag first, and the commands that need nothing complete. -/
theorem readinessGating : Obligations.ReadinessGating := by
  unfold Obligations.ReadinessGating
  refine ⟨fun s hrate i hi => ?_, fun s hblk i hi => ?_, fun s i hi => completesReady_exec s ?_⟩
  · rcases hi with rfl | rfl | rfl | ⟨r, hlo, hhi, rfl⟩
    · exact exec_block_refused hrate
    · exact execOstep_refused hrate
    · exact execOnext_refused hrate
    · have hcoef := (any_needsRate_regOfSel r).trans (decide_eq_true ⟨hlo, hhi⟩)
      obtain ⟨n, hn, hk⟩ := (Option.any_eq_true _ _).mp hcoef
      exact exec_rdst_refused hn hk hrate
  · rcases hi with rfl | ⟨c, f, x, hc, rfl⟩ | ⟨f, x0, x1, rfl⟩
    · exact exec_mod_refused hblk
    · obtain ⟨ch, hch⟩ := exists_chanOfSel hc
      exact exec_chproc_refused hch f x hblk
    · exact exec_frame_refused f x0 x1 hblk
  · cases i <;> exact hi

/-- Settles O26: the samples are checked before the tap, and a tap without a floor leaves the transform of a channel without a value. -/
theorem sampleCommandsRefuseNonFinite : Obligations.SampleCommandsRefuseNonFinite := by
  unfold Obligations.SampleCommandsRefuseNonFinite
  intro s f w w' hv
  refine ⟨exec_frame_nonFinite hv, fun hx hx' htap => ?_, fun c hc => ?_⟩
  · obtain ⟨x0, hx0⟩ := Option.ne_none_iff_exists'.mp hx
    obtain ⟨x1, hx1⟩ := Option.ne_none_iff_exists'.mp hx'
    exact exec_frame_faults hv hx0 hx1 htap
  · obtain ⟨ch, hch⟩ := exists_chanOfSel hc
    refine ⟨exec_chproc_nonFinite hch hv, fun hx htap => ?_⟩
    obtain ⟨x, hx⟩ := Option.ne_none_iff_exists'.mp hx
    exact exec_chproc_faults hch hv hx htap

end Sys2Proof
end

section
/-! The host's mapping (R270 to R275) in the reference arithmetic. -/

namespace Sys2Proof.Machine

/-- The frequency mapping is an exponential sweep, undone by the logarithm (R272). -/
theorem log2Real_two_rpow (x : ℝ) : log2Real ((2 : ℝ) ^ x) = x := by
  rw [log2Real_of_pos (by positivity), Real.logb_rpow (by norm_num) (by norm_num)]

/-- The ends of the frequency mapping are apart (R8). -/
theorem log2Real_strictMono {a b : ℝ} (ha : 0 < a) (hab : a < b) : log2Real a < log2Real b := by
  rw [log2Real_of_pos ha, log2Real_of_pos (ha.trans hab)]
  exact Real.logb_lt_logb one_lt_two ha hab

/-- The fourth root undoes the fourth power from 0 on (R273). -/
theorem root4Real_pow {v : ℝ} (hv : 0 ≤ v) : root4Real (v ^ 4) = v := by
  rw [root4Real_of_nonneg (pow_nonneg hv 4), one_div]
  exact_mod_cast Real.pow_rpow_inv_natCast hv (four_ne_zero)

end Sys2Proof.Machine

namespace Sys2Proof

open Machine

/-- Settles O60, map by map: the identity, the exponential sweep, the fourth power and the affine map of the feedback. -/
theorem hostMappingRoundTrip : Obligations.HostMappingRoundTrip := by
  unfold Obligations.HostMappingRoundTrip
  intro fMin fMax v p hmin hmax hv0 _
  cases p with
  | sine | duty | depth | mix => rfl
  | freq =>
    have hoctaves : log2Real fMax - log2Real fMin ≠ 0 := sub_ne_zero.mpr (log2Real_strictMono hmin hmax).ne'
    simp only [forwardMap, inverseMap, arithReal_add, arithReal_sub, arithReal_mul, arithReal_div, hostReal_exp2, hostReal_log2,
      hostReal_fMin, hostReal_fMax, log2Real_two_rpow, add_sub_cancel_right]
    rw [divReal_of_ne _ hoctaves, mul_div_cancel_right₀ v hoctaves]
  | len => exact root4Real_pow hv0
  | fb =>
    simp only [forwardMap, inverseMap, arithReal_add, arithReal_sub, arithReal_mul, arithReal_div, arithReal_one, arithReal_two,
      sub_add_cancel]
    rw [divReal_of_ne _ two_ne_zero, mul_div_cancel_right₀ v two_ne_zero]

end Sys2Proof
end
